-- ==== Sys2Proof/Word.lean ====
section
/-! DEFINITION. The two word types of the block: a byte (R8) and the 32-bit address field and operand (R22, R23, R51). -/

namespace Sys2Proof

/-- A byte: 8 bits, bit 7 the most significant (R8). -/
abbrev Byte := BitVec 8

/-- A 32-bit unsigned value: the address field on the wire and the operands `ARG_A`, `ARG_B` (R22, R23, R51). -/
abbrev Addr := BitVec 32

end Sys2Proof
end

