-- ==== Sys2Proof/Config.lean ====
section
/-! DEFINITION. What is fixed for one block (geometry R6, parameters R7), the words in which the environment answers
(R111, R231), and the free values: what the environment answers where nothing in the state fixes it. -/

namespace Sys2Proof

/-! ### Geometry (R6) and fixed parameters (R7) -/

/-- `PAGE_SIZE` (R6). -/
def pageSize : Nat := 256
/-- `N_PAGES` (R6). -/
def nPages : Nat := 131072
/-- `SECTOR_SIZE` (R6). -/
def sectorSize : Nat := 4096
/-- `N_SECTORS` (R6). -/
def nSectors : Nat := 8192
/-- `BLOCK_32K_SIZE` (R6). -/
def block32kSize : Nat := 32768
/-- `N_BLOCKS_32K` (R6). -/
def nBlocks32k : Nat := 1024
/-- `BLOCK_64K_SIZE` (R6). -/
def block64kSize : Nat := 65536
/-- `N_BLOCKS_64K` (R6). -/
def nBlocks64k : Nat := 512
/-- `CAPACITY` (R6): 32 MiB. -/
def capacity : Nat := 33554432
/-- `VERIFY_WINDOW` (R7). -/
def verifyWindow : Nat := 64
/-- `ERASED_BYTE` (R7). -/
def erasedByte : Byte := 0xFF

/-- `P_EMPTY_XFER` (R7, D7): whether a zero-length transfer sends its command frame. -/
inductive EmptyXfer where
  | literal
  | skip
deriving DecidableEq, Repr

/-- `P_4B_ORDER` (R7, D8): where `> B7` stands in `erase_block_32k`. -/
inductive ModeOrder where
  | beforeHandshake
  | afterHandshake
deriving DecidableEq, Repr

/-- The parameters of R7 that are a choice of the one who builds the block. They stand in `State` so that a claim about
every state is a claim about every configuration, and no step writes them (R34, R43). DESIGN CHOICE, safe, log entry 4. -/
structure Params where
  verifyEn : Bool
  emptyXfer : EmptyXfer
  modeOrder : ModeOrder
  pageCapCheck : Bool
  abandon : Bool
deriving DecidableEq, Repr

/-- The defaults of R7: `false`, `literal`, `before_handshake`, `false`, `false`. -/
def Params.default : Params :=
  { verifyEn := false, emptyXfer := .literal, modeOrder := .beforeHandshake, pageCapCheck := false, abandon := false }

/-! ### What the environment can say -/

/-- `BusErr` (R7): the payload of a bus failure. The spec leaves the type opaque; here a number no rule looks into.
DESIGN CHOICE, safe, log entry 5. -/
structure BusErr where
  code : Nat
deriving DecidableEq, Repr, Inhabited

/-- `PinErr` (R7): the payload of a pin failure. DESIGN CHOICE, safe, log entry 5. -/
structure PinErr where
  code : Nat
deriving DecidableEq, Repr, Inhabited

/-- The level of a control-pin output (R33). -/
inductive PinLevel where
  | low
  | high
  | undriven
deriving DecidableEq, Repr, Inhabited

/-- One event of the trace (R111): a completed frame with what it received, or a failed transfer. -/
inductive BusEvent where
  | frame (tx rx : List Byte)
  | failed (tx : List Byte) (n : Nat) (e : BusErr)
deriving DecidableEq, Repr, Inhabited

/-- The environment's answer to one `Xfer` (R111). -/
inductive Answer where
  | ok (rx : List Byte)
  | fail (e : BusErr)
deriving DecidableEq, Repr, Inhabited

/-- The outcome of driving the two pins at `INIT` (R231). A failure leaves the pins at any level (U16). -/
inductive PinAnswer where
  | ok
  | fail (p : PinErr) (hold wp : PinLevel)
deriving DecidableEq, Repr, Inhabited

/-! ### Free values

None has a body a proof could look into: the environment may answer anything, depending on the whole trace (R111, D17). -/

/-- Whether the transfer `(tx, n)` after `trace` fails, and with what payload (R111). Log entry 1. -/
opaque Config.busFails (trace : List BusEvent) (tx : List Byte) (n : Nat) : Option BusErr

/-- The byte received at position `i` by the transfer `(tx, n)` after `trace` (R111). Log entry 1. -/
opaque Config.busByte (trace : List BusEvent) (tx : List Byte) (n i : Nat) : Byte

/-- The outcome of `INIT` where the state does not fix it (R231). Log entry 14. -/
opaque Config.pinAnswer : PinAnswer

/-- The `draw`-th free choice of the abandon move (R119). Log entry 15. -/
opaque Config.abandons (draw : Nat) : Bool

end Sys2Proof
end

