-- ==== Sys2Proof/Syntax.lean ====
section
/-! DEFINITION. The instructions: one constructor per row of the opcode table, the twelve frames (R86) and the fifteen
requests (R95); and the two encodings' carriers, a frame `(tx, n)` (R81) and a request word at the port (R95). -/

namespace Sys2Proof

/-- The fifteen operation names of `REQ_OP` (R21, R95). -/
inductive ReqOp where
  | readStatus
  | busy
  | writeEnabled
  | enableWrite
  | enter4ByteAddressMode
  | exit4ByteAddressMode
  | read
  | write
  | writePage
  | eraseSector
  | eraseBlock32k
  | eraseBlock64k
  | eraseChip
  | eraseRange
  | reset
deriving DecidableEq, Repr

/-- One constructor per row of `spec/opcode_table.json`. -/
inductive Instr where
  -- the twelve frames (R86)
  | readStatus1
  | writeEnable
  | pageProgram4b (addr : Addr) (data : List Byte)
  | readData4b (addr : Addr) (n : Nat)
  | sectorErase4k4b (addr : Addr)
  | blockErase32k (addr : Addr)
  | blockErase64k4b (addr : Addr)
  | chipErase
  | enableReset
  | resetDevice
  | enter4ByteMode
  | exit4ByteMode
  -- the fifteen requests (R95)
  | readStatus
  | busy
  | writeEnabled
  | enableWrite
  | enter4ByteAddressMode
  | exit4ByteAddressMode
  | read (address len : Addr)
  | write (address : Addr) (data : List Byte)
  | writePage (address : Addr) (chunk : List Byte)
  | eraseSector (index : Addr)
  | eraseBlock32k (index : Addr)
  | eraseBlock64k (index : Addr)
  | eraseChip
  | eraseRange (start stop : Addr)
  | reset
deriving DecidableEq, Repr

/-- A request as it stands at the bit-level request port: the 4-bit operation field, the two numeric operands and the
byte list (R95, R96, R97, D2). -/
structure ReqWord where
  op : BitVec 4
  argA : Addr
  argB : Addr
  dataIn : List Byte
deriving DecidableEq, Repr

/-- An instruction as it is encoded: a frame is the pair given to `Xfer` (R81), a request is a word at the port (R95). -/
inductive Code where
  | frame (tx : List Byte) (n : Nat)
  | request (w : ReqWord)
deriving DecidableEq, Repr

/-- Why a decoder rejects. -/
inductive DecodeError where
  /-- a frame with no byte at all: a frame begins with its opcode (R80) -/
  | emptyFrame
  /-- byte 0 is none of the twelve opcodes (R82, R98) -/
  | unknownOpcode (op : Byte)
  /-- the bytes after the opcode are not those of the opcode's format (R80) -/
  | badLength (op : Byte)
  /-- the number of bytes to receive is not that of the opcode's format (R80) -/
  | badReceiveCount (op : Byte)
  /-- a page-program frame over 256 data bytes or past the end of its page (R98, U3) -/
  | pageOverrun
  /-- ordinal 15 at the request port (R97) -/
  | reservedOrdinal
  /-- `ARG_B` is not the length of `DATA_IN` in a request where it must be (R23, R95) -/
  | lengthMismatch
deriving DecidableEq, Repr

end Sys2Proof
end

