-- ==== Sys2Proof/WellFormed.lean ====
section
/-! DEFINITION. What an instruction of the table must satisfy to have an encoding: the limits of a page-program frame
(R80, R98) and a data length that fits `ARG_B` (R23, R96). -/

namespace Sys2Proof

/-- A page-program payload: at most 256 bytes and inside the page it starts in (R98; the table's row `PAGE_PROGRAM_4B`). -/
def pageFits (addr : Addr) (data : List Byte) : Bool :=
  decide (data.length ≤ pageSize) && decide (addr.toNat % pageSize + data.length ≤ pageSize)

/-- A byte list whose length is a 32-bit operand (R23, R96). -/
def lengthFits (data : List Byte) : Bool := decide (data.length < 2 ^ 32)

/-- The instructions that have an encoding. -/
def Instr.wf : Instr → Bool
  | .readStatus1 => true
  | .writeEnable => true
  | .pageProgram4b addr data => pageFits addr data
  | .readData4b _ _ => true
  | .sectorErase4k4b _ => true
  | .blockErase32k _ => true
  | .blockErase64k4b _ => true
  | .chipErase => true
  | .enableReset => true
  | .resetDevice => true
  | .enter4ByteMode => true
  | .exit4ByteMode => true
  | .readStatus => true
  | .busy => true
  | .writeEnabled => true
  | .enableWrite => true
  | .enter4ByteAddressMode => true
  | .exit4ByteAddressMode => true
  | .read _ _ => true
  | .write _ data => lengthFits data
  | .writePage _ chunk => lengthFits chunk
  | .eraseSector _ => true
  | .eraseBlock32k _ => true
  | .eraseBlock64k _ => true
  | .eraseChip => true
  | .eraseRange _ _ => true
  | .reset => true

end Sys2Proof
end

