-- ==== Sys2Proof/Decode.lean ====
section
/-! DEFINITION. The decoder and the encoder of both encodings: frames (R80 to R86) and request words (R95 to R97), and
`decodeTableWord`, the decoder on a word numbered as the opcode table numbers it. -/

namespace Sys2Proof

/-! ### Byte order of the address field (R51, R83) -/

/-- `be32(a)`: the four bytes of a 32-bit value, most significant first (R83). -/
def be32 (a : Nat) : List Byte :=
  [BitVec.ofNat 8 (a / 2 ^ 24), BitVec.ofNat 8 (a / 2 ^ 16), BitVec.ofNat 8 (a / 2 ^ 8), BitVec.ofNat 8 a]

/-- The address that four bytes carry, the first the most significant (R51). -/
def fromBe32 (b3 b2 b1 b0 : Byte) : Addr :=
  BitVec.ofNat 32 (b3.toNat * 2 ^ 24 + b2.toNat * 2 ^ 16 + b1.toNat * 2 ^ 8 + b0.toNat)

/-- `frame(op, a) = [op] ++ be32(a)`, the command-framing function (R83). -/
def frameBytes (op : Byte) (a : Addr) : List Byte := op :: be32 a.toNat

/-! ### Frames (R80, R86) -/

/-- Format `OP`: the opcode alone, nothing received. -/
def decodeOp (op : Byte) (i : Instr) (rest : List Byte) (n : Nat) : Except DecodeError Instr :=
  match rest with
  | [] => if n = 0 then .ok i else .error (.badReceiveCount op)
  | _ :: _ => .error (.badLength op)

/-- Format `OP_R1`: the opcode alone, one byte received. -/
def decodeOpR1 (op : Byte) (i : Instr) (rest : List Byte) (n : Nat) : Except DecodeError Instr :=
  match rest with
  | [] => if n = 1 then .ok i else .error (.badReceiveCount op)
  | _ :: _ => .error (.badLength op)

/-- Format `OP_A4`: opcode and address, nothing received. -/
def decodeOpA4 (op : Byte) (i : Addr → Instr) (rest : List Byte) (n : Nat) : Except DecodeError Instr :=
  match rest with
  | [b3, b2, b1, b0] => if n = 0 then .ok (i (fromBe32 b3 b2 b1 b0)) else .error (.badReceiveCount op)
  | _ => .error (.badLength op)

/-- Format `OP_A4_RN`: opcode and address, `n` bytes received. -/
def decodeOpA4Rn (op : Byte) (i : Addr → Nat → Instr) (rest : List Byte) (n : Nat) : Except DecodeError Instr :=
  match rest with
  | [b3, b2, b1, b0] => .ok (i (fromBe32 b3 b2 b1 b0) n)
  | _ => .error (.badLength op)

/-- Format `OP_A4_DN`: opcode, address and data, nothing received; the data stay inside one page (R98). -/
def decodeOpA4Dn (op : Byte) (i : Addr → List Byte → Instr) (rest : List Byte) (n : Nat) : Except DecodeError Instr :=
  match rest with
  | b3 :: b2 :: b1 :: b0 :: data =>
    if n = 0 then
      if pageFits (fromBe32 b3 b2 b1 b0) data then .ok (i (fromBe32 b3 b2 b1 b0) data) else .error .pageOverrun
    else .error (.badReceiveCount op)
  | _ => .error (.badLength op)

/-- The decoder of frames: byte 0 alone selects format and command (R82, R86). -/
def decodeFrame (tx : List Byte) (n : Nat) : Except DecodeError Instr :=
  match tx with
  | [] => .error .emptyFrame
  | op :: rest =>
    if op = 0x05 then decodeOpR1 op .readStatus1 rest n
    else if op = 0x06 then decodeOp op .writeEnable rest n
    else if op = 0x12 then decodeOpA4Dn op .pageProgram4b rest n
    else if op = 0x13 then decodeOpA4Rn op .readData4b rest n
    else if op = 0x21 then decodeOpA4 op .sectorErase4k4b rest n
    else if op = 0x52 then decodeOpA4 op .blockErase32k rest n
    else if op = 0xDC then decodeOpA4 op .blockErase64k4b rest n
    else if op = 0xC7 then decodeOp op .chipErase rest n
    else if op = 0x66 then decodeOp op .enableReset rest n
    else if op = 0x99 then decodeOp op .resetDevice rest n
    else if op = 0xB7 then decodeOp op .enter4ByteMode rest n
    else if op = 0xE9 then decodeOp op .exit4ByteMode rest n
    else .error (.unknownOpcode op)

/-! ### Request words (R95 to R97) -/

/-- A request that carries data: `ARG_B` is the length of `DATA_IN` (R23, R95). Log entry 7. -/
def decodeWithData (w : ReqWord) (i : Addr → List Byte → Instr) : Except DecodeError Instr :=
  if w.dataIn.length = w.argB.toNat then .ok (i w.argA w.dataIn) else .error .lengthMismatch

/-- The decoder of request words, by the ordinals of R95; operands a request does not have are not looked at. -/
def decodeRequest (w : ReqWord) : Except DecodeError Instr :=
  match w.op.toNat with
  | 0 => .ok .readStatus
  | 1 => .ok .busy
  | 2 => .ok .writeEnabled
  | 3 => .ok .enableWrite
  | 4 => .ok .enter4ByteAddressMode
  | 5 => .ok .exit4ByteAddressMode
  | 6 => .ok (.read w.argA w.argB)
  | 7 => decodeWithData w .write
  | 8 => decodeWithData w .writePage
  | 9 => .ok (.eraseSector w.argA)
  | 10 => .ok (.eraseBlock32k w.argA)
  | 11 => .ok (.eraseBlock64k w.argA)
  | 12 => .ok .eraseChip
  | 13 => .ok (.eraseRange w.argA w.argB)
  | 14 => .ok .reset
  | _ => .error .reservedOrdinal

/-- The decoder: total on any frame and any request word, rejecting by name. -/
def decode : Code → Except DecodeError Instr
  | .frame tx n => decodeFrame tx n
  | .request w => decodeRequest w

/-! ### The encoder -/

/-- A request word with no data (R95). -/
def reqWord (op : BitVec 4) (a b : Addr) : ReqWord := { op := op, argA := a, argB := b, dataIn := [] }

/-- A request word with data; `ARG_B` is its length (R95). -/
def reqWordData (op : BitVec 4) (a : Addr) (d : List Byte) : ReqWord :=
  { op := op, argA := a, argB := BitVec.ofNat 32 d.length, dataIn := d }

/-- The encoding of an instruction: frames as R86 and R80 lay them out, requests with the ordinals of R95. -/
def encode : Instr → Code
  | .readStatus1 => .frame [0x05] 1
  | .writeEnable => .frame [0x06] 0
  | .pageProgram4b addr data => .frame (frameBytes 0x12 addr ++ data) 0
  | .readData4b addr n => .frame (frameBytes 0x13 addr) n
  | .sectorErase4k4b addr => .frame (frameBytes 0x21 addr) 0
  | .blockErase32k addr => .frame (frameBytes 0x52 addr) 0
  | .blockErase64k4b addr => .frame (frameBytes 0xDC addr) 0
  | .chipErase => .frame [0xC7] 0
  | .enableReset => .frame [0x66] 0
  | .resetDevice => .frame [0x99] 0
  | .enter4ByteMode => .frame [0xB7] 0
  | .exit4ByteMode => .frame [0xE9] 0
  | .readStatus => .request (reqWord 0 0 0)
  | .busy => .request (reqWord 1 0 0)
  | .writeEnabled => .request (reqWord 2 0 0)
  | .enableWrite => .request (reqWord 3 0 0)
  | .enter4ByteAddressMode => .request (reqWord 4 0 0)
  | .exit4ByteAddressMode => .request (reqWord 5 0 0)
  | .read address len => .request (reqWord 6 address len)
  | .write address data => .request (reqWordData 7 address data)
  | .writePage address chunk => .request (reqWordData 8 address chunk)
  | .eraseSector index => .request (reqWord 9 index 0)
  | .eraseBlock32k index => .request (reqWord 10 index 0)
  | .eraseBlock64k index => .request (reqWord 11 index 0)
  | .eraseChip => .request (reqWord 12 0 0)
  | .eraseRange start stop => .request (reqWord 13 start stop)
  | .reset => .request (reqWord 14 0 0)

/-! ### A word numbered as the opcode table numbers it -/

/-- The `count` bytes of `w`, the least significant (the first on the wire) first. -/
def tableBytes (w : Nat) : Nat → List Byte
  | 0 => []
  | count + 1 => BitVec.ofNat 8 w :: tableBytes (w / 256) count

/-- How many bytes a frame with this opcode sends when its data field is empty (R80, R86). -/
def tableFrameLength (op : Byte) : Nat :=
  if op = 0x12 ∨ op = 0x13 ∨ op = 0x21 ∨ op = 0x52 ∨ op = 0xDC then 5 else 1

/-- How many bytes a frame with this opcode receives when it streams no data (R80, R86). -/
def tableFrameReceives (op : Byte) : Nat := if op = 0x05 then 1 else 0

/-- The code a table word stands for. The table numbers frames by their first byte and requests by a 4-bit ordinal, so
0x05 and 0x06 name a frame and a request each: with eight bits or more they are read as the frame, with fewer as the
request. DESIGN CHOICE, safe, log entry 8. -/
def tableCode (nbits w : Nat) : Code :=
  let op : Byte := BitVec.ofNat 8 w
  let tx := tableBytes w (tableFrameLength op)
  let asRequest : Code := .request (reqWord (BitVec.ofNat 4 w) 0 0)
  if nbits < 8 then asRequest
  else if w < 16 ∧ w ≠ 5 ∧ w ≠ 6 then asRequest
  else .frame tx (tableFrameReceives op)

/-- What the decoder reads from a table word, every bit above `nbits` zero. -/
def decodeTableWord (nbits w : Nat) : Option Instr :=
  match decode (tableCode nbits w) with
  | .ok i => some i
  | .error _ => none

end Sys2Proof
end

