-- ==== Sys2Proof/Machine/State.lean ====
section
/-! DEFINITION. The state of the sequencer (10_state.md) and, beside it, of its environment as plain data: the request
port, the answers already fixed, and the chip of the reference oracle (95_test_vectors.md section 4). -/

namespace Sys2Proof.Machine

/-- `PHASE`, the block's program counter (R27): what the sequencer is about to do. -/
inductive Phase where
  | init
  | idle
  | check
  | status
  | pollPre
  | mode
  | wren
  | wrenChk
  | cmd
  | pollPost
  | verify
  | rst1
  | rst2
  | respond
deriving DecidableEq, Repr

/-- The value of a successful response (R35): nothing, the status byte, a Boolean, or the buffer of `read`. -/
inductive Value where
  | nothing
  | status (b : Byte)
  | flag (b : Bool)
  | bytes (bs : List Byte)
deriving DecidableEq, Repr

/-- `RESULT` (R35, R190): success or one of the six error kinds with its payload. -/
inductive Result where
  | ok (v : Value)
  | busTransportError (e : BusErr)
  | pinControlError (p : PinErr)
  | notAligned
  | outOfBounds
  | writeEnableFail
  | readbackFail
deriving DecidableEq, Repr

/-- The flash bytes of the reference oracle: address and byte, addresses strictly rising, no byte that an unlisted
address reads as. -/
abbrev Memory := List Host.Cell

/-- An effect the chip has in flight (95 section 4 `PENDING`): a page program or the erase of a region. -/
inductive Effect where
  | program (addr : Nat) (data : List Byte)
  | erase (base len : Nat)
deriving DecidableEq, Repr

/-- The chip of the reference oracle (95_test_vectors.md section 4): its flash, its write-enable latch (R39), its address
mode (R41), the status reads that will still see it busy, the effect in flight (R40), and the constant `K`. -/
structure Chip where
  mem : Memory
  wel : Bool
  mode4 : Bool
  busyCnt : Nat
  pending : Option Effect
  k : Nat
deriving DecidableEq, Repr

/-- Which environment answers the bus: any oracle (D17), or the reference oracle of 95 section 4. Log entry 16. -/
inductive BusEnd where
  | oracle
  | reference
deriving DecidableEq, Repr

/-- The state. Fields down to `responses` are the sequencer's; the rest is the environment, as plain data. -/
structure State where
  /-- the parameters of R7, `VERIFY_EN` among them (R34); no step writes them (R43) -/
  params : Params
  /-- `PHASE` (R27) -/
  phase : Phase
  /-- `ACTIVE` (R28) -/
  active : Bool
  /-- `REQ_OP` (R21) -/
  reqOp : ReqOp
  /-- `ARG_A` (R22) -/
  argA : Addr
  /-- `ARG_B` (R23) -/
  argB : Addr
  /-- `DATA_IN` (R24) -/
  dataIn : List Byte
  /-- `DATA_OUT` (R24) -/
  dataOut : List Byte
  /-- `CUR` (R25): the flash address of the running chunk of `write` -/
  cur : Addr
  /-- `OFF` (R25): how many bytes of `DATA_IN` are done -/
  off : Nat
  /-- `IDX` (R25): the sector `erase_range` is at -/
  idx : Nat
  /-- `CUR` at the level of the running verification (R25, R176, R177): the address of the next window -/
  vcur : Addr
  /-- `OFF` at the level of the running verification (R25, R176, R177) -/
  voff : Nat
  /-- `HOLD_PIN` (R33) -/
  holdPin : PinLevel
  /-- `WP_PIN` (R33) -/
  wpPin : PinLevel
  /-- `INIT` has failed: the block is out of service (R231). Log entry 14. -/
  initFailed : Bool
  /-- `RESULT` (R35) -/
  result : Result
  /-- `TRACE` (R29, R111), ghost -/
  trace : List BusEvent
  /-- the responses given so far, the other half of the observation (R112), ghost -/
  responses : List Result
  /-- the request words the host presents, the first at the port (R205). Log entry 6. -/
  requests : List ReqWord
  /-- the bus answers already fixed, the next first (R111). Log entry 1. -/
  answers : List Answer
  /-- the answer to `INIT` already fixed (R231). Log entry 14. -/
  pinAnswers : List PinAnswer
  /-- the abandon choices already fixed, the next first (R119). Log entry 15. -/
  abandons : List Bool
  /-- how many free abandon choices have been drawn (R119). Log entry 15. -/
  draws : Nat
  /-- which environment answers the bus (D17) -/
  busEnd : BusEnd
  /-- the chip of the reference oracle (95 section 4) -/
  chip : Chip
deriving DecidableEq, Repr

/-- Why the machine stops with a fault. -/
inductive Fault where
  /-- raised by `fetch` and by a request's meaning: `PHASE` stands at a call site that the rule of `REQ_OP` does not have
  (R27, R116). No run reaches such a state (`Sys2Proof.Safety.Inv` rules it out). Safe: the machine stops where the spec
  describes no state. -/
  | noCallSite
deriving DecidableEq, Repr

/-- Why an instruction is refused. -/
inductive Refusal where
  /-- raised by an arm of `exec` whose instruction has no meaning yet. Safe. -/
  | notModelled (mnemonic : String)
  /-- raised by a request's meaning while the port is not ready, that is while `ACTIVE` or before `INIT` has succeeded
  (R113, R205, R231, U12: "refuse (no move)"). Safe; `step` never presents a request then. -/
  | portNotReady
  /-- raised by a frame's meaning where `PHASE` and the registers do not select exactly that frame: the sequencer sends
  no frame but the one its rule issues (R27, R60, R98). Safe; `step` never asks for another frame. -/
  | notSelected
  /-- raised by `step` at a request word the port refuses: ordinal 15 (R97, U11), or a length that is not that of the
  data (R23). Safe: no request of R95 has such a word. -/
  | badRequest (e : DecodeError)
deriving DecidableEq, Repr

/-- The chip of the reference oracle as the model starts it: erased, idle, latch clear, `K` = 1. The spec leaves the
chip's state at reset unknown (R234, U21); DESIGN CHOICE, unsafe, log entry 16. -/
def Chip.start : Chip := { mem := [], wel := false, mode4 := false, busyCnt := 0, pending := none, k := 1 }

/-- The machine right after reset, before `INIT` (R42, R230). The registers R42 leaves unspecified hold the values of log
entry 3. -/
def State.reset : State :=
  { params := Params.default
    phase := .init
    active := false
    reqOp := .readStatus
    argA := 0
    argB := 0
    dataIn := []
    dataOut := []
    cur := 0
    off := 0
    idx := 0
    vcur := 0
    voff := 0
    holdPin := .undriven
    wpPin := .undriven
    initFailed := false
    result := .ok .nothing
    trace := []
    responses := []
    requests := []
    answers := []
    pinAnswers := []
    abandons := []
    draws := 0
    busEnd := .oracle
    chip := Chip.start }

end Sys2Proof.Machine
end

