-- ==== Sys2Proof/Machine/Memory.lean ====
section
/-! DEFINITION. The flash bytes of the reference oracle in their one canonical form: what an unlisted address reads as,
reading, writing, programming (R72, R73) and erasing (R74). -/

namespace Sys2Proof.Machine

/-- What an address that is not listed reads as: an erased byte. The spec leaves the flash contents at reset unknown (R42);
DESIGN CHOICE, unsafe, log entry 16. -/
def unlistedByte : Byte := erasedByte

/-- The byte at an address. -/
def Memory.read (m : Memory) (a : Nat) : Byte :=
  match m with
  | [] => unlistedByte
  | c :: rest => if c.1 = a then c.2 else Memory.read rest a

/-- A cell in front of a memory, left out where it holds what an unlisted address reads as. -/
def Memory.push (a : Nat) (v : Byte) (m : Memory) : Memory := if v = unlistedByte then m else (a, v) :: m

/-- Write one byte, keeping the canonical form. -/
def Memory.write (m : Memory) (a : Nat) (v : Byte) : Memory :=
  match m with
  | [] => Memory.push a v []
  | c :: rest =>
    if a < c.1 then Memory.push a v (c :: rest)
    else if a = c.1 then Memory.push a v rest
    else c :: Memory.write rest a v

/-- The page base of an address (R59). -/
def pageBase (a : Nat) : Nat := a / pageSize * pageSize

/-- Where data byte `i` of a page program at `a` lands: inside the page of `a`, wrapping at its end (R52, R73). -/
def programAddr (a i : Nat) : Nat := pageBase a + (a + i) % pageSize

/-- A page program from its data byte `i` on: each byte is ANDed into the flash (R72). -/
def Memory.program (m : Memory) (a i : Nat) (data : List Byte) : Memory :=
  match data with
  | [] => m
  | d :: rest =>
    Memory.program (m.write (programAddr a i) (m.read (programAddr a i) &&& d)) a (i + 1) rest

/-- An erase: every byte of the region becomes 0xFF (R74), which is what an unlisted address reads as. -/
def Memory.erase (m : Memory) (base len : Nat) : Memory :=
  m.filter fun c => !(decide (base ≤ c.1) && decide (c.1 < base + len))

/-- The `n` bytes from `a` on, addresses modulo the capacity (95 section 4). -/
def Memory.readRange (m : Memory) (a : Nat) : Nat → List Byte
  | 0 => []
  | n + 1 => m.read (a % capacity) :: Memory.readRange m (a + 1) n

/-- A memory all of whose addresses are from `lo` on, strictly rising, inside the device, with no unlisted byte. -/
def Memory.wfFrom (lo : Nat) : Memory → Bool
  | [] => true
  | c :: rest =>
    decide (lo ≤ c.1) && decide (c.1 < capacity) && decide (c.2 ≠ unlistedByte) && Memory.wfFrom (c.1 + 1) rest

/-- The canonical form. -/
def Memory.wf (m : Memory) : Bool := Memory.wfFrom 0 m

end Sys2Proof.Machine
end

