-- ==== Sys2Proof/Machine/Chip.lean ====
section
/-! DEFINITION. The reference oracle (95_test_vectors.md section 4): how its chip answers one frame. It is the environment,
not the block (R5, D17), and a claim about every environment does not look into it. Where the table marks a line as the
oracle's own choice or as general knowledge, the model follows the table; log entry 16. -/

namespace Sys2Proof.Machine

/-- The status byte the chip shows: `2*WEL + 1` while busy, `2*WEL` when idle (95 section 4). -/
def Chip.status (c : Chip) : Byte :=
  BitVec.ofNat 8 ((if c.wel then 2 else 0) + (if c.busyCnt = 0 then 0 else 1))

/-- The flash after the effect in flight has been applied (R70, R72 to R74). -/
def Chip.applyPending (c : Chip) : Memory :=
  match c.pending with
  | none => c.mem
  | some (.program a d) => c.mem.program a 0 d
  | some (.erase base len) => c.mem.erase base len

/-- The internal operation ends: its effect is applied and the latch clears (R70). -/
def Chip.complete (c : Chip) : Chip :=
  { c with mem := c.applyPending, wel := false, busyCnt := 0, pending := none }

/-- A status read seen by the chip: a busy chip comes one read nearer its end. -/
def Chip.afterStatus (c : Chip) : Chip :=
  if c.busyCnt = 0 then c
  else if c.busyCnt = 1 then c.complete
  else { c with busyCnt := c.busyCnt - 1 }

/-- A command that an idle chip takes and a busy one ignores (R71). -/
def Chip.ifIdle (c : Chip) (d : Chip) : Chip := if c.busyCnt = 0 then d else c

/-- A mutating command on an idle chip: ignored with the latch clear (G3), else the chip is busy with its effect. -/
def Chip.startEffect (c : Chip) (e : Effect) : Chip :=
  if c.wel then { c with pending := some e, busyCnt := c.k } else c

/-- The answer to a read frame: the stored bytes when idle (R75), 0xFF bytes when busy (the oracle's choice, U2). -/
def Chip.readBytes (c : Chip) (a n : Nat) : List Byte :=
  if c.busyCnt = 0 then c.mem.readRange a n else List.replicate n erasedByte

/-- A page program or an addressed erase whose address is outside the device: the table gives no answer (U10, U20). -/
def Chip.addressed (c : Chip) (a : Nat) (e : Effect) : Option (List Byte × Chip) :=
  if c.busyCnt = 0 then
    if a < capacity then some ([], c.startEffect e) else none
  else some ([], c)

/-- The effect of an erase of the unit of `size` bytes that contains `a` (R74). -/
def eraseUnit (a size : Nat) : Effect := .erase (a / size * size) size

/-- The chip's answer to a decoded frame and the chip after it; `none` where the table gives no answer. -/
def Chip.take (c : Chip) : Instr → Option (List Byte × Chip)
  | .readStatus1 => some ([c.status], c.afterStatus)
  | .writeEnable => some ([], c.ifIdle { c with wel := true })
  | .pageProgram4b addr data => c.addressed addr.toNat (.program addr.toNat data)
  | .readData4b addr n => some (c.readBytes addr.toNat n, c)
  | .sectorErase4k4b addr => c.addressed addr.toNat (eraseUnit addr.toNat sectorSize)
  | .blockErase32k addr =>
    if c.busyCnt = 0 && !c.mode4 then none else c.addressed addr.toNat (eraseUnit addr.toNat block32kSize)
  | .blockErase64k4b addr => c.addressed addr.toNat (eraseUnit addr.toNat block64kSize)
  | .chipErase => some ([], c.ifIdle (c.startEffect (.erase 0 capacity)))
  | .enableReset => some ([], c)
  | .resetDevice => some ([], c)
  | .enter4ByteMode => some ([], c.ifIdle { c with mode4 := true })
  | .exit4ByteMode => some ([], c.ifIdle { c with mode4 := false })
  | .readStatus | .busy | .writeEnabled | .enableWrite | .enter4ByteAddressMode
  | .exit4ByteAddressMode | .read _ _ | .write _ _ | .writePage _ _ | .eraseSector _
  | .eraseBlock32k _ | .eraseBlock64k _ | .eraseChip | .eraseRange _ _ | .reset => none

/-- The chip's answer to the bytes of a frame, through the decoder of R82; a frame that does not decode gets none (U3). -/
def Chip.answer (c : Chip) (tx : List Byte) (n : Nat) : Option (List Byte × Chip) :=
  match decodeFrame tx n with
  | .ok i => c.take i
  | .error _ => none

end Sys2Proof.Machine
end

