-- ==== Sys2Proof/Machine/Flags.lean ====
section
/-! DEFINITION. The two fields of the status byte that the sequencer reads (R30): BUSY, bit 0, and WEL, bit 1. Bits 7 to 2
are read by nothing (D23). -/

namespace Sys2Proof.Machine

/-- `BUSY`, bit 0 of a status byte (R30, R31). -/
def statusBusy (sr : Byte) : Bool := sr.getLsbD 0

/-- `WEL`, bit 1 of a status byte (R30, R32). -/
def statusWel (sr : Byte) : Bool := sr.getLsbD 1

end Sys2Proof.Machine
end

