-- ==== Sys2Proof/Machine/Ops.lean ====
section
/-! DEFINITION. The operations every meaning is built from: one `Xfer` (R111), raising an error (R200) and the return to
the host that follows it (R200, R203), ending with success, accepting a request (R113), `INIT` (R231) and abandonment
(R119). -/

namespace Sys2Proof.Machine

/-! ### PHASE -/

/-- `PHASE <- p` (R10). -/
def State.goto (p : Phase) (s : State) : State := { s with phase := p }

/-! ### Errors and responses (R200, R203, R206) -/

/-- TAKING AN ERROR: `raise E(info)` at any depth (R115, R200): `RESULT` takes the error and nothing more is sent. -/
def State.raise (r : Result) (s : State) : State := { s with result := r, phase := .respond }

/-- `return v`: the request ends with success (R10, R113). -/
def State.finish (v : Value) (s : State) : State := { s with result := .ok v, phase := .respond }

/-- THE RETURN to the host, the same after success and error (R113, R200, R203, R206): the response carries `RESULT`,
`ACTIVE` clears, the block is idle. -/
def State.respond (s : State) : State :=
  { s with responses := s.responses ++ [s.result], active := false, phase := .idle }

/-- The abandon move (R119): the operation stops between two steps, with no response and no further frame. -/
def State.abandonOp (s : State) : State := { s with active := false, phase := .idle }

/-! ### The bus (R10, R111) -/

/-- `n` received bytes from position `i` on: those of the list, and the environment's own (`free`) where it is too short.
An answer always has exactly `n` bytes (R111). Log entry 2. -/
def fit (free : Nat → Byte) (i : Nat) : Nat → List Byte → List Byte
  | 0, _ => []
  | n + 1, [] => free i :: fit free (i + 1) n []
  | n + 1, b :: bs => b :: fit free (i + 1) n bs

/-- The answer of an environment nothing in the state fixes: any (R111, D17). -/
def oracleAnswer (trace : List BusEvent) (tx : List Byte) (n : Nat) : Answer :=
  match Config.busFails trace tx n with
  | some e => .fail e
  | none => .ok (fit (Config.busByte trace tx n) 0 n [])

/-- An answer cut or filled to the `n` bytes that the transfer receives. -/
def fitAnswer (trace : List BusEvent) (tx : List Byte) (n : Nat) : Answer → Answer
  | .ok rx => .ok (fit (Config.busByte trace tx n) 0 n rx)
  | .fail e => .fail e

/-- Both pins are high, without which the chip accepts no command (R68). -/
def State.pinsHigh (s : State) : Bool := decide (s.holdPin = .high) && decide (s.wpPin = .high)

/-- The environment's answer to one `Xfer` and the state with that answer used up (R111, D17). -/
def State.busAnswer (tx : List Byte) (n : Nat) (s : State) : Answer × State :=
  match s.busEnd with
  | .oracle =>
    match s.answers with
    | [] => (oracleAnswer s.trace tx n, s)
    | a :: rest => (fitAnswer s.trace tx n a, { s with answers := rest })
  | .reference =>
    match s.pinsHigh, s.chip.answer tx n with
    | true, some (rx, c) => (fitAnswer s.trace tx n (.ok rx), { s with chip := c })
    | _, _ => (oracleAnswer s.trace tx n, s)

/-- One event more on the trace (R111). -/
def State.record (e : BusEvent) (s : State) : State := { s with trace := s.trace ++ [e] }

/-- `rx <- Xfer(tx, n)` and what follows it: one event on the trace; a failure raises `BusTransportError(e)`, success goes
on with the received bytes (R10, R111, R191). -/
def State.transfer (tx : List Byte) (n : Nat) (next : List Byte → State → State) (s : State) : State :=
  match s.busAnswer tx n with
  | (.ok rx, s1) => next rx (s1.record (.frame tx rx))
  | (.fail e, s1) => (s1.record (.failed tx n e)).raise (.busTransportError e)

/-! ### Acceptance (R113) and the life of a request -/

/-- Acceptance of a request (R113): `ACTIVE` is set, `REQ_OP` latched, and the rule begins at its first phase. The request's
meaning writes the operands the request has; those it does not have, `State.latch` has taken from the port (log entry 9). -/
def State.accept (op : ReqOp) (first : Phase) (s : State) : State :=
  { s with active := true, reqOp := op, phase := first }

/-- The port's operands at acceptance: `ARG_A`, `ARG_B` and `DATA_IN` are latched from the request word, those its operation does
not use among them (R113, D2). -/
def State.latch (w : ReqWord) (s : State) : State := { s with argA := w.argA, argB := w.argB, dataIn := w.dataIn }

/-- The running request, read back from the latches (R21 to R24). -/
def State.running (s : State) : Instr :=
  match s.reqOp with
  | .readStatus => .readStatus
  | .busy => .busy
  | .writeEnabled => .writeEnabled
  | .enableWrite => .enableWrite
  | .enter4ByteAddressMode => .enter4ByteAddressMode
  | .exit4ByteAddressMode => .exit4ByteAddressMode
  | .read => .read s.argA s.argB
  | .write => .write s.argA s.dataIn
  | .writePage => .writePage s.argA s.dataIn
  | .eraseSector => .eraseSector s.argA
  | .eraseBlock32k => .eraseBlock32k s.argA
  | .eraseBlock64k => .eraseBlock64k s.argA
  | .eraseChip => .eraseChip
  | .eraseRange => .eraseRange s.argA s.argB
  | .reset => .reset

/-- The steps a request takes itself, its frames being instructions of their own: accepted when the block is idle (R113,
R205), its precondition evaluated at `CHECK`, its response given at `RESPOND` (R110 kinds a and c). At any other moment
the port is not ready (R205, U12). -/
def serve (i : Instr) (accepted : State → State) (check : Option (State → State)) (s : State) :
    Host.Outcome State Fault Refusal :=
  match s.phase with
  | .idle => if s.active then .refused .portNotReady else .next (accepted s)
  | .check =>
    if s.running = i then
      match check with
      | some f => .next (f s)
      | none => .fault .noCallSite
    else .refused .portNotReady
  | .respond => if s.running = i then .next s.respond else .refused .portNotReady
  | _ => .refused .portNotReady

/-! ### INIT (R231) -/

/-- The answer to `INIT`'s pin drive: the one the state fixes, else any. -/
def State.pinAnswer (s : State) : PinAnswer :=
  match s.pinAnswers with
  | [] => Config.pinAnswer
  | a :: _ => a

/-- Both pins have been raised: the block is idle (R231). -/
def State.pinsRaised (s : State) : State := { s with holdPin := .high, wpPin := .high, phase := .idle }

/-- A pin could not be raised: the outcome of construction is `PinControlError(p)`, the pins are at any level (U16), and the
block stays out of `IDLE` (R231). -/
def State.pinsFailed (p : PinErr) (hold wp : PinLevel) (s : State) : State :=
  { s with holdPin := hold, wpPin := wp, result := .pinControlError p, initFailed := true }

/-- `INIT`, the only thing the block does on its own; after it has failed the block does nothing more (R231). -/
def State.initStep (s : State) : State :=
  if s.initFailed then s
  else
    let t := { s with pinAnswers := s.pinAnswers.tail }
    match s.pinAnswer with
    | .ok => t.pinsRaised
    | .fail p hold wp => t.pinsFailed p hold wp

/-! ### Abandonment (R119) -/

/-- Whether the environment abandons the operation now, and the state with that choice used up; never with
`P_ABANDON = false` (R119). -/
def State.abandonChoice (s : State) : Bool × State :=
  if s.params.abandon then
    match s.abandons with
    | [] => (Config.abandons s.draws, { s with draws := s.draws + 1 })
    | b :: rest => (b, { s with abandons := rest })
  else (false, s)

end Sys2Proof.Machine
end

