-- ==== Sys2Proof/Machine/Operands.lean ====
section
/-! DEFINITION. What the rules compute from the operands and cursors: the bounds tests (R121), page arithmetic (R122), unit
addresses (R84, R123), range arithmetic (R124), verification windows (R125), and the frame that `PHASE` selects (R27). All
arithmetic is exact, on natural numbers (R120). -/

namespace Sys2Proof.Machine

/-! ### Tests on operands -/

/-- The bounds test of `read` and `write`: equality is in bounds (R121). -/
def exceedsCapacity (address len : Nat) : Bool := decide (capacity < address + len)

/-- A chunk that leaves the page it starts in (R122, R152). -/
def spansPage (address len : Nat) : Bool := decide (pageSize < address % pageSize + len)

/-- Not a multiple of `SECTOR_SIZE` (R124). -/
def misaligned (x : Nat) : Bool := decide (x % sectorSize ≠ 0)

/-! ### Page arithmetic of `write` (R122, R150) -/

/-- The length of the first chunk of a `write` of `len` bytes (R122, R150 step 2). -/
def firstChunk (address len : Nat) : Nat := min (pageSize - address % pageSize) len

/-- The length of the chunk of `write` that starts at `OFF`: the first one up to the page end, later ones up to a page
(R150). -/
def State.chunkLen (s : State) : Nat :=
  if s.off = 0 then firstChunk s.argA.toNat s.dataIn.length else min pageSize (s.dataIn.length - s.off)

/-- The chunk of `write` that starts at `OFF` (R150). -/
def State.chunk (s : State) : List Byte := (s.dataIn.drop s.off).take s.chunkLen

/-! ### Unit addresses (R84, R123) -/

/-- The byte address of unit `index` of `size` bytes, as it stands in a frame (R84). -/
def unitAddr (index size : Nat) : Addr := BitVec.ofNat 32 (index * size)

/-- The sector count at which `erase_range` ends (R124). -/
def State.endSector (s : State) : Nat := s.argB.toNat / sectorSize

/-! ### The region under verification (R175 to R177) -/

/-- The first byte of the region the running mutating command works on. -/
def State.regionAddr (s : State) : Addr :=
  match s.reqOp with
  | .write => s.cur
  | .writePage => s.argA
  | .eraseSector => unitAddr s.argA.toNat sectorSize
  | .eraseBlock32k => unitAddr s.argA.toNat block32kSize
  | .eraseBlock64k => unitAddr s.argA.toNat block64kSize
  | .eraseRange => unitAddr s.idx sectorSize
  | _ => 0

/-- The length of that region. -/
def State.regionLen (s : State) : Nat :=
  match s.reqOp with
  | .write => s.chunkLen
  | .writePage => s.dataIn.length
  | .eraseSector => sectorSize
  | .eraseBlock32k => block32kSize
  | .eraseBlock64k => block64kSize
  | .eraseChip => capacity
  | .eraseRange => sectorSize
  | _ => 0

/-- The length of the window at the verification's `OFF` (R125). -/
def State.windowLen (s : State) : Nat := min verifyWindow (s.regionLen - s.voff)

/-- What the window must hold: the chunk's bytes after a program (R176), 0xFF after an erase (R177). -/
def State.expectedWindow (s : State) : List Byte :=
  match s.reqOp with
  | .write => (s.chunk.drop s.voff).take s.windowLen
  | .writePage => (s.dataIn.drop s.voff).take s.windowLen
  | _ => List.replicate s.windowLen erasedByte

/-! ### The frame that PHASE selects (R27, R87) -/

/-- The main command frame of the running request, at `CMD`. -/
def State.commandFrame (s : State) : Option Instr :=
  match s.reqOp with
  | .read => some (.readData4b s.argA s.argB.toNat)
  | .write => some (.pageProgram4b s.cur s.chunk)
  | .writePage => some (.pageProgram4b s.argA s.dataIn)
  | .eraseSector => some (.sectorErase4k4b s.regionAddr)
  | .eraseBlock32k => some (.blockErase32k s.regionAddr)
  | .eraseBlock64k => some (.blockErase64k4b s.regionAddr)
  | .eraseChip => some .chipErase
  | .eraseRange => some (.sectorErase4k4b s.regionAddr)
  | _ => none

/-- The address-mode frame of the running request, at `MODE`. -/
def State.modeFrame (s : State) : Option Instr :=
  match s.reqOp with
  | .enter4ByteAddressMode => some .enter4ByteMode
  | .exit4ByteAddressMode => some .exit4ByteMode
  | .eraseBlock32k => some .enter4ByteMode
  | _ => none

/-- The frame the sequencer sends next, if it is at a call site (R27). -/
def State.nextFrame (s : State) : Option Instr :=
  match s.phase with
  | .status | .pollPre | .wrenChk | .pollPost => some .readStatus1
  | .wren => some .writeEnable
  | .mode => s.modeFrame
  | .cmd => s.commandFrame
  | .verify => some (.readData4b s.vcur s.windowLen)
  | .rst1 => some .resetDevice
  | .rst2 => some .enableReset
  | .init | .idle | .check | .respond => none

/-- The bytes a frame sends (R80, R86). -/
def frameTx (i : Instr) : List Byte :=
  match encode i with
  | .frame tx _ => tx
  | .request _ => []

/-- The number of bytes a frame receives (R80, R86). -/
def frameRx (i : Instr) : Nat :=
  match encode i with
  | .frame _ n => n
  | .request _ => 0

/-- A frame at its call site: one `Xfer` of the frame's encoding, then what the rule does next (R110 kind b). The sequencer
sends no frame that `PHASE` and the registers do not select (R27, R60, R98). -/
def sendFrame (i : Instr) (next : List Byte → State → State) (s : State) : Host.Outcome State Fault Refusal :=
  if s.nextFrame = some i then .next (s.transfer (frameTx i) (frameRx i) next) else .refused .notSelected

end Sys2Proof.Machine
end

