-- ==== Sys2Proof/Machine/Mode.lean ====
section
/-! DEFINITION. Address-mode control (R140 to R142): the two requests and the two frames. -/

namespace Sys2Proof.Machine

/-- After a mode frame: the stand-alone requests end (R140, R141); `erase_block_32k` goes on to the handshake or, with
`P_4B_ORDER = after_handshake`, to its erase frame (R160, R162). -/
def afterMode (s : State) : State :=
  match s.reqOp with
  | .eraseBlock32k => s.goto (match s.params.modeOrder with
      | .beforeHandshake => .wren
      | .afterHandshake => .cmd)
  | _ => s.finish .nothing

/-- `enter_4_byte_address_mode()` (R140). -/
def execEnter4ByteAddressMode (s : State) : Host.Outcome State Fault Refusal :=
  serve .enter4ByteAddressMode (fun s => s.accept .enter4ByteAddressMode .mode) none s

/-- `exit_4_byte_address_mode()` (R141). -/
def execExit4ByteAddressMode (s : State) : Host.Outcome State Fault Refusal :=
  serve .exit4ByteAddressMode (fun s => s.accept .exit4ByteAddressMode .mode) none s

/-- The frame `> B7` (R140, R162). -/
def execEnter4ByteMode (s : State) : Host.Outcome State Fault Refusal :=
  sendFrame .enter4ByteMode (fun _ t => afterMode t) s

/-- The frame `> E9` (R141). -/
def execExit4ByteMode (s : State) : Host.Outcome State Fault Refusal :=
  sendFrame .exit4ByteMode (fun _ t => afterMode t) s

end Sys2Proof.Machine
end

