-- ==== Sys2Proof/Machine/Erase.lean ====
section
/-! DEFINITION. The erase family (R160 to R167): the four erases and `erase_range`, and their frames. -/

namespace Sys2Proof.Machine

/-- An indexed erase at `CHECK`: the index is below the unit count, or the request is out of bounds with no frame sent
(R121, R160). -/
def checkIndex (count : Nat) (s : State) : State :=
  if count ≤ s.argA.toNat then s.raise .outOfBounds else s.goto .pollPre

/-- `erase_range` calls `erase_sector(IDX)`, whose own range check may fail (R165, R166), or returns at its end sector. -/
def nextSector (s : State) : State :=
  if s.idx < s.endSector then
    if nSectors ≤ s.idx then s.raise .outOfBounds else s.goto .pollPre
  else s.finish .nothing

/-- `erase_range` after a sector (R165). -/
def sectorDone (s : State) : State := nextSector { s with idx := s.idx + 1 }

/-- `erase_range` at `CHECK` (R165): alignment first, then order, then the first sector. -/
def checkRange (s : State) : State :=
  if misaligned s.argA.toNat || misaligned s.argB.toNat then s.raise .notAligned
  else if s.argB.toNat < s.argA.toNat then s.raise .outOfBounds
  else nextSector { s with idx := s.argA.toNat / sectorSize }

/-- `erase_sector(index)` (R161). -/
def execEraseSector (index : Addr) (s : State) : Host.Outcome State Fault Refusal :=
  serve (.eraseSector index) (fun s => ({ s with argA := index }).accept .eraseSector .check)
    (some (checkIndex nSectors)) s

/-- `erase_block_32k(index)` (R162). -/
def execEraseBlock32k (index : Addr) (s : State) : Host.Outcome State Fault Refusal :=
  serve (.eraseBlock32k index) (fun s => ({ s with argA := index }).accept .eraseBlock32k .check)
    (some (checkIndex nBlocks32k)) s

/-- `erase_block_64k(index)` (R163). -/
def execEraseBlock64k (index : Addr) (s : State) : Host.Outcome State Fault Refusal :=
  serve (.eraseBlock64k index) (fun s => ({ s with argA := index }).accept .eraseBlock64k .check)
    (some (checkIndex nBlocks64k)) s

/-- `erase_chip()` (R164): no precondition, so its rule begins with the leading busy-wait. -/
def execEraseChip (s : State) : Host.Outcome State Fault Refusal :=
  serve .eraseChip (fun s => s.accept .eraseChip .pollPre) none s

/-- `erase_range(start, end)` (R165). -/
def execEraseRange (start stop : Addr) (s : State) : Host.Outcome State Fault Refusal :=
  serve (.eraseRange start stop) (fun s => ({ s with argA := start, argB := stop }).accept .eraseRange .check)
    (some checkRange) s

/-- The sector-erase frame (R161), then the trailing busy-wait (R160). -/
def execSectorErase4k4b (addr : Addr) (s : State) : Host.Outcome State Fault Refusal :=
  sendFrame (.sectorErase4k4b addr) (fun _ t => t.goto .pollPost) s

/-- The 32 KiB block-erase frame (R162), then the trailing busy-wait (R160). -/
def execBlockErase32k (addr : Addr) (s : State) : Host.Outcome State Fault Refusal :=
  sendFrame (.blockErase32k addr) (fun _ t => t.goto .pollPost) s

/-- The 64 KiB block-erase frame (R163), then the trailing busy-wait (R160). -/
def execBlockErase64k4b (addr : Addr) (s : State) : Host.Outcome State Fault Refusal :=
  sendFrame (.blockErase64k4b addr) (fun _ t => t.goto .pollPost) s

/-- The chip-erase frame, which has no address (R164), then the trailing busy-wait (R160). -/
def execChipErase (s : State) : Host.Outcome State Fault Refusal :=
  sendFrame .chipErase (fun _ t => t.goto .pollPost) s

end Sys2Proof.Machine
end

