-- ==== Sys2Proof/Machine/Write.lean ====
section
/-! DEFINITION. `write` and `write_page` (R150 to R157) and the page-program frame (R153). -/

namespace Sys2Proof.Machine

/-- `write_page` from its `CHECK` to its handshake (R152): the page-span test, the optional capacity test (D27), the empty
chunk that `P_EMPTY_XFER = skip` does not send (D7), else `WREN`. -/
def beginPage (address len : Nat) (s : State) : State :=
  if spansPage address len then s.raise .outOfBounds
  else if s.params.pageCapCheck && exceedsCapacity address len then s.raise .outOfBounds
  else if len = 0 ∧ s.params.emptyXfer = .skip then s.finish .nothing
  else s.goto .wren

/-- `write` calls `write_page` for the chunk at `CUR`, `OFF` (R150 steps 3 and 4), or returns when no byte remains. -/
def nextChunk (s : State) : State :=
  if s.off < s.dataIn.length then beginPage s.cur.toNat s.chunkLen s else s.finish .nothing

/-- `write` after its leading busy-wait (R150 steps 2 and 3): the cursors stand at the first chunk, which is programmed even
when it is empty unless `P_EMPTY_XFER = skip`. -/
def beginChunks (s : State) : State :=
  let t := { s with cur := s.argA, off := 0 }
  if t.chunkLen = 0 ∧ s.params.emptyXfer = .skip then t.finish .nothing
  else beginPage t.cur.toNat t.chunkLen t

/-- `write` after a chunk (R150 step 4): `CUR` and `OFF` move past it. -/
def chunkDone (s : State) : State :=
  nextChunk { s with cur := s.cur + BitVec.ofNat 32 s.chunkLen, off := s.off + s.chunkLen }

/-- The bounds test of `write` at `CHECK` (R150). -/
def checkWrite (s : State) : State :=
  if exceedsCapacity s.argA.toNat s.dataIn.length then s.raise .outOfBounds else s.goto .pollPre

/-- `write(address, data)` (R150). -/
def execWrite (address : Addr) (data : List Byte) (s : State) : Host.Outcome State Fault Refusal :=
  serve (.write address data)
    (fun s => ({ s with argA := address, argB := BitVec.ofNat 32 data.length, dataIn := data }).accept .write .check)
    (some checkWrite) s

/-- `write_page(address, chunk)` (R152). -/
def execWritePage (address : Addr) (chunk : List Byte) (s : State) : Host.Outcome State Fault Refusal :=
  serve (.writePage address chunk)
    (fun s => ({ s with argA := address, argB := BitVec.ofNat 32 chunk.length, dataIn := chunk }).accept .writePage .check)
    (some fun s => beginPage s.argA.toNat s.dataIn.length s) s

/-- The page-program frame, `MemWrite` (R153), then the trailing busy-wait (R152). -/
def execPageProgram4b (addr : Addr) (data : List Byte) (s : State) : Host.Outcome State Fault Refusal :=
  sendFrame (.pageProgram4b addr data) (fun _ t => t.goto .pollPost) s

end Sys2Proof.Machine
end

