-- ==== Sys2Proof/Machine/Verify.lean ====
section
/-! DEFINITION. What follows a mutating command's trailing busy-wait: readback verification where `VERIFY_EN` (R175 to
R180), then the rest of the running request. -/

namespace Sys2Proof.Machine

/-- The mutating command and its verification are over: `write` goes to its next chunk (R150), `erase_range` to its next
sector (R165), and every other request ends with success (R152, R160). -/
def commandDone (s : State) : State :=
  match s.reqOp with
  | .write => chunkDone s
  | .eraseRange => sectorDone s
  | _ => s.finish .nothing

/-- The window loop's test (R176, R177): another window, or the end of verification. -/
def nextWindow (s : State) : State := if s.voff < s.regionLen then s.goto .verify else commandDone s

/-- Verification begins at the region's first byte (R176 to R178). -/
def beginVerify (s : State) : State := nextWindow { s with vcur := s.regionAddr, voff := 0 }

/-- The trailing busy-wait has ended (R152, R160, R175). -/
def afterPollPost (s : State) : State := if s.params.verifyEn then beginVerify s else commandDone s

/-- A verification window has been read: any difference is `ReadbackFail` and ends the request; else the next window
(R176 to R178). -/
def afterWindow (rx : List Byte) (s : State) : State :=
  if rx = s.expectedWindow then
    nextWindow { s with vcur := s.vcur + BitVec.ofNat 32 s.windowLen, voff := s.voff + s.windowLen }
  else s.raise .readbackFail

end Sys2Proof.Machine
end

