-- ==== Sys2Proof/Machine/Read.lean ====
section
/-! DEFINITION. `read` (R145 to R147) and the read frame `MemRead` (R146), which verification shares. -/

namespace Sys2Proof.Machine

/-- The bounds test of `read` at `CHECK` (R145), and the empty read that `P_EMPTY_XFER = skip` does not send (D7). -/
def checkRead (s : State) : State :=
  if exceedsCapacity s.argA.toNat s.argB.toNat then s.raise .outOfBounds
  else if s.argB.toNat = 0 ∧ s.params.emptyXfer = .skip then s.finish (.bytes [])
  else s.goto .cmd

/-- `read(address, buffer)` (R145). -/
def execRead (address len : Addr) (s : State) : Host.Outcome State Fault Refusal :=
  serve (.read address len) (fun s => ({ s with argA := address, argB := len }).accept .read .check)
    (some checkRead) s

/-- After a read frame: verification compares its window (R176, R177), `read` delivers the buffer (R145). -/
def afterReadData (rx : List Byte) (s : State) : State :=
  match s.phase with
  | .verify => afterWindow rx s
  | _ => ({ s with dataOut := rx }).finish (.bytes rx)

/-- The read frame, `MemRead(addr, n)` (R146). -/
def execReadData4b (addr : Addr) (n : Nat) (s : State) : Host.Outcome State Fault Refusal :=
  sendFrame (.readData4b addr n) afterReadData s

end Sys2Proof.Machine
end

