-- ==== Sys2Proof/Machine/ResetCmd.lean ====
section
/-! DEFINITION. The `reset` request (R185, R186): 0x99, then 0x66 (C1), with no check, no wait and no handshake. -/

namespace Sys2Proof.Machine

/-- `reset()` (R185). The block accepts it unchecked: that no operation is outstanding in the chip is the host's duty (R186,
R210), `Sys2Proof.Safety.ResetDuty`, log entry 26. -/
def execReset (s : State) : Host.Outcome State Fault Refusal :=
  serve .reset (fun s => s.accept .reset .rst1) none s

/-- The frame `> 99`, the first of the pair (R185). -/
def execResetDevice (s : State) : Host.Outcome State Fault Refusal :=
  sendFrame .resetDevice (fun _ t => t.goto .rst2) s

/-- The frame `> 66`, the second of the pair (R185). -/
def execEnableReset (s : State) : Host.Outcome State Fault Refusal :=
  sendFrame .enableReset (fun _ t => t.finish .nothing) s

end Sys2Proof.Machine
end

