-- ==== Sys2Proof/Machine/Status.lean ====
section
/-! DEFINITION. The status protocol, the write-enable handshake and the busy-wait (R130 to R136): four requests, the
status-read frame with its four call sites, and the write-enable frame. -/

namespace Sys2Proof.Machine

/-- The answer of the three status requests from the byte received (R130 to R132). -/
def statusValue (op : ReqOp) (sr : Byte) : Value :=
  match op with
  | .busy => .flag (statusBusy sr)
  | .writeEnabled => .flag (statusWel sr)
  | _ => .status sr

/-- The leading busy-wait has ended: `write` takes its first chunk (R150); the erases go to the handshake, `erase_block_32k`
by way of `> B7` in the default order (R160, R162). -/
def afterPollPre (s : State) : State :=
  match s.reqOp with
  | .write => beginChunks s
  | .eraseBlock32k => s.goto (match s.params.modeOrder with
      | .beforeHandshake => .mode
      | .afterHandshake => .wren)
  | _ => s.goto .wren

/-- The latch is confirmed: `enable_write` ends (R133); a mutating request goes to its command frame, `erase_block_32k` with
`P_4B_ORDER = after_handshake` by way of `> B7` (R152, R160). -/
def afterHandshake (s : State) : State :=
  match s.reqOp with
  | .enableWrite => s.finish .nothing
  | .eraseBlock32k => s.goto (match s.params.modeOrder with
      | .beforeHandshake => .cmd
      | .afterHandshake => .mode)
  | _ => s.goto .cmd

/-- After a status read, by its call site (R130 to R136): a status request answers; the handshake tests the latch, once; a
busy-wait loops while the byte just received has bit 0 set. -/
def afterStatusByte (sr : Byte) (s : State) : State :=
  match s.phase with
  | .wrenChk => if statusWel sr then afterHandshake s else s.raise .writeEnableFail
  | .pollPre => if statusBusy sr then s else afterPollPre s
  | .pollPost => if statusBusy sr then s else afterPollPost s
  | _ => s.finish (statusValue s.reqOp sr)

/-- The status-read frame (R130). -/
def execReadStatus1 (s : State) : Host.Outcome State Fault Refusal :=
  sendFrame .readStatus1 (fun rx t => afterStatusByte (rx.headD 0) t) s

/-- The write-enable frame; the confirming status read follows at once (R133). -/
def execWriteEnable (s : State) : Host.Outcome State Fault Refusal :=
  sendFrame .writeEnable (fun _ t => t.goto .wrenChk) s

/-- `read_status()` (R130). -/
def execReadStatus (s : State) : Host.Outcome State Fault Refusal :=
  serve .readStatus (fun s => s.accept .readStatus .status) none s

/-- `busy()` (R131). -/
def execBusy (s : State) : Host.Outcome State Fault Refusal :=
  serve .busy (fun s => s.accept .busy .status) none s

/-- `write_enabled()` (R132). -/
def execWriteEnabled (s : State) : Host.Outcome State Fault Refusal :=
  serve .writeEnabled (fun s => s.accept .writeEnabled .status) none s

/-- `enable_write()` (R133). -/
def execEnableWrite (s : State) : Host.Outcome State Fault Refusal :=
  serve .enableWrite (fun s => s.accept .enableWrite .wren) none s

end Sys2Proof.Machine
end

