-- ==== Sys2Proof/Machine/Dispatch.lean ====
section
/-! DEFINITION. The dispatch: one arm per constructor of Instr, each one direct call of that instruction's meaning. -/

namespace Sys2Proof.Machine

def exec (i : Instr) (s : State) : Host.Outcome State Fault Refusal :=
  match i with
  | .readStatus1 => Sys2Proof.Machine.execReadStatus1 s
  | .writeEnable => Sys2Proof.Machine.execWriteEnable s
  | .pageProgram4b addr data => Sys2Proof.Machine.execPageProgram4b addr data s
  | .readData4b addr n => Sys2Proof.Machine.execReadData4b addr n s
  | .sectorErase4k4b addr => Sys2Proof.Machine.execSectorErase4k4b addr s
  | .blockErase32k addr => Sys2Proof.Machine.execBlockErase32k addr s
  | .blockErase64k4b addr => Sys2Proof.Machine.execBlockErase64k4b addr s
  | .chipErase => Sys2Proof.Machine.execChipErase s
  | .enableReset => Sys2Proof.Machine.execEnableReset s
  | .resetDevice => Sys2Proof.Machine.execResetDevice s
  | .enter4ByteMode => Sys2Proof.Machine.execEnter4ByteMode s
  | .exit4ByteMode => Sys2Proof.Machine.execExit4ByteMode s
  | .readStatus => Sys2Proof.Machine.execReadStatus s
  | .busy => Sys2Proof.Machine.execBusy s
  | .writeEnabled => Sys2Proof.Machine.execWriteEnabled s
  | .enableWrite => Sys2Proof.Machine.execEnableWrite s
  | .enter4ByteAddressMode => Sys2Proof.Machine.execEnter4ByteAddressMode s
  | .exit4ByteAddressMode => Sys2Proof.Machine.execExit4ByteAddressMode s
  | .read address len => Sys2Proof.Machine.execRead address len s
  | .write address data => Sys2Proof.Machine.execWrite address data s
  | .writePage address chunk => Sys2Proof.Machine.execWritePage address chunk s
  | .eraseSector index => Sys2Proof.Machine.execEraseSector index s
  | .eraseBlock32k index => Sys2Proof.Machine.execEraseBlock32k index s
  | .eraseBlock64k index => Sys2Proof.Machine.execEraseBlock64k index s
  | .eraseChip => Sys2Proof.Machine.execEraseChip s
  | .eraseRange start stop => Sys2Proof.Machine.execEraseRange start stop s
  | .reset => Sys2Proof.Machine.execReset s

end Sys2Proof.Machine
end

