-- ==== Sys2Proof/Machine/Fetch.lean ====
section
/-! DEFINITION. What the machine does next (R110, R113): `INIT`, wait for a request, take the request at the port, or run
the instruction `PHASE` selects; and how an instruction is placed where it is fetched next. -/

namespace Sys2Proof.Machine

/-- What one step finds to do. -/
inductive Fetched where
  /-- a step that runs no instruction -/
  | quiet (s : State)
  /-- an instruction, and the state it is run in -/
  | run (i : Instr) (s : State)
  /-- a request word the port refuses -/
  | bad (e : DecodeError)
  /-- `PHASE` at a call site that the running rule does not have -/
  | none
deriving DecidableEq, Repr

/-- At `IDLE` (R113): nothing while no request is presented; else the word at the port is decoded, taken off it, and its
operands are latched, so that the request's own acceptance finds them in their registers. -/
def State.fetchRequest (s : State) : Fetched :=
  match s.requests with
  | [] => .quiet s
  | w :: rest =>
    match decode (.request w) with
    | .ok i => .run i ({ s with requests := rest }.latch w)
    | .error e => .bad e

/-- Inside an operation (R110): the running request at `CHECK` and `RESPOND`, the frame `PHASE` selects at a call site. -/
def State.fetchActive (s : State) : Fetched :=
  match s.phase with
  | .check | .respond => .run s.running s
  | _ =>
    match s.nextFrame with
    | some i => .run i s
    | Option.none => .none

/-- What the next step finds to do. Between two steps of an active operation the environment may abandon it (R119). -/
def State.fetch (s : State) : Fetched :=
  match s.phase with
  | .init => .quiet s.initStep
  | .idle => s.fetchRequest
  | _ =>
    match s.abandonChoice with
    | (true, t) => .quiet t.abandonOp
    | (false, t) => t.fetchActive

/-- The state with both pins high and `IDLE`, as `INIT` leaves it (R231). -/
def State.inService (s : State) : State :=
  { s with holdPin := .high, wpPin := .high, initFailed := false, active := false, phase := .idle }

/-- The next abandon choice is not to abandon. -/
def State.keepGoing (s : State) : State :=
  if s.params.abandon then { s with abandons := false :: s.abandons } else s

/-- The state at call site `p` of request `op`. -/
def State.atSite (op : ReqOp) (p : Phase) (s : State) : State := (s.inService.keepGoing).accept op p

/-- The state whose next step sends frame `i`: an active request whose rule issues that frame, at the frame's call site
(R27, R87). Log entry 19. -/
def State.placeFrame (i : Instr) (s : State) : State :=
  match i with
  | .readStatus1 => s.atSite .readStatus .status
  | .writeEnable => s.atSite .enableWrite .wren
  | .pageProgram4b addr data =>
    { s.atSite .writePage .cmd with argA := addr, argB := BitVec.ofNat 32 data.length, dataIn := data }
  | .readData4b addr n => { s.atSite .read .cmd with argA := addr, argB := BitVec.ofNat 32 n }
  | .sectorErase4k4b addr => { s.atSite .eraseSector .cmd with argA := BitVec.ofNat 32 (addr.toNat / sectorSize) }
  | .blockErase32k addr => { s.atSite .eraseBlock32k .cmd with argA := BitVec.ofNat 32 (addr.toNat / block32kSize) }
  | .blockErase64k4b addr => { s.atSite .eraseBlock64k .cmd with argA := BitVec.ofNat 32 (addr.toNat / block64kSize) }
  | .chipErase => s.atSite .eraseChip .cmd
  | .enableReset => s.atSite .reset .rst2
  | .resetDevice => s.atSite .reset .rst1
  | .enter4ByteMode => s.atSite .enter4ByteAddressMode .mode
  | .exit4ByteMode => s.atSite .exit4ByteAddressMode .mode
  | .readStatus | .busy | .writeEnabled | .enableWrite | .enter4ByteAddressMode
  | .exit4ByteAddressMode | .read _ _ | .write _ _ | .writePage _ _ | .eraseSector _
  | .eraseBlock32k _ | .eraseBlock64k _ | .eraseChip | .eraseRange _ _ | .reset => s

/-- The state whose next step finds `c`: a request word stands first at the port of an idle block, a frame is the one
`PHASE` selects. -/
def State.place (c : Code) (s : State) : State :=
  match c with
  | .request w => { s.inService with requests := w :: s.requests }
  | .frame tx n =>
    match decodeFrame tx n with
    | .ok i => s.placeFrame i
    | .error _ => s

end Sys2Proof.Machine
end

