-- ==== Sys2Proof/Machine/Step.lean ====
section
/-! DEFINITION. One step of the machine (R110), and how an instruction is stored where the next step fetches. -/

namespace Sys2Proof.Machine

/-- One step: a quiet step, or the instruction fetched (R110, R113). -/
def step (s : State) : Host.Outcome State Fault Refusal :=
  match s.fetch with
  | .quiet t => .next t
  | .run i t => exec i t
  | .bad e => .refused (.badRequest e)
  | .none => .fault .noCallSite

/-- `s` with the table word `w` where `step` fetches its next instruction: a request at the port of the idle block, a frame
at its call site. Log entry 19. -/
def State.withFetchWord (s : State) (nbits w : Nat) : State := s.place (tableCode nbits w)

end Sys2Proof.Machine
end

