-- ==== Sys2Proof/Machine/Adapter.lean ====
section
/-! DEFINITION. The boundary of the two adapters above the block, as far as the spec transcribes it: the requests their
calls forward to (R101), the filesystem's error space (R213), the numeric result codes (R190) and the observation (R112).
The adapters themselves are outside the block (R5). -/

namespace Sys2Proof.Machine

/-- The numeric code of a result (R190). -/
def Result.code : Result → Nat
  | .ok _ => 0
  | .busTransportError _ => 1
  | .pinControlError _ => 2
  | .notAligned => 3
  | .outOfBounds => 4
  | .writeEnableFail => 5
  | .readbackFail => 6

/-- The observation of the block: the trace and the sequence of responses (R112). -/
def State.observation (s : State) : List BusEvent × List Result := (s.trace, s.responses)

/-- The adapter's `capacity()`: a constant, no request (R101). -/
def adapterCapacity : Nat := capacity

/-- The adapter's `read(offset, buf)` (R101). -/
def adapterRead (offset len : Addr) : Instr := .read offset len

/-- The adapter's `write(offset, buf)` (R101). -/
def adapterWrite (offset : Addr) (buf : List Byte) : Instr := .write offset buf

/-- The adapter's `erase(from, to)` (R101). -/
def adapterErase (start stop : Addr) : Instr := .eraseRange start stop

/-- The filesystem adapter's two-valued error space (R213). -/
inductive FsError where
  | invalid
  | io
deriving DecidableEq, Repr

/-- The filesystem adapter's conversion of a result: alignment and bounds errors are INVALID, every other error IO (R213). -/
def Result.fsError : Result → Option FsError
  | .ok _ => none
  | .notAligned => some .invalid
  | .outOfBounds => some .invalid
  | .busTransportError _ => some .io
  | .pinControlError _ => some .io
  | .writeEnableFail => some .io
  | .readbackFail => some .io

end Sys2Proof.Machine
end

