-- ==== Sys2Proof/Machine/BigStep.lean ====
section
/-! DEFINITION. The fifteen rules as the spec writes them, each a procedure that calls its sub-operations and runs to its
`return` or `raise` (R114, R115, R130 to R185), over a finite list of the environment's answers. It is the clear reading
of the pseudocode; the step machine is claimed to follow it. A procedure has no outcome where the answers run out. -/

namespace Sys2Proof.Machine

/-- The bus as a procedure sees it: the trace so far and the answers to come. -/
structure BusLine where
  trace : List BusEvent
  answers : List Answer
deriving DecidableEq, Repr

/-- A procedure: no outcome (the answers ran out), an error raised, or a value returned; and the bus afterwards. -/
abbrev Flow (α : Type) := BusLine → Option (Except Result α × BusLine)

/-- `return v`. -/
def flowReturn {α : Type} (v : α) : Flow α := fun b => some (.ok v, b)

/-- `raise E` (R200). -/
def flowRaise {α : Type} (r : Result) : Flow α := fun b => some (.error r, b)

/-- One line of pseudocode and then the next ones; an error ends them all (R114, R115). -/
def flowThen {α β : Type} (f : Flow α) (g : α → Flow β) : Flow β := fun b =>
  match f b with
  | none => none
  | some (.error r, b') => some (.error r, b')
  | some (.ok v, b') => g v b'

/-- `Xfer(tx, n)` (R10, R111). -/
def flowXfer (tx : List Byte) (n : Nat) : Flow (List Byte) := fun b =>
  match b.answers with
  | [] => none
  | .fail e :: rest => some (.error (.busTransportError e), ⟨b.trace ++ [.failed tx n e], rest⟩)
  | .ok rx :: rest => if rx.length = n then some (.ok rx, ⟨b.trace ++ [.frame tx rx], rest⟩) else none

/-- A frame that receives nothing. -/
def flowSend (tx : List Byte) : Flow Unit := flowThen (flowXfer tx 0) fun _ => flowReturn ()

/-- `read_status()` (R130). -/
def flowReadStatus : Flow Byte := flowThen (flowXfer [0x05] 1) fun rx => flowReturn (rx.headD 0)

/-- `enable_write()` (R133). -/
def flowEnableWrite : Flow Unit :=
  flowThen (flowSend [0x06]) fun _ =>
  flowThen flowReadStatus fun sr =>
  if statusWel sr then flowReturn () else flowRaise .writeEnableFail

/-- The loop of `busy_wait()` (R134), at most `rounds` times round. -/
def flowPoll : Nat → Flow Unit
  | 0 => fun _ => none
  | rounds + 1 =>
    flowThen flowReadStatus fun sr => if statusBusy sr then flowPoll rounds else flowReturn ()

/-- `busy_wait()` (R134): each time round takes one answer, so the answers bound the rounds. -/
def flowBusyWait : Flow Unit := fun b => flowPoll (b.answers.length + 1) b

/-- `MemRead(addr, n)` (R146). -/
def flowMemRead (addr n : Nat) : Flow (List Byte) := flowXfer (0x13 :: be32 addr) n

/-- `MemWrite(addr, n, v)` (R153). -/
def flowMemWrite (addr : Nat) (v : List Byte) : Flow Unit := flowSend (0x12 :: be32 addr ++ v)

/-- The window loop of verification (R176, R177): `expected off w` is what the `w` bytes at `off` must be. -/
def flowWindows (address len : Nat) (expected : Nat → Nat → List Byte) : Nat → Nat → Flow Unit
  | 0, _ => flowReturn ()
  | rounds + 1, off =>
    if off < len then
      flowThen (flowMemRead (address + off) (min verifyWindow (len - off))) fun rx =>
      if rx = expected off (min verifyWindow (len - off)) then
        flowWindows address len expected rounds (off + min verifyWindow (len - off))
      else flowRaise .readbackFail
    else flowReturn ()

/-- `verify_data(address, expected)` (R176). -/
def flowVerifyData (address : Nat) (data : List Byte) : Flow Unit :=
  flowWindows address data.length (fun off w => (data.drop off).take w) data.length 0

/-- `verify_erased(address, L)` (R177). -/
def flowVerifyErased (address len : Nat) : Flow Unit :=
  flowWindows address len (fun _ w => List.replicate w erasedByte) len 0

/-- `write_page(address, chunk)` (R152). -/
def flowWritePage (p : Params) (address : Nat) (chunk : List Byte) : Flow Unit :=
  if pageSize < address % pageSize + chunk.length then flowRaise .outOfBounds
  else if p.pageCapCheck = true ∧ capacity < address + chunk.length then flowRaise .outOfBounds
  else if chunk.length = 0 ∧ p.emptyXfer = .skip then flowReturn ()
  else
    flowThen flowEnableWrite fun _ =>
    flowThen (flowMemWrite address chunk) fun _ =>
    flowThen flowBusyWait fun _ =>
    if p.verifyEn then flowVerifyData address chunk else flowReturn ()

/-- The chunk loop of `write` (R150 step 4), `OFF` bytes done. -/
def flowChunks (p : Params) (data : List Byte) : Nat → Nat → Nat → Flow Unit
  | 0, _, _ => flowReturn ()
  | rounds + 1, cur, off =>
    if off < data.length then
      flowThen (flowWritePage p cur ((data.drop off).take (min pageSize (data.length - off)))) fun _ =>
      flowChunks p data rounds (cur + min pageSize (data.length - off)) (off + min pageSize (data.length - off))
    else flowReturn ()

/-- `write(address, data)` (R150). -/
def flowWrite (p : Params) (address : Nat) (data : List Byte) : Flow Unit :=
  if capacity < address + data.length then flowRaise .outOfBounds
  else
    flowThen flowBusyWait fun _ =>
    let first := min (pageSize - address % pageSize) data.length
    flowThen (if first = 0 ∧ p.emptyXfer = .skip then flowReturn () else flowWritePage p address (data.take first)) fun _ =>
    flowChunks p data data.length (address + first) first

/-- `erase_common(frame, region_addr, region_len, need_4b)` (R160). -/
def flowErase (p : Params) (frame : List Byte) (address len : Nat) (need4b : Bool) : Flow Unit :=
  flowThen flowBusyWait fun _ =>
  flowThen (if need4b = true ∧ p.modeOrder = .beforeHandshake then flowSend [0xB7] else flowReturn ()) fun _ =>
  flowThen flowEnableWrite fun _ =>
  flowThen (if need4b = true ∧ p.modeOrder = .afterHandshake then flowSend [0xB7] else flowReturn ()) fun _ =>
  flowThen (flowSend frame) fun _ =>
  flowThen flowBusyWait fun _ =>
  if p.verifyEn then flowVerifyErased address len else flowReturn ()

/-- An indexed erase (R161 to R163). -/
def flowEraseUnit (p : Params) (op : Byte) (index count size : Nat) (need4b : Bool) : Flow Unit :=
  if count ≤ index then flowRaise .outOfBounds
  else flowErase p (op :: be32 (index * size)) (index * size) size need4b

/-- `erase_sector(index)` (R161). -/
def flowEraseSector (p : Params) (index : Nat) : Flow Unit := flowEraseUnit p 0x21 index nSectors sectorSize false

/-- The sector loop of `erase_range` (R165). -/
def flowSectors (p : Params) (stop : Nat) : Nat → Nat → Flow Unit
  | 0, _ => flowReturn ()
  | rounds + 1, idx =>
    if idx < stop then flowThen (flowEraseSector p idx) fun _ => flowSectors p stop rounds (idx + 1)
    else flowReturn ()

/-- `erase_range(start, end)` (R165). -/
def flowEraseRange (p : Params) (start stop : Nat) : Flow Unit :=
  if start % sectorSize ≠ 0 ∨ stop % sectorSize ≠ 0 then flowRaise .notAligned
  else if stop < start then flowRaise .outOfBounds
  else flowSectors p (stop / sectorSize) (stop / sectorSize) (start / sectorSize)

/-- `read(address, buffer)` (R145). -/
def flowRead (p : Params) (address n : Nat) : Flow (List Byte) :=
  if capacity < address + n then flowRaise .outOfBounds
  else if n = 0 ∧ p.emptyXfer = .skip then flowReturn []
  else flowMemRead address n

/-- `reset()` (R185). -/
def flowReset : Flow Unit := flowThen (flowSend [0x99]) fun _ => flowSend [0x66]

/-- A procedure that returns nothing to the host. -/
def flowNothing (f : Flow Unit) : Flow Value := flowThen f fun _ => flowReturn .nothing

/-- The rule R95 names for a request; a frame is not a request and has none. -/
def flowRequest (p : Params) : Instr → Flow Value
  | .readStatus => flowThen flowReadStatus fun sr => flowReturn (.status sr)
  | .busy => flowThen flowReadStatus fun sr => flowReturn (.flag (statusBusy sr))
  | .writeEnabled => flowThen flowReadStatus fun sr => flowReturn (.flag (statusWel sr))
  | .enableWrite => flowNothing flowEnableWrite
  | .enter4ByteAddressMode => flowNothing (flowSend [0xB7])
  | .exit4ByteAddressMode => flowNothing (flowSend [0xE9])
  | .read address len => flowThen (flowRead p address.toNat len.toNat) fun bs => flowReturn (.bytes bs)
  | .write address data => flowNothing (flowWrite p address.toNat data)
  | .writePage address chunk => flowNothing (flowWritePage p address.toNat chunk)
  | .eraseSector index => flowNothing (flowEraseSector p index.toNat)
  | .eraseBlock32k index => flowNothing (flowEraseUnit p 0x52 index.toNat nBlocks32k block32kSize true)
  | .eraseBlock64k index => flowNothing (flowEraseUnit p 0xDC index.toNat nBlocks64k block64kSize false)
  | .eraseChip => flowNothing (flowErase p [0xC7] 0 capacity false)
  | .eraseRange start stop => flowNothing (flowEraseRange p start.toNat stop.toNat)
  | .reset => flowNothing flowReset
  | .readStatus1 | .writeEnable | .pageProgram4b _ _ | .readData4b _ _ | .sectorErase4k4b _
  | .blockErase32k _ | .blockErase64k4b _ | .chipErase | .enableReset | .resetDevice
  | .enter4ByteMode | .exit4ByteMode => fun _ => none

/-- The response to an outcome (R200, R206). -/
def outcomeResult : Except Result Value → Result
  | .ok v => .ok v
  | .error r => r

end Sys2Proof.Machine
end

