-- ==== Sys2Proof/Safety.lean ====
section
/-! DEFINITION. What a good state is, in the terms claims use: the control state is one the rules can be in, the operands and
cursors are what the tests and loops leave, the flash is in its canonical form; what a legal trace is; and the run of many
steps. -/

namespace Sys2Proof.Safety

open Sys2Proof.Machine

/-- The phases in which an operation runs (R27, R28). -/
def inOperation : Phase → Bool
  | .init | .idle => false
  | _ => true

/-- The requests that send a mutating command (R12). -/
def mutates : ReqOp → Bool
  | .write | .writePage | .eraseSector | .eraseBlock32k | .eraseBlock64k | .eraseChip | .eraseRange => true
  | _ => false

/-- The "used by" column of R27: which requests have which phase. -/
def usesPhase (op : ReqOp) : Phase → Bool
  | .init | .idle | .respond => true
  | .check => op = .read || (mutates op && op ≠ .eraseChip)
  | .status => op = .readStatus || op = .busy || op = .writeEnabled
  | .pollPre => mutates op && op ≠ .writePage
  | .mode => op = .enter4ByteAddressMode || op = .exit4ByteAddressMode || op = .eraseBlock32k
  | .wren | .wrenChk => op = .enableWrite || mutates op
  | .cmd => op = .read || mutates op
  | .pollPost | .verify => mutates op
  | .rst1 | .rst2 => op = .reset

/-- The phases between a mutating command's precondition and its end, where its own cursors are in use. -/
def commandPhase : Phase → Bool
  | .mode | .wren | .wrenChk | .cmd | .pollPost | .verify => true
  | _ => false

/-- The phases that come after `CHECK`, before the response. -/
def pastCheck : Phase → Bool
  | .pollPre => true
  | p => commandPhase p

/-- What the precondition of the running request has established (R121, R124, R145, R150, R152, R161 to R165). -/
def operandsAccepted (s : State) : Bool :=
  match s.reqOp with
  | .read => !exceedsCapacity s.argA.toNat s.argB.toNat
  | .write => !exceedsCapacity s.argA.toNat s.dataIn.length
  | .writePage => !spansPage s.argA.toNat s.dataIn.length
  | .eraseSector => decide (s.argA.toNat < nSectors)
  | .eraseBlock32k => decide (s.argA.toNat < nBlocks32k)
  | .eraseBlock64k => decide (s.argA.toNat < nBlocks64k)
  | .eraseRange =>
    !misaligned s.argA.toNat && !misaligned s.argB.toNat && decide (s.argA.toNat ≤ s.argB.toNat)
      && decide (s.idx < s.endSector) && decide (s.idx < nSectors)
  | _ => true

/-- The cursors of a running chunk of `write` (R150): `CUR` is `OFF` bytes past the start, and a later chunk starts a page
with bytes left to send. -/
def chunkCursors (s : State) : Bool :=
  decide (s.cur.toNat = s.argA.toNat + s.off)
    && (decide (s.off = 0) || (decide (s.cur.toNat % pageSize = 0) && decide (s.off < s.dataIn.length)))

/-- The cursors of a running verification (R176, R177). -/
def windowCursors (s : State) : Bool :=
  s.params.verifyEn && decide (s.voff < s.regionLen) && decide (s.vcur.toNat = s.regionAddr.toNat + s.voff)

/-- The chip's flash is in canonical form, and the program it has in flight is inside the device. -/
def chipFits (c : Chip) : Bool :=
  c.mem.wf && match c.pending with
    | some (.program a _) => decide (a < capacity)
    | _ => true

/-- A state the machine can be in: an invariant of every step. -/
structure Inv (s : State) : Prop where
  /-- `ACTIVE` is set exactly while an operation runs (R28) -/
  activeFits : s.active = inOperation s.phase
  /-- after `INIT` both pins are high for good (R33, R231) -/
  inService : s.phase ≠ .init → s.holdPin = .high ∧ s.wpPin = .high ∧ s.initFailed = false
  /-- `PHASE` is one that the running request uses (R27) -/
  phaseFits : usesPhase s.reqOp s.phase = true
  /-- `ARG_B` is the length of `DATA_IN` where it must be (R23) -/
  lengthFits : inOperation s.phase = true → s.reqOp = .write ∨ s.reqOp = .writePage → s.argB.toNat = s.dataIn.length
  /-- past `CHECK` the precondition holds -/
  accepted : pastCheck s.phase = true → operandsAccepted s = true
  /-- the cursors of `write` -/
  chunk : commandPhase s.phase = true → s.reqOp = .write → chunkCursors s = true
  /-- the cursors of verification -/
  window : s.phase = .verify → windowCursors s = true
  /-- the flash of the reference oracle -/
  chip : chipFits s.chip = true

/-! ### Traces -/

/-- An event is a frame of the closed set (R86, R98): it decodes, and it received what its format receives. -/
def legalEvent : BusEvent → Bool
  | .frame tx rx => (decodeFrame tx rx.length).toBool
  | .failed tx n _ => (decodeFrame tx n).toBool

/-- A trace of frames of the closed set (R98). -/
def legalTrace (tr : List BusEvent) : Bool := tr.all legalEvent

/-- The bytes an event sent, or tried to send. -/
def eventTx : BusEvent → List Byte
  | .frame tx _ => tx
  | .failed tx _ _ => tx

/-- The five opcodes of the mutating commands (R12, R86). -/
def mutatingOpcode (op : Byte) : Bool := op = 0x12 || op = 0x21 || op = 0x52 || op = 0xDC || op = 0xC7

/-- An event of a mutating command. -/
def mutatingEvent (e : BusEvent) : Bool :=
  match eventTx e with
  | [] => false
  | op :: _ => mutatingOpcode op

/-- The two latest events, newest first, are a handshake that passed: `> 06`, then `> 05` answered with WEL set (R133). -/
def handshakePassed : List BusEvent → Bool
  | confirm :: enable :: _ =>
    match confirm with
    | .frame tx rx => decide (tx = [0x05]) && decide (enable = .frame [0x06] []) && statusWel (rx.headD 0)
    | .failed _ _ _ => false
  | _ => false

/-- A trace, newest first, at whose head the command frame of a request may be sent: the handshake directly before (R236), or,
for a 32 KiB erase with `P_4B_ORDER = after_handshake`, the handshake and then `> B7` (R162). -/
def readyForCommand (order : ModeOrder) (block32k : Bool) (newestFirst : List BusEvent) : Bool :=
  if order = .afterHandshake ∧ block32k = true then
    decide (newestFirst.head? = some (.frame [0xB7] [])) && handshakePassed newestFirst.tail
  else handshakePassed newestFirst

/-- Every mutating event of a trace, newest first, stands directly behind its own passed handshake (R236). -/
def handshaken (order : ModeOrder) : List BusEvent → Bool
  | [] => true
  | e :: rest =>
    (!mutatingEvent e || readyForCommand order ((eventTx e).head? = some 0x52) rest) && handshaken order rest

/-- The handshake discipline as an invariant: of the trace, and of the phases between a handshake and its command. -/
structure HandshakeInv (s : State) : Prop where
  trace : handshaken s.params.modeOrder s.trace.reverse = true
  enabled : s.phase = .wrenChk → s.trace.reverse.head? = some (.frame [0x06] [])
  mode : s.phase = .mode → s.reqOp = .eraseBlock32k → s.params.modeOrder = .afterHandshake →
    handshakePassed s.trace.reverse = true
  command : s.phase = .cmd → mutates s.reqOp = true →
    readyForCommand s.params.modeOrder (s.reqOp = .eraseBlock32k) s.trace.reverse = true

/-! ### Requests, transfers and responses -/

/-- The fifteen requests; the other twelve instructions are frames. -/
def isRequest : Instr → Bool
  | .readStatus | .busy | .writeEnabled | .enableWrite | .enter4ByteAddressMode
  | .exit4ByteAddressMode | .read _ _ | .write _ _ | .writePage _ _ | .eraseSector _
  | .eraseBlock32k _ | .eraseBlock64k _ | .eraseChip | .eraseRange _ _ | .reset => true
  | .readStatus1 | .writeEnable | .pageProgram4b _ _ | .readData4b _ _ | .sectorErase4k4b _
  | .blockErase32k _ | .blockErase64k4b _ | .chipErase | .enableReset | .resetDevice
  | .enter4ByteMode | .exit4ByteMode => false

/-- The block takes a request (R113, R205). -/
def idle (s : State) : Prop := s.phase = .idle ∧ s.active = false

/-- `u` is `s` after one `Xfer(tx, len rx)` that the environment answers with `rx`, its event on the trace (R111). -/
def Hears (tx rx : List Byte) (s u : State) : Prop :=
  (s.busAnswer tx rx.length).1 = .ok rx ∧ u = (s.busAnswer tx rx.length).2.record (.frame tx rx)

/-- `u` is `s` after one `Xfer(tx, n)` that fails with `e`, its event on the trace (R111). -/
def Fails (tx : List Byte) (n : Nat) (e : BusErr) (s u : State) : Prop :=
  (s.busAnswer tx n).1 = .fail e ∧ u = (s.busAnswer tx n).2.record (.failed tx n e)

/-- `u` is `s` after one transfer, whatever became of it. -/
def Transfers (tx : List Byte) (n : Nat) (s u : State) : Prop :=
  (∃ rx, rx.length = n ∧ Hears tx rx s u) ∨ ∃ e, Fails tx n e s u

/-- The environment is one that answers with a list, and the operation is not abandoned (D17, R119). -/
def Scripted (s : State) : Prop := s.busEnd = .oracle ∧ s.params.abandon = false

/-- Where the running request goes when a mutating command and its verification are over (R150, R152, R160, R165), from `v`:
`write` to its next chunk, `erase_range` to its next sector, any other request to its response. -/
def goesOn (s v : State) : State :=
  match s.reqOp with
  | .write =>
    let moved := { v with cur := s.cur + BitVec.ofNat 32 s.chunkLen, off := s.off + s.chunkLen }
    if s.off + s.chunkLen < s.dataIn.length then { moved with phase := .wren }
    else { moved with result := .ok .nothing, phase := .respond }
  | .eraseRange =>
    let moved := { v with idx := s.idx + 1 }
    if s.idx + 1 < s.argB.toNat / sectorSize then
      if nSectors ≤ s.idx + 1 then { moved with result := .outOfBounds, phase := .respond }
      else { moved with phase := .pollPre }
    else { moved with result := .ok .nothing, phase := .respond }
  | _ => { v with result := .ok .nothing, phase := .respond }

/-- What the running command must read back in its window (R176, R177). -/
def mustRead (s : State) : List Byte :=
  if s.reqOp = .write then (s.chunk.drop s.voff).take s.windowLen
  else if s.reqOp = .writePage then (s.dataIn.drop s.voff).take s.windowLen
  else List.replicate s.windowLen 0xFF

/-- The page programs that got through in a list of events: their addresses and data (R153). -/
def programs : List BusEvent → List (Nat × List Byte)
  | [] => []
  | .frame (0x12 :: b3 :: b2 :: b1 :: b0 :: d) _ :: rest => ((fromBe32 b3 b2 b1 b0).toNat, d) :: programs rest
  | _ :: rest => programs rest

/-- Page programs that lay `data` down from address `a` on, each where the one before ended and inside one page, each but the
last up to its page's end (R151). -/
def tiles (a : Nat) : List (Nat × List Byte) → List Byte → Prop
  | [], data => data = []
  | (x, d) :: rest, data =>
    x = a ∧ a % 256 + d.length ≤ 256 ∧ (rest = [] ∨ a % 256 + d.length = 256) ∧ data.take d.length = d ∧
      tiles (a + d.length) rest (data.drop d.length)

/-- THE HOST'S DUTY when it requests `reset`: no operation is outstanding in the chip, neither in flight nor waiting to be applied
(R186, R210). The block does not check it; a claim about the flash and the reset pair takes it as a premise (U4). It speaks of
the one chip the model holds, so of any other environment it asks nothing. Log entry 26. -/
def ResetDuty (s : State) : Prop := s.busEnd = .reference → s.chip.busyCnt = 0 ∧ s.chip.pending = none

/-- The bytes an effect of the chip can change (R72 to R74). -/
def touches (e : Effect) (a : Nat) : Prop :=
  match e with
  | .program base d => ∃ j, j < d.length ∧ a = programAddr base j
  | .erase base len => base ≤ a ∧ a < base + len

/-! ### Runs -/

/-- `s` reaches `t` in some number of steps of the machine. -/
def Reaches (s t : State) : Prop := ∃ k, Host.Core.run Sys2Proof.core k s = .next t

/-- The request `i`, presented to `s`, is accepted and runs to its response: `t` is idle again with the response `r` given
(R113, R206), the bus is as `b` says, and nothing that outlives an operation has changed (R20, R33, R43). -/
structure Serves (i : Instr) (s t : State) (b : BusLine) (r : Result) : Prop where
  runs : ∃ accepted, exec i s = .next accepted ∧ Reaches accepted t
  trace : t.trace = b.trace
  answers : t.answers = b.answers
  responses : t.responses = s.responses ++ [r]
  result : t.result = r
  idle : idle t
  params : t.params = s.params
  pins : t.holdPin = s.holdPin ∧ t.wpPin = s.wpPin
  requests : t.requests = s.requests
  chip : t.chip = s.chip

/-- The request `i`, presented to `s` with the answers `before ++ rest` to come, sends `events` and responds `r`. -/
def Answers (i : Instr) (s : State) (rest : List Answer) (events : List BusEvent) (r : Result) : Prop :=
  ∃ t, Serves i s t ⟨s.trace ++ events, rest⟩ r

/-- A status read answered with `b`, as an event (R130). -/
def sr (b : Byte) : BusEvent := .frame [0x05] [b]

/-- A frame that receives nothing, as an event. -/
def sent (tx : List Byte) : BusEvent := .frame tx []

end Sys2Proof.Safety
end

