-- ==== Sys2Proof/Certificates/Slice0/Obligations.lean ====
section
/-! DEFINITION. The statements for the provers. Each docstring cites the rule it formalises. Where a statement speaks of a
transfer it takes the environment's answer as it is (`Hears`, `Fails`), so it holds of every environment; where it speaks of a
whole request it takes the answers as a list (`Scripted`). -/

section

open Sys2Proof
open Sys2Proof.Machine
open Sys2Proof.Safety

/-! ## Encoding -/

/-- R80, R83, R86, R95: every well-formed instruction is read back from its encoding, with every operand. -/
def Obligations.DecodeEncodeAgree : Prop :=
  ∀ i : Instr, i.wf = true → decode (encode i) = .ok i

/-- What the decoder accepts is well formed: a page program stays in its page (R98 says so of the frames that are sent), a data
length fits `ARG_B` (R23 says that it is `ARG_B`). That the decoder REJECTS a page program that leaves its page is the model's
choice, log entry 18, and that it rejects a request word whose `ARG_B` is not the length of its data is the model's, log entry 7. -/
def Obligations.DecodedIsWellFormed : Prop :=
  ∀ (c : Code) (i : Instr), decode c = .ok i → i.wf = true

/-- R82, R86: a frame that decodes is exactly the encoding of the frame it decodes to: no byte of it is ignored. -/
def Obligations.FrameDecodingIsExact : Prop :=
  ∀ (tx : List Byte) (n : Nat) (i : Instr), decodeFrame tx n = .ok i → encode i = .frame tx n ∧ isRequest i = false

/-- R83: the address field is the byte address itself, most significant byte first, behind the opcode, in each of the five
addressed frames. -/
def Obligations.AddressFieldIsBigEndian : Prop :=
  (∀ a : Nat, a < 2 ^ 32 →
    (be32 a).map BitVec.toNat = [a / 2 ^ 24 % 256, a / 2 ^ 16 % 256, a / 2 ^ 8 % 256, a % 256]) ∧
  (∀ (op : Byte) (a : Addr), frameBytes op a = [op] ++ be32 a.toNat) ∧
  frameBytes 0x13 0x012345 = [0x13, 0x00, 0x01, 0x23, 0x45] ∧
  ∀ (a : Addr) (d : List Byte) (n : Nat),
    encode (.readData4b a n) = .frame (frameBytes 0x13 a) n ∧ encode (.pageProgram4b a d) = .frame (frameBytes 0x12 a ++ d) 0 ∧
    encode (.sectorErase4k4b a) = .frame (frameBytes 0x21 a) 0 ∧ encode (.blockErase32k a) = .frame (frameBytes 0x52 a) 0 ∧
    encode (.blockErase64k4b a) = .frame (frameBytes 0xDC a) 0

/-- R86, R95: some words, written out from the tables, and the instructions they stand for. -/
def Obligations.SampleWordsDecode : Prop :=
  decode (.frame [0x05] 1) = .ok .readStatus1 ∧
  decode (.frame [0x12, 0x00, 0x00, 0x10, 0x00, 0x11, 0x22] 0) = .ok (.pageProgram4b 0x1000 [0x11, 0x22]) ∧
  decode (.frame [0x13, 0x00, 0x01, 0x23, 0x45] 3) = .ok (.readData4b 0x12345 3) ∧
  decode (.frame [0xDC, 0x01, 0xFF, 0x00, 0x00] 0) = .ok (.blockErase64k4b 0x1FF0000) ∧
  decode (.frame [0xE9] 0) = .ok .exit4ByteMode ∧
  decode (.request { op := 6, argA := 0x12345, argB := 3, dataIn := [] }) = .ok (.read 0x12345 3) ∧
  decode (.request { op := 7, argA := 250, argB := 2, dataIn := [0xAA, 0xBB] }) = .ok (.write 250 [0xAA, 0xBB]) ∧
  decode (.request { op := 13, argA := 0x1000, argB := 0x3000, dataIn := [] }) = .ok (.eraseRange 0x1000 0x3000)

/-- R97: ordinal 15 is refused at the port, whatever stands beside it; no other ordinal is reserved. -/
def Obligations.ReservedOrdinalRefused : Prop :=
  (∀ (s : State) (w : ReqWord) (rest : List ReqWord), s.phase = .idle → s.requests = w :: rest → w.op = 15 →
    step s = .refused (.badRequest .reservedOrdinal)) ∧
  ∀ w : ReqWord, w.op ≠ 15 → decode (.request w) ≠ .error .reservedOrdinal

/-! ## A step runs the decoded instruction -/

/-- R113: at the port of an idle block the step is the decoded request, its word taken off the port and its operands latched; with no request presented
the idle block waits. That the requests to come stand in a queue, and that waiting is a step, are the model's, log entry 6. -/
def Obligations.RequestAtPortRuns : Prop :=
  (∀ (s : State) (w : ReqWord) (rest : List ReqWord) (i : Instr), s.phase = .idle → s.requests = w :: rest →
    decode (.request w) = .ok i → step s = exec i ({ s with requests := rest }.latch w)) ∧
  ∀ s : State, s.phase = .idle → s.requests = [] → step s = .next s

/-- R27, R110: inside an operation that is not abandoned the step is the frame `PHASE` selects, which is the one its encoding
decodes to; at `CHECK` and `RESPOND` it is the running request's own step. -/
def Obligations.RunningOperationRuns : Prop :=
  (∀ (s : State) (i : Instr), s.params.abandon = false → s.nextFrame = some i → step s = exec i s) ∧
  ∀ s : State, s.params.abandon = false → (s.phase = .check ∨ s.phase = .respond) → step s = exec s.running s

/-- R119: with `P_ABANDON` the environment may stop an active operation between two steps, with no response and no frame; where it
chooses to go on, the step is the operation's own, the choice used up; without the parameter no choice is drawn. That the
choices already fixed stand in a list, and that the others are drawn with a counter, is the model's, log entry 15. -/
def Obligations.AbandonMove : Prop :=
  (∀ (s : State) (rest : List Bool), inOperation s.phase = true → s.params.abandon = true → s.abandons = true :: rest →
    step s = .next { s with abandons := rest, active := false, phase := .idle }) ∧
  (∀ (s : State) (rest : List Bool), s.params.abandon = true → s.abandons = false :: rest →
    (∀ i, s.nextFrame = some i → step s = exec i { s with abandons := rest }) ∧
    (s.phase = .check ∨ s.phase = .respond → step s = exec s.running { s with abandons := rest })) ∧
  (∀ s : State, s.params.abandon = true → s.abandons = [] →
    (∀ i, s.nextFrame = some i → step s =
      if Config.abandons s.draws = true then .next { s with draws := s.draws + 1, active := false, phase := .idle }
      else exec i { s with draws := s.draws + 1 }) ∧
    (s.phase = .check ∨ s.phase = .respond → step s =
      if Config.abandons s.draws = true then .next { s with draws := s.draws + 1, active := false, phase := .idle }
      else exec s.running { s with draws := s.draws + 1 })) ∧
  ∀ s t : State, Inv s → s.params.abandon = false → s.active = true → s.phase ≠ .respond → step s = .next t →
    t.active = true ∧ t.abandons = s.abandons ∧ t.draws = s.draws

/-- R113 (the spec's decision D14) and D2: what the port presents is latched: an idle block takes the word, and `REQ_OP`, `ARG_A`, `ARG_B` and `DATA_IN` are the
request's, the operands it does not use among them; the running request is the one the word decodes to, and nothing else
changes but `ACTIVE` and `PHASE`. -/
def Obligations.RequestWordLatched : Prop :=
  ∀ (s : State) (w : ReqWord) (rest : List ReqWord) (i : Instr), idle s → s.requests = w :: rest →
    decode (.request w) = .ok i →
    ∃ t, step s = .next t ∧ t.running = i ∧
      t = { s with active := true, reqOp := t.reqOp, argA := w.argA, argB := w.argB, dataIn := w.dataIn,
                   requests := rest, phase := t.phase }

/-! ## Reset and INIT -/

/-- R42, R230: the values after reset that the spec gives. The other registers hold the values of log entry 3. -/
def Obligations.ResetState : Prop :=
  State.reset.phase = .init ∧ State.reset.active = false ∧ State.reset.holdPin = .undriven ∧
  State.reset.wpPin = .undriven ∧ State.reset.trace = [] ∧ State.reset.params = Params.default ∧
  Params.default = { verifyEn := false, emptyXfer := .literal, modeOrder := .beforeHandshake,
                     pageCapCheck := false, abandon := false }

/-- R231: `INIT` raises both pins and sends no frame; then the block is idle. -/
def Obligations.InitRaisesPins : Prop :=
  ∀ s : State, s.phase = .init → s.initFailed = false → s.pinAnswer = .ok →
    step s = .next { s with pinAnswers := s.pinAnswers.tail, holdPin := .high, wpPin := .high, phase := .idle }

/-- R231, U16: a pin that cannot be raised: the outcome is `PinControlError`, and from then on the block does nothing and
takes no request. That a failed `INIT` is remembered in `initFailed` and the later steps stutter is the model's, log entry 14. -/
def Obligations.FailedInitStaysOut : Prop :=
  (∀ (s : State) (p : PinErr) (hold wp : PinLevel), s.phase = .init → s.initFailed = false →
    s.pinAnswer = .fail p hold wp →
    step s = .next { s with pinAnswers := s.pinAnswers.tail, holdPin := hold, wpPin := wp,
                            result := .pinControlError p, initFailed := true }) ∧
  (∀ (s : State) (k : Nat), s.phase = .init → s.initFailed = true → Host.Core.run core k s = .next s) ∧
  ∀ (s : State) (i : Instr), s.phase = .init → isRequest i = true → exec i s = .refused .portNotReady

/-! ## Invariants -/

/-- R42: the invariants hold at reset. -/
def Obligations.InvariantsAtReset : Prop :=
  Inv State.reset ∧ HandshakeInv State.reset ∧ legalTrace State.reset.trace = true

/-- R27, R28, R33, R121, R122, R151, R176: every step keeps the control state, the operands and the cursors inside what the
rules can reach, and the flash in its canonical form. -/
def Obligations.InvariantKept : Prop :=
  ∀ s t : State, Inv s → step s = .next t → Inv t

/-- R110, R203: a state of the invariant never stops, but for a request word the port refuses. -/
def Obligations.StepNeverStuck : Prop :=
  ∀ s : State, Inv s → (∃ t, step s = .next t) ∨
    s.phase = .idle ∧ ∃ w rest e, s.requests = w :: rest ∧ decode (.request w) = .error e ∧ step s = .refused (.badRequest e)

/-- R133, R236: every mutating frame stands directly behind its own passed handshake (and `> B7` where
`P_4B_ORDER = after_handshake` puts it): an invariant of the trace and of the phases in between. -/
def Obligations.HandshakeKept : Prop :=
  ∀ s t : State, HandshakeInv s → step s = .next t → HandshakeInv t

/-- R86, R98: every event of the trace is a frame of the closed set, well formed. -/
def Obligations.LegalFramesOnly : Prop :=
  ∀ s t : State, Inv s → legalTrace s.trace = true → step s = .next t → legalTrace t.trace = true

/-- R29, R111: the trace only grows, by at most one event a step. -/
def Obligations.TraceGrows : Prop :=
  ∀ s t : State, step s = .next t → t.trace = s.trace ∨ ∃ e, t.trace = s.trace ++ [e]

/-- R33, R34, R43: no step writes the parameters, and after `INIT` none changes a pin. -/
def Obligations.ParametersAndPinsFixed : Prop :=
  ∀ s t : State, step s = .next t →
    t.params = s.params ∧ (s.phase ≠ .init → t.holdPin = s.holdPin ∧ t.wpPin = s.wpPin)

/-- R28, R206: a response is given at `RESPOND` and nowhere else, and clears `ACTIVE`; until then an operation stays active. -/
def Obligations.OneResponsePerRequest : Prop :=
  ∀ s t : State, Inv s → s.params.abandon = false → step s = .next t →
    (s.phase = .respond → t.responses = s.responses ++ [s.result] ∧ t.active = false ∧ t.phase = .idle ∧
      t.trace = s.trace) ∧
    (s.phase ≠ .respond → t.responses = s.responses ∧ (s.active = true → t.active = true))

/-- R205: a request is accepted when `ACTIVE` is false, and while it is true the port is not ready. -/
def Obligations.PortClosedWhileActive : Prop :=
  (∀ (i : Instr) (s : State), isRequest i = true → idle s → ∃ t, exec i s = .next t ∧ t.active = true) ∧
  (∀ (i : Instr) (s : State), isRequest i = true → s.active = true → s.phase ≠ .check → s.phase ≠ .respond →
    exec i s = .refused .portNotReady) ∧
  (∀ (i : Instr) (s : State), isRequest i = true → s.active = true → s.running ≠ i → exec i s = .refused .portNotReady) ∧
  ∀ s t : State, Inv s → s.active = true → step s = .next t → t.requests = s.requests

/-! ## Transfers -/

/-- R111: every transfer is answered with exactly `n` bytes or fails, and leaves everything but the environment as it was,
with one event more. -/
def Obligations.EveryTransferIsAnswered : Prop :=
  (∀ (tx : List Byte) (n : Nat) (s : State), ∃ u, Transfers tx n s u) ∧
  (∀ (tx rx : List Byte) (s u : State), Hears tx rx s u →
    ∃ answers chip, u = { s with answers := answers, chip := chip, trace := s.trace ++ [.frame tx rx] }) ∧
  ∀ (tx : List Byte) (n : Nat) (e : BusErr) (s u : State), Fails tx n e s u →
    ∃ answers chip, u = { s with answers := answers, chip := chip, trace := s.trace ++ [.failed tx n e] }

/-- R27, R110, R111: a frame that `PHASE` selects is always sent, and is the one event of its step; no other frame is sent
(its refusal is the model's, log entry 12). -/
def Obligations.SelectedFrameIsSent : Prop :=
  (∀ (s : State) (i : Instr) (tx : List Byte) (n : Nat), s.nextFrame = some i → encode i = .frame tx n →
    ∃ t u, exec i s = .next t ∧ Transfers tx n s u ∧ t.trace = u.trace) ∧
  ∀ (s : State) (i : Instr), isRequest i = false → s.nextFrame ≠ some i → exec i s = .refused .notSelected

/-- R191, R200: at every frame of every operation a failed transfer raises `BusTransportError` with its payload unchanged, and
nothing else is done; the six requests that can end with no other error end with success once their frames are answered. -/
def Obligations.BusFailureEnds : Prop :=
  (∀ (s u : State) (i : Instr) (tx : List Byte) (n : Nat) (e : BusErr), s.nextFrame = some i → encode i = .frame tx n →
    Fails tx n e s u → exec i s = .next { u with result := .busTransportError e, phase := .respond }) ∧
  ∀ (s u : State) (i : Instr) (tx rx : List Byte), Inv s → s.nextFrame = some i → encode i = .frame tx rx.length →
    Hears tx rx s u →
    s.reqOp = .readStatus ∨ s.reqOp = .busy ∨ s.reqOp = .writeEnabled ∨ s.reqOp = .enter4ByteAddressMode ∨
      s.reqOp = .exit4ByteAddressMode ∨ s.reqOp = .reset →
    ∃ t, exec i s = .next t ∧ (t.phase = .respond → ∃ v, t.result = .ok v)

/-- R190 to R196: what each error kind comes from. A step that leads to the response carries `BusTransportError` exactly when its
transfer failed, `NotAligned` exactly when it is the check of a misaligned `erase_range`, `WriteEnableFail` exactly when the
confirming status read has WEL clear, `ReadbackFail` exactly when a verification window differs; `OutOfBounds` comes from
a check, or from a later sector of `erase_range`; `PinControlError` never. Each of these causes does lead to the response, and
a page-spanning `write_page` to `OutOfBounds`. The frame of a verification window is the spec's decision D10; that no step raises
`PinControlError` to a response is R192, and that `OutOfBounds` can come after earlier sectors is R166, both derived in the spec;
that it comes out of `POLL_POST` or `VERIFY`, the next sector's check being part of that step, is the model's, log entry 10. -/
def Obligations.ErrorsHaveTheirCauses : Prop :=
  ∀ s t : State, Inv s → step s = .next t →
    (t.phase = .respond →
      (∀ e, t.result = .busTransportError e ↔ ∃ tx n, t.trace = s.trace ++ [.failed tx n e]) ∧
      (∀ p, t.result ≠ .pinControlError p) ∧
      (t.result = .notAligned ↔ s.phase = .check ∧ s.reqOp = .eraseRange ∧
        (s.argA.toNat % 4096 ≠ 0 ∨ s.argB.toNat % 4096 ≠ 0)) ∧
      (t.result = .outOfBounds →
        s.phase = .check ∧ (s.reqOp = .read ∨ s.reqOp = .write ∨ s.reqOp = .writePage ∨ s.reqOp = .eraseSector ∨
          s.reqOp = .eraseBlock32k ∨ s.reqOp = .eraseBlock64k ∨ s.reqOp = .eraseRange) ∨
        s.reqOp = .eraseRange ∧ (s.phase = .pollPost ∨ s.phase = .verify)) ∧
      (t.result = .writeEnableFail ↔
        s.phase = .wrenChk ∧ ∃ b, t.trace = s.trace ++ [sr b] ∧ b.getLsbD 1 = false) ∧
      (t.result = .readbackFail ↔
        s.phase = .verify ∧ ∃ rx, t.trace = s.trace ++ [.frame (0x13 :: be32 s.vcur.toNat) rx] ∧ rx ≠ mustRead s)) ∧
    (t.active = true → s.phase = .check → s.reqOp = .eraseRange →
      (s.argA.toNat % 4096 ≠ 0 ∨ s.argB.toNat % 4096 ≠ 0) → t.phase = .respond) ∧
    (t.active = true → s.phase = .check → s.reqOp = .writePage → s.argA.toNat % 256 + s.dataIn.length > 256 →
      t.phase = .respond ∧ t.result = .outOfBounds) ∧
    (∀ b, s.phase = .wrenChk → t.trace = s.trace ++ [sr b] → b.getLsbD 1 = false → t.phase = .respond) ∧
    (∀ tx n e, t.trace = s.trace ++ [.failed tx n e] → t.phase = .respond) ∧
    ∀ rx, s.phase = .verify → t.trace = s.trace ++ [.frame (0x13 :: be32 s.vcur.toNat) rx] → rx ≠ mustRead s →
      t.phase = .respond

/-! ## Requests: acceptance, checks, response -/

/-- R95, R113: what a request's own acceptance latches, and the phase each rule begins at. That it leaves the operand registers
its request does not use as it finds them is the model's, log entry 9: at the port they are latched from the word
(`RequestWordLatched`). -/
def Obligations.RequestsAccepted : Prop :=
  ∀ (s : State) (a b : Addr) (d : List Byte), idle s →
    exec .readStatus s = .next { s with active := true, reqOp := .readStatus, phase := .status } ∧
    exec .busy s = .next { s with active := true, reqOp := .busy, phase := .status } ∧
    exec .writeEnabled s = .next { s with active := true, reqOp := .writeEnabled, phase := .status } ∧
    exec .enableWrite s = .next { s with active := true, reqOp := .enableWrite, phase := .wren } ∧
    exec .enter4ByteAddressMode s =
      .next { s with active := true, reqOp := .enter4ByteAddressMode, phase := .mode } ∧
    exec .exit4ByteAddressMode s =
      .next { s with active := true, reqOp := .exit4ByteAddressMode, phase := .mode } ∧
    exec (.read a b) s = .next { s with active := true, reqOp := .read, argA := a, argB := b, phase := .check } ∧
    exec (.write a d) s =
      .next { s with active := true, reqOp := .write, argA := a, argB := BitVec.ofNat 32 d.length, dataIn := d,
                     phase := .check } ∧
    exec (.writePage a d) s =
      .next { s with active := true, reqOp := .writePage, argA := a, argB := BitVec.ofNat 32 d.length, dataIn := d,
                     phase := .check } ∧
    exec (.eraseSector a) s = .next { s with active := true, reqOp := .eraseSector, argA := a, phase := .check } ∧
    exec (.eraseBlock32k a) s = .next { s with active := true, reqOp := .eraseBlock32k, argA := a, phase := .check } ∧
    exec (.eraseBlock64k a) s = .next { s with active := true, reqOp := .eraseBlock64k, argA := a, phase := .check } ∧
    exec .eraseChip s = .next { s with active := true, reqOp := .eraseChip, phase := .pollPre } ∧
    exec (.eraseRange a b) s =
      .next { s with active := true, reqOp := .eraseRange, argA := a, argB := b, phase := .check } ∧
    exec .reset s = .next { s with active := true, reqOp := .reset, phase := .rst1 }

/-- R113, R200, R203, R206: the response, the same after success and error. -/
def Obligations.ResponseGiven : Prop :=
  ∀ s : State, s.phase = .respond →
    exec s.running s = .next { s with responses := s.responses ++ [s.result], active := false, phase := .idle }

/-- R121: the bounds tests of `read` and `write` (equality is in bounds) and of the three indexed erases. That a `read` of
no byte ends at once under `P_EMPTY_XFER = skip` is the spec's decision D7, not R121's. -/
def Obligations.BoundsChecked : Prop :=
  (∀ s : State, s.phase = .check → s.reqOp = .read →
    exec (.read s.argA s.argB) s = .next (
      if s.argA.toNat + s.argB.toNat > 33554432 then { s with result := .outOfBounds, phase := .respond }
      else if s.argB.toNat = 0 ∧ s.params.emptyXfer = .skip then { s with result := .ok (.bytes []), phase := .respond }
      else { s with phase := .cmd })) ∧
  (∀ s : State, s.phase = .check → s.reqOp = .write →
    exec (.write s.argA s.dataIn) s = .next (
      if s.argA.toNat + s.dataIn.length > 33554432 then { s with result := .outOfBounds, phase := .respond }
      else { s with phase := .pollPre })) ∧
  (∀ s : State, s.phase = .check → s.reqOp = .eraseSector →
    exec (.eraseSector s.argA) s = .next (
      if s.argA.toNat ≥ 8192 then { s with result := .outOfBounds, phase := .respond } else { s with phase := .pollPre })) ∧
  (∀ s : State, s.phase = .check → s.reqOp = .eraseBlock32k →
    exec (.eraseBlock32k s.argA) s = .next (
      if s.argA.toNat ≥ 1024 then { s with result := .outOfBounds, phase := .respond } else { s with phase := .pollPre })) ∧
  ∀ s : State, s.phase = .check → s.reqOp = .eraseBlock64k →
    exec (.eraseBlock64k s.argA) s = .next (
      if s.argA.toNat ≥ 512 then { s with result := .outOfBounds, phase := .respond } else { s with phase := .pollPre })

/-- R122, R152: the page-span test of `write_page`, then the two parameters' tests. -/
def Obligations.WritePageChecked : Prop :=
  ∀ s : State, s.phase = .check → s.reqOp = .writePage →
    exec (.writePage s.argA s.dataIn) s = .next (
      if s.argA.toNat % 256 + s.dataIn.length > 256 then { s with result := .outOfBounds, phase := .respond }
      else if s.params.pageCapCheck = true ∧ s.argA.toNat + s.dataIn.length > 33554432 then
        { s with result := .outOfBounds, phase := .respond }
      else if s.dataIn.length = 0 ∧ s.params.emptyXfer = .skip then
        { s with result := .ok .nothing, phase := .respond }
      else { s with phase := .wren })

/-- R124, R165, R166: `erase_range` tests alignment, then order, then begins at its first sector, or is done. That the check of its
first `erase_sector` is part of this step is the model's, log entry 10. -/
def Obligations.EraseRangeChecked : Prop :=
  ∀ s : State, s.phase = .check → s.reqOp = .eraseRange →
    exec (.eraseRange s.argA s.argB) s = .next (
      if s.argA.toNat % 4096 ≠ 0 ∨ s.argB.toNat % 4096 ≠ 0 then { s with result := .notAligned, phase := .respond }
      else if s.argA.toNat > s.argB.toNat then { s with result := .outOfBounds, phase := .respond }
      else if s.argA.toNat = s.argB.toNat then
        { s with idx := s.argA.toNat / 4096, result := .ok .nothing, phase := .respond }
      else if s.argA.toNat / 4096 ≥ 8192 then
        { s with idx := s.argA.toNat / 4096, result := .outOfBounds, phase := .respond }
      else { s with idx := s.argA.toNat / 4096, phase := .pollPre })

/-! ## Frames: what follows each transfer -/

/-- R130 to R132: at `STATUS` the one status read is the answer of `busy` (bit 0), of `write_enabled` (bit 1) and of `read_status`
(the byte); a failed one is `BusTransportError`. -/
def Obligations.StatusReadAnswers : Prop :=
  (∀ (s u : State) (b : Byte), s.phase = .status → Hears [0x05] [b] s u →
    (s.reqOp = .busy → exec .readStatus1 s = .next { u with result := .ok (.flag (b.getLsbD 0)), phase := .respond }) ∧
    (s.reqOp = .writeEnabled →
      exec .readStatus1 s = .next { u with result := .ok (.flag (b.getLsbD 1)), phase := .respond }) ∧
    (s.reqOp = .readStatus → exec .readStatus1 s = .next { u with result := .ok (.status b), phase := .respond })) ∧
  ∀ (s u : State) (e : BusErr), s.phase = .status → Fails [0x05] 1 e s u →
    exec .readStatus1 s = .next { u with result := .busTransportError e, phase := .respond }

/-- R136, which the spec marks as derived from R133: the handshake as a state machine; its continuation `k` is the response of
`enable_write`, `> B7` of `erase_block_32k` in the order `after_handshake` (the spec's decision D8), else the command. -/
def Obligations.HandshakeSteps : Prop :=
  (∀ s u : State, s.phase = .wren → Hears [0x06] [] s u → exec .writeEnable s = .next { u with phase := .wrenChk }) ∧
  (∀ (s u : State) (e : BusErr), s.phase = .wren → Fails [0x06] 0 e s u →
    exec .writeEnable s = .next { u with result := .busTransportError e, phase := .respond }) ∧
  (∀ (s u : State) (b : Byte), s.phase = .wrenChk → Hears [0x05] [b] s u → b.getLsbD 1 = true →
    exec .readStatus1 s = .next (
      if s.reqOp = .enableWrite then { u with result := .ok .nothing, phase := .respond }
      else if s.reqOp = .eraseBlock32k ∧ s.params.modeOrder = .afterHandshake then { u with phase := .mode }
      else { u with phase := .cmd })) ∧
  (∀ (s u : State) (b : Byte), s.phase = .wrenChk → Hears [0x05] [b] s u → b.getLsbD 1 = false →
    exec .readStatus1 s = .next { u with result := .writeEnableFail, phase := .respond }) ∧
  ∀ (s u : State) (e : BusErr), s.phase = .wrenChk → Fails [0x05] 1 e s u →
    exec .readStatus1 s = .next { u with result := .busTransportError e, phase := .respond }

/-- R134, R135 (which the spec marks as derived from R134): while the byte just received has bit 0 set the poll stays where it
is, with no memory of it but the trace; a failed status read ends the wait. -/
def Obligations.PollLoops : Prop :=
  (∀ (s u : State) (b : Byte), s.phase = .pollPre ∨ s.phase = .pollPost → Hears [0x05] [b] s u → b.getLsbD 0 = true →
    exec .readStatus1 s = .next u) ∧
  ∀ (s u : State) (e : BusErr), s.phase = .pollPre ∨ s.phase = .pollPost → Fails [0x05] 1 e s u →
    exec .readStatus1 s = .next { u with result := .busTransportError e, phase := .respond }

/-- R150, R160, R162: the end of the leading busy-wait. The premise on `write` is what its own `CHECK` established. That `write` sets
`CUR` to its address and `OFF` to 0 here, where R150 first writes them after the first chunk, and that the check of its first
`write_page` is part of this step, is the model's, log entry 10. -/
def Obligations.PollPreEnds : Prop :=
  ∀ (s u : State) (b : Byte), s.phase = .pollPre → Hears [0x05] [b] s u → b.getLsbD 0 = false →
    (s.reqOp ≠ .write → exec .readStatus1 s = .next { u with
      phase := if s.reqOp = .eraseBlock32k ∧ s.params.modeOrder = .beforeHandshake then .mode else .wren }) ∧
    (s.reqOp = .write → s.argA.toNat + s.dataIn.length ≤ 33554432 →
      exec .readStatus1 s = .next (
        if s.dataIn.length = 0 ∧ s.params.emptyXfer = .skip then
          { u with cur := s.argA, off := 0, result := .ok .nothing, phase := .respond }
        else { u with cur := s.argA, off := 0, phase := .wren }))

/-- R152, R160, R165, R175: the end of the trailing busy-wait: verification of a region that is not empty, if enabled; else
the request goes on. That the cursors of verification are its own pair, when the cursors of `write` and `erase_range` move, and
that the next sector's check is part of this step, is the model's, log entry 10. -/
def Obligations.PollPostEnds : Prop :=
  ∀ (s u : State) (b : Byte), Inv s → s.phase = .pollPost → Hears [0x05] [b] s u → b.getLsbD 0 = false →
    (s.params.verifyEn = true → 0 < s.regionLen →
      exec .readStatus1 s = .next { u with vcur := s.regionAddr, voff := 0, phase := .verify }) ∧
    (s.params.verifyEn = true → s.regionLen = 0 →
      exec .readStatus1 s = .next (goesOn s { u with vcur := s.regionAddr, voff := 0 })) ∧
    (s.params.verifyEn = false → exec .readStatus1 s = .next (goesOn s u))

/-- R153, R161 to R164: a page program is one transaction of opcode, address and data, with none received and no check; the
mutating frames of the requests, their addresses formed from the operands (R84), lead into the trailing busy-wait. -/
def Obligations.MutatingFramesSent : Prop :=
  (∀ (s u : State) (a : Addr) (d : List Byte), s.nextFrame = some (.pageProgram4b a d) →
    (Hears (0x12 :: be32 a.toNat ++ d) [] s u → exec (.pageProgram4b a d) s = .next { u with phase := .pollPost }) ∧
    ∀ e, Fails (0x12 :: be32 a.toNat ++ d) 0 e s u →
      exec (.pageProgram4b a d) s = .next { u with result := .busTransportError e, phase := .respond }) ∧
  (∀ s u : State, s.phase = .cmd → s.reqOp = .writePage → Hears (0x12 :: be32 s.argA.toNat ++ s.dataIn) [] s u →
    exec (.pageProgram4b s.argA s.dataIn) s = .next { u with phase := .pollPost }) ∧
  (∀ s u : State, s.phase = .cmd → s.reqOp = .write → Hears (0x12 :: be32 s.cur.toNat ++ s.chunk) [] s u →
    exec (.pageProgram4b s.cur s.chunk) s = .next { u with phase := .pollPost }) ∧
  (∀ s u : State, s.phase = .cmd → s.reqOp = .eraseSector → s.argA.toNat < 8192 →
    Hears (0x21 :: be32 (s.argA.toNat * 4096)) [] s u →
    exec (.sectorErase4k4b (BitVec.ofNat 32 (s.argA.toNat * 4096))) s = .next { u with phase := .pollPost }) ∧
  (∀ s u : State, s.phase = .cmd → s.reqOp = .eraseRange → s.idx < 8192 →
    Hears (0x21 :: be32 (s.idx * 4096)) [] s u →
    exec (.sectorErase4k4b (BitVec.ofNat 32 (s.idx * 4096))) s = .next { u with phase := .pollPost }) ∧
  (∀ s u : State, s.phase = .cmd → s.reqOp = .eraseBlock32k → s.argA.toNat < 1024 →
    Hears (0x52 :: be32 (s.argA.toNat * 32768)) [] s u →
    exec (.blockErase32k (BitVec.ofNat 32 (s.argA.toNat * 32768))) s = .next { u with phase := .pollPost }) ∧
  (∀ s u : State, s.phase = .cmd → s.reqOp = .eraseBlock64k → s.argA.toNat < 512 →
    Hears (0xDC :: be32 (s.argA.toNat * 65536)) [] s u →
    exec (.blockErase64k4b (BitVec.ofNat 32 (s.argA.toNat * 65536))) s = .next { u with phase := .pollPost }) ∧
  ∀ s u : State, s.phase = .cmd → s.reqOp = .eraseChip → Hears [0xC7] [] s u →
    exec .chipErase s = .next { u with phase := .pollPost }

/-- R140, R141, R160, R162, R185: the mode frames and the reset pair, one opcode each. -/
def Obligations.ModeAndResetFramesSent : Prop :=
  (∀ s u : State, s.phase = .mode → s.reqOp = .enter4ByteAddressMode → Hears [0xB7] [] s u →
    exec .enter4ByteMode s = .next { u with result := .ok .nothing, phase := .respond }) ∧
  (∀ s u : State, s.phase = .mode → s.reqOp = .eraseBlock32k → Hears [0xB7] [] s u →
    exec .enter4ByteMode s =
      .next { u with phase := if s.params.modeOrder = .beforeHandshake then .wren else .cmd }) ∧
  (∀ s u : State, s.phase = .mode → s.reqOp = .exit4ByteAddressMode → Hears [0xE9] [] s u →
    exec .exit4ByteMode s = .next { u with result := .ok .nothing, phase := .respond }) ∧
  (∀ s u : State, s.phase = .rst1 → Hears [0x99] [] s u → exec .resetDevice s = .next { u with phase := .rst2 }) ∧
  ∀ s u : State, s.phase = .rst2 → Hears [0x66] [] s u →
    exec .enableReset s = .next { u with result := .ok .nothing, phase := .respond }

/-- R145, R146: a read frame is one transaction, however many bytes it receives; `read` delivers them all. -/
def Obligations.ReadFrameDelivers : Prop :=
  (∀ (s u : State) (a : Addr) (n : Nat), s.nextFrame = some (.readData4b a n) →
    (∀ rx, rx.length = n → Hears (0x13 :: be32 a.toNat) rx s u →
      ∃ t, exec (.readData4b a n) s = .next t ∧ t.trace = s.trace ++ [.frame (0x13 :: be32 a.toNat) rx]) ∧
    ∀ e, Fails (0x13 :: be32 a.toNat) n e s u →
      exec (.readData4b a n) s = .next { u with result := .busTransportError e, phase := .respond }) ∧
  ∀ (s u : State) (rx : List Byte), s.phase = .cmd → s.reqOp = .read → rx.length = s.argB.toNat →
    Hears (0x13 :: be32 s.argA.toNat) rx s u →
    exec (.readData4b s.argA s.argB.toNat) s =
      .next { u with dataOut := rx, result := .ok (.bytes rx), phase := .respond }

/-- R176 to R178, R196: a verification window is compared in full; a difference ends the request; else the next window, or the
request goes on. The framing is the spec's decision D10; the cursors, when they move, and the next sector's check inside this
step are the model's, log entry 10. -/
def Obligations.VerifyWindowCompared : Prop :=
  ∀ (s u : State) (rx : List Byte), Inv s → s.phase = .verify → rx.length = s.windowLen →
    Hears (0x13 :: be32 s.vcur.toNat) rx s u →
    (rx ≠ mustRead s →
      exec (.readData4b s.vcur s.windowLen) s = .next { u with result := .readbackFail, phase := .respond }) ∧
    (rx = mustRead s → s.voff + s.windowLen < s.regionLen →
      exec (.readData4b s.vcur s.windowLen) s =
        .next { u with vcur := s.vcur + BitVec.ofNat 32 s.windowLen, voff := s.voff + s.windowLen }) ∧
    (rx = mustRead s → s.regionLen ≤ s.voff + s.windowLen →
      exec (.readData4b s.vcur s.windowLen) s =
        .next (goesOn s { u with vcur := s.vcur + BitVec.ofNat 32 s.windowLen, voff := s.voff + s.windowLen }))

/-! ## What an instruction leaves unchanged -/

/-- R22 to R25, R33, R110, R113: a request's own steps send nothing and touch no byte of the flash. Acceptance writes `ACTIVE`,
`REQ_OP`, the operands and `PHASE`; a check writes `PHASE`, `RESULT` and, in `erase_range`, `IDX`; the response writes `ACTIVE`,
`PHASE` and the responses. -/
def Obligations.RequestsLeaveTheRest : Prop :=
  ∀ (i : Instr) (s t : State), isRequest i = true → exec i s = .next t →
    t.params = s.params ∧ t.holdPin = s.holdPin ∧ t.wpPin = s.wpPin ∧ t.initFailed = s.initFailed ∧
    t.trace = s.trace ∧ t.requests = s.requests ∧ t.answers = s.answers ∧ t.pinAnswers = s.pinAnswers ∧
    t.abandons = s.abandons ∧ t.draws = s.draws ∧ t.busEnd = s.busEnd ∧ t.chip = s.chip ∧
    t.dataOut = s.dataOut ∧ t.cur = s.cur ∧ t.off = s.off ∧ t.vcur = s.vcur ∧ t.voff = s.voff ∧
    (s.phase ≠ .respond → t.responses = s.responses) ∧
    (s.phase ≠ .check → t.result = s.result ∧ t.idx = s.idx) ∧
    (s.reqOp ≠ .eraseRange → t.idx = s.idx) ∧
    (s.phase ≠ .idle → t.reqOp = s.reqOp ∧ t.argA = s.argA ∧ t.argB = s.argB ∧ t.dataIn = s.dataIn) ∧
    (s.phase = .check → t.active = s.active) ∧
    ∀ a : Nat, t.chip.mem.read a = s.chip.mem.read a

/-- R22 to R25, R33, R57: a frame's step leaves the request, its operands, the pins, the parameters and the responses; only a
status read or a read frame moves a cursor, only a read frame writes `DATA_OUT`. The flash of the reference oracle changes
only where a status read ends the effect in flight, and then only in the bytes of that effect (R70, R72 to R74); of the reset
pair this is said under the host's duty (R210, U4). -/
def Obligations.FramesLeaveTheRest : Prop :=
  ∀ (i : Instr) (s t : State), isRequest i = false → exec i s = .next t →
    t.params = s.params ∧ t.holdPin = s.holdPin ∧ t.wpPin = s.wpPin ∧ t.initFailed = s.initFailed ∧
    t.active = s.active ∧ t.reqOp = s.reqOp ∧ t.argA = s.argA ∧ t.argB = s.argB ∧ t.dataIn = s.dataIn ∧
    t.responses = s.responses ∧ t.requests = s.requests ∧ t.pinAnswers = s.pinAnswers ∧
    t.abandons = s.abandons ∧ t.draws = s.draws ∧ t.busEnd = s.busEnd ∧
    (s.phase ≠ .cmd ∨ s.reqOp ≠ .read → t.dataOut = s.dataOut) ∧
    (s.phase ≠ .pollPre ∧ s.phase ≠ .pollPost ∧ s.phase ≠ .verify →
      t.cur = s.cur ∧ t.off = s.off ∧ t.idx = s.idx ∧ t.vcur = s.vcur ∧ t.voff = s.voff) ∧
    (t.phase ≠ .respond → t.result = s.result) ∧
    ∀ a : Nat, (i = .readStatus1 → ∀ e, s.chip.pending = some e → ¬ touches e a) →
      (i = .resetDevice ∨ i = .enableReset → ResetDuty s) →
      t.chip.mem.read a = s.chip.mem.read a

/-! ## Requests from their acceptance to their response -/

/-- R130 to R132: the three status requests, for every byte and for a failing bus. -/
def Obligations.StatusRequestsServed : Prop :=
  (∀ (s : State) (b : Byte) (rest : List Answer), idle s → Scripted s → s.answers = .ok [b] :: rest →
    Answers .readStatus s rest [sr b] (.ok (.status b)) ∧
    Answers .busy s rest [sr b] (.ok (.flag (b.getLsbD 0))) ∧
    Answers .writeEnabled s rest [sr b] (.ok (.flag (b.getLsbD 1)))) ∧
  ∀ (s : State) (e : BusErr) (rest : List Answer), idle s → Scripted s → s.answers = .fail e :: rest →
    Answers .readStatus s rest [.failed [0x05] 1 e] (.busTransportError e) ∧
    Answers .busy s rest [.failed [0x05] 1 e] (.busTransportError e) ∧
    Answers .writeEnabled s rest [.failed [0x05] 1 e] (.busTransportError e)

/-- R133: `enable_write()` sends `> 06`, then one status read whose bit 1 alone decides. -/
def Obligations.EnableWriteServed : Prop :=
  (∀ (s : State) (b : Byte) (rest : List Answer), idle s → Scripted s → s.answers = .ok [] :: .ok [b] :: rest →
    Answers .enableWrite s rest [sent [0x06], sr b] (if b.getLsbD 1 = true then .ok .nothing else .writeEnableFail)) ∧
  (∀ (s : State) (e : BusErr) (rest : List Answer), idle s → Scripted s → s.answers = .fail e :: rest →
    Answers .enableWrite s rest [.failed [0x06] 0 e] (.busTransportError e)) ∧
  ∀ (s : State) (e : BusErr) (rest : List Answer), idle s → Scripted s → s.answers = .ok [] :: .fail e :: rest →
    Answers .enableWrite s rest [sent [0x06], .failed [0x05] 1 e] (.busTransportError e)

/-- R140, R141, R185: the two mode requests are one frame each and `reset` is 0x99 and then 0x66, two transactions, with no wait,
no handshake and no check that nothing is outstanding in the chip, which is the host's duty (R186, R210); a failure of the first
leaves the second unsent. -/
def Obligations.ModeAndResetServed : Prop :=
  (∀ (s : State) (rest : List Answer), idle s → Scripted s → s.answers = .ok [] :: rest →
    Answers .enter4ByteAddressMode s rest [sent [0xB7]] (.ok .nothing) ∧
    Answers .exit4ByteAddressMode s rest [sent [0xE9]] (.ok .nothing)) ∧
  (∀ (s : State) (e : BusErr) (rest : List Answer), idle s → Scripted s → s.answers = .fail e :: rest →
    Answers .enter4ByteAddressMode s rest [.failed [0xB7] 0 e] (.busTransportError e) ∧
    Answers .exit4ByteAddressMode s rest [.failed [0xE9] 0 e] (.busTransportError e)) ∧
  (∀ (s : State) (rest : List Answer), idle s → Scripted s → s.answers = .ok [] :: .ok [] :: rest →
    Answers .reset s rest [sent [0x99], sent [0x66]] (.ok .nothing)) ∧
  (∀ (s : State) (e : BusErr) (rest : List Answer), idle s → Scripted s → s.answers = .fail e :: rest →
    Answers .reset s rest [.failed [0x99] 0 e] (.busTransportError e)) ∧
  ∀ (s : State) (e : BusErr) (rest : List Answer), idle s → Scripted s → s.answers = .ok [] :: .fail e :: rest →
    Answers .reset s rest [sent [0x99], .failed [0x66] 0 e] (.busTransportError e)

/-- R145, R147: `read`: out of bounds sends nothing; else one frame, however long; the empty read under `P_EMPTY_XFER`. -/
def Obligations.ReadServed : Prop :=
  (∀ (s : State) (a n : Addr), idle s → Scripted s → a.toNat + n.toNat > 33554432 →
    Answers (.read a n) s s.answers [] .outOfBounds) ∧
  (∀ (s : State) (a : Addr), idle s → Scripted s → a.toNat ≤ 33554432 → s.params.emptyXfer = .skip →
    Answers (.read a 0) s s.answers [] (.ok (.bytes []))) ∧
  (∀ (s : State) (a n : Addr) (rx : List Byte) (rest : List Answer), idle s → Scripted s →
    a.toNat + n.toNat ≤ 33554432 → (n.toNat = 0 → s.params.emptyXfer = .literal) → rx.length = n.toNat →
    s.answers = .ok rx :: rest →
    Answers (.read a n) s rest [.frame (0x13 :: be32 a.toNat) rx] (.ok (.bytes rx))) ∧
  ∀ (s : State) (a n : Addr) (e : BusErr) (rest : List Answer), idle s → Scripted s →
    a.toNat + n.toNat ≤ 33554432 → (n.toNat = 0 → s.params.emptyXfer = .literal) → s.answers = .fail e :: rest →
    Answers (.read a n) s rest [.failed (0x13 :: be32 a.toNat) n.toNat e] (.busTransportError e)

/-- R134, R241: a busy-wait polls once for every busy answer, however many, and is still polling after them. -/
def Obligations.BusyWaitPolls : Prop :=
  ∀ (s : State) (busy : List Byte) (rest : List Answer), Scripted s → s.phase = .pollPre ∨ s.phase = .pollPost →
    (∀ b ∈ busy, b.getLsbD 0 = true) → s.answers = busy.map (fun b => .ok [b]) ++ rest →
    Host.Core.run core busy.length s = .next { s with answers := rest, trace := s.trace ++ busy.map sr }

/-- R152, R153: `write_page` without verification: the page-span test, the handshake, one program frame, the trailing wait
with any number of busy answers; a latch that did not set leaves the program frame unsent. -/
def Obligations.WritePageServed : Prop :=
  (∀ (s : State) (a : Addr) (d : List Byte), idle s → Scripted s → a.toNat % 256 + d.length > 256 →
    Answers (.writePage a d) s s.answers [] .outOfBounds) ∧
  (∀ (s : State) (a : Addr) (d : List Byte) (latch : Byte) (rest : List Answer), idle s → Scripted s →
    a.toNat % 256 + d.length ≤ 256 → (s.params.pageCapCheck = true → a.toNat + d.length ≤ 33554432) →
    (d = [] → s.params.emptyXfer = .literal) → latch.getLsbD 1 = false → s.answers = .ok [] :: .ok [latch] :: rest →
    Answers (.writePage a d) s rest [sent [0x06], sr latch] .writeEnableFail) ∧
  ∀ (s : State) (a : Addr) (d : List Byte) (latch idleByte : Byte) (busy : List Byte) (rest : List Answer), idle s →
    Scripted s → s.params.verifyEn = false → a.toNat % 256 + d.length ≤ 256 →
    (s.params.pageCapCheck = true → a.toNat + d.length ≤ 33554432) → (d = [] → s.params.emptyXfer = .literal) →
    latch.getLsbD 1 = true → (∀ b ∈ busy, b.getLsbD 0 = true) → idleByte.getLsbD 0 = false →
    s.answers = .ok [] :: .ok [latch] :: .ok [] :: (busy.map (fun b => .ok [b]) ++ .ok [idleByte] :: rest) →
    Answers (.writePage a d) s rest
      ([sent [0x06], sr latch, sent (0x12 :: be32 a.toNat ++ d)] ++ busy.map sr ++ [sr idleByte]) (.ok .nothing)

/-- R175, R176, R196: with `VERIFY_EN` a chunk of one window is read back after the trailing wait, and a difference is
`ReadbackFail`. -/
def Obligations.WritePageVerifies : Prop :=
  ∀ (s : State) (a : Addr) (d rx : List Byte) (latch idleByte : Byte) (rest : List Answer), idle s → Scripted s →
    s.params.verifyEn = true → a.toNat % 256 + d.length ≤ 256 →
    (s.params.pageCapCheck = true → a.toNat + d.length ≤ 33554432) → 0 < d.length → d.length ≤ 64 →
    latch.getLsbD 1 = true → idleByte.getLsbD 0 = false → rx.length = d.length →
    s.answers = .ok [] :: .ok [latch] :: .ok [] :: .ok [idleByte] :: .ok rx :: rest →
    Answers (.writePage a d) s rest
      [sent [0x06], sr latch, sent (0x12 :: be32 a.toNat ++ d), sr idleByte, .frame (0x13 :: be32 a.toNat) rx]
      (if rx = d then .ok .nothing else .readbackFail)

/-- R150, R151: `write` out of bounds sends nothing; data that end inside their first page are one chunk, behind a leading
wait. -/
def Obligations.WriteServed : Prop :=
  (∀ (s : State) (a : Addr) (d : List Byte), idle s → Scripted s → a.toNat + d.length > 33554432 →
    Answers (.write a d) s s.answers [] .outOfBounds) ∧
  ∀ (s : State) (a : Addr) (d : List Byte) (before after : List Byte) (b c latch : Byte) (rest : List Answer), idle s →
    Scripted s → s.params.verifyEn = false → a.toNat + d.length ≤ 33554432 → 0 < d.length →
    d.length ≤ 256 - a.toNat % 256 →
    (∀ x ∈ before ++ after, x.getLsbD 0 = true) → b.getLsbD 0 = false → c.getLsbD 0 = false → latch.getLsbD 1 = true →
    s.answers = before.map (fun x => .ok [x]) ++ .ok [b] :: .ok [] :: .ok [latch] :: .ok [] ::
      (after.map (fun x => .ok [x]) ++ .ok [c] :: rest) →
    Answers (.write a d) s rest
      (before.map sr ++ [sr b, sent [0x06], sr latch, sent (0x12 :: be32 a.toNat ++ d)] ++ after.map sr ++ [sr c])
      (.ok .nothing)

/-- R160 to R164: the four erases without verification, in the default order of `> B7`: a leading wait, `> B7` for the 32 KiB
block alone, the handshake, the erase frame, a trailing wait; an index out of range sends nothing. -/
def Obligations.ErasesServed : Prop :=
  (∀ (s : State) (k : Addr), idle s → Scripted s →
    (k.toNat ≥ 8192 → Answers (.eraseSector k) s s.answers [] .outOfBounds) ∧
    (k.toNat ≥ 1024 → Answers (.eraseBlock32k k) s s.answers [] .outOfBounds) ∧
    (k.toNat ≥ 512 → Answers (.eraseBlock64k k) s s.answers [] .outOfBounds)) ∧
  ∀ (s : State) (k : Addr) (before after : List Byte) (b c latch : Byte) (rest : List Answer), idle s → Scripted s →
    s.params.verifyEn = false → s.params.modeOrder = .beforeHandshake → (∀ x ∈ before ++ after, x.getLsbD 0 = true) →
    b.getLsbD 0 = false → c.getLsbD 0 = false → latch.getLsbD 1 = true →
    (s.answers = before.map (fun x => .ok [x]) ++ .ok [b] :: .ok [] :: .ok [latch] :: .ok [] ::
        (after.map (fun x => .ok [x]) ++ .ok [c] :: rest) →
      (k.toNat < 8192 → Answers (.eraseSector k) s rest (before.map sr ++ [sr b, sent [0x06], sr latch,
        sent (0x21 :: be32 (k.toNat * 4096))] ++ after.map sr ++ [sr c]) (.ok .nothing)) ∧
      (k.toNat < 512 → Answers (.eraseBlock64k k) s rest (before.map sr ++ [sr b, sent [0x06], sr latch,
        sent (0xDC :: be32 (k.toNat * 65536))] ++ after.map sr ++ [sr c]) (.ok .nothing)) ∧
      Answers .eraseChip s rest (before.map sr ++ [sr b, sent [0x06], sr latch, sent [0xC7]] ++ after.map sr ++ [sr c])
        (.ok .nothing)) ∧
    (s.answers = before.map (fun x => .ok [x]) ++ .ok [b] :: .ok [] :: .ok [] :: .ok [latch] :: .ok [] ::
        (after.map (fun x => .ok [x]) ++ .ok [c] :: rest) →
      k.toNat < 1024 → Answers (.eraseBlock32k k) s rest (before.map sr ++ [sr b, sent [0xB7], sent [0x06], sr latch,
        sent (0x52 :: be32 (k.toNat * 32768))] ++ after.map sr ++ [sr c]) (.ok .nothing))

/-- R165, R166: `erase_range` without a frame (misaligned, reversed, empty, beyond the device), and with exactly one sector. -/
def Obligations.EraseRangeServed : Prop :=
  (∀ (s : State) (a e : Addr), idle s → Scripted s → (a.toNat % 4096 ≠ 0 ∨ e.toNat % 4096 ≠ 0) →
    Answers (.eraseRange a e) s s.answers [] .notAligned) ∧
  (∀ (s : State) (a e : Addr), idle s → Scripted s → a.toNat % 4096 = 0 → e.toNat % 4096 = 0 → a.toNat > e.toNat →
    Answers (.eraseRange a e) s s.answers [] .outOfBounds) ∧
  (∀ (s : State) (a : Addr), idle s → Scripted s → a.toNat % 4096 = 0 →
    Answers (.eraseRange a a) s s.answers [] (.ok .nothing)) ∧
  (∀ (s : State) (a e : Addr), idle s → Scripted s → a.toNat % 4096 = 0 → e.toNat % 4096 = 0 → 33554432 ≤ a.toNat →
    a.toNat < e.toNat → Answers (.eraseRange a e) s s.answers [] .outOfBounds) ∧
  ∀ (s : State) (a e : Addr) (b c latch : Byte) (rest : List Answer), idle s → Scripted s → s.params.verifyEn = false →
    a.toNat % 4096 = 0 → e.toNat = a.toNat + 4096 → a.toNat < 33554432 → b.getLsbD 0 = false → c.getLsbD 0 = false →
    latch.getLsbD 1 = true →
    s.answers = .ok [b] :: .ok [] :: .ok [latch] :: .ok [] :: .ok [c] :: rest →
    Answers (.eraseRange a e) s rest [sr b, sent [0x06], sr latch, sent (0x21 :: be32 a.toNat), sr c] (.ok .nothing)

/-- R110, R113 to R116, R130 to R185: whenever the pseudocode of a request, run over the answers to come, ends with an outcome,
the step machine accepts the request and runs to its response with that very outcome, the same trace and the same answers
used. It covers every request, verification, every error and every parameter but `P_ABANDON`. -/
def Obligations.FollowsPseudocode : Prop :=
  ∀ (i : Instr) (s : State) (outcome : Except Result Value) (b : BusLine), idle s → Scripted s →
    flowRequest s.params i ⟨s.trace, s.answers⟩ = some (outcome, b) →
    ∃ t, Serves i s t b (outcomeResult outcome)

/-- R151, of the pseudocode of `write`: a `write` that ends with success has sent page programs that lay exactly its data down from
its address on, each where the one before ended, each inside one page. It speaks of the procedure alone (`flowRequest`);
`FollowsPseudocode` carries it to the machine. -/
def Obligations.WriteTilesItsData : Prop :=
  ∀ (p : Params) (a : Addr) (d : List Byte) (b b' : BusLine), flowRequest p (.write a d) b = some (.ok .nothing, b') →
    ∃ events, b'.trace = b.trace ++ events ∧ tiles a.toNat (programs events) d

/-- R84, R98, R151: under the invariant a page program of `write` carries the bytes of `DATA_IN` that belong at its address,
stays in its page and inside the device. -/
def Obligations.WriteChunkInPlace : Prop :=
  ∀ (s : State) (a : Addr) (d : List Byte), Inv s → s.reqOp = .write → s.nextFrame = some (.pageProgram4b a d) →
    s.argA.toNat ≤ a.toNat ∧ d = (s.dataIn.drop (a.toNat - s.argA.toNat)).take d.length ∧
    a.toNat % 256 + d.length ≤ 256 ∧ a.toNat + d.length ≤ 33554432

/-! ## The reference oracle (95 section 4) -/

/-- R69 to R71, R75, R76: how the chip of the reference oracle takes the frames that neither begin nor end an effect. The 0xFF bytes
of a busy chip and the reset pair without effect are the oracle's own choices (U2, U5), log entry 16. -/
def Obligations.ReferenceChipAnswers : Prop :=
  ∀ s : State, s.busEnd = .reference → s.holdPin = .high → s.wpPin = .high →
    (s.nextFrame = some .readStatus1 → ∃ t, exec .readStatus1 s = .next t ∧ t.trace = s.trace ++
        [.frame [0x05] [BitVec.ofNat 8 ((if s.chip.wel = true then 2 else 0) + if s.chip.busyCnt = 0 then 0 else 1)]] ∧
      (s.chip.busyCnt = 0 → t.chip = s.chip) ∧
      (2 ≤ s.chip.busyCnt → t.chip = { s.chip with busyCnt := s.chip.busyCnt - 1 })) ∧
    (s.nextFrame = some .writeEnable → ∃ t, exec .writeEnable s = .next t ∧
      t.chip = if s.chip.busyCnt = 0 then { s.chip with wel := true } else s.chip) ∧
    (s.nextFrame = some .enter4ByteMode → ∃ t, exec .enter4ByteMode s = .next t ∧
      t.chip = if s.chip.busyCnt = 0 then { s.chip with mode4 := true } else s.chip) ∧
    (s.nextFrame = some .exit4ByteMode → ∃ t, exec .exit4ByteMode s = .next t ∧
      t.chip = if s.chip.busyCnt = 0 then { s.chip with mode4 := false } else s.chip) ∧
    (s.nextFrame = some .resetDevice → ∃ t, exec .resetDevice s = .next t ∧ t.chip = s.chip) ∧
    (s.nextFrame = some .enableReset → ∃ t, exec .enableReset s = .next t ∧ t.chip = s.chip) ∧
    ∀ (a : Addr) (n : Nat), s.nextFrame = some (.readData4b a n) →
      ∃ t, exec (.readData4b a n) s = .next t ∧ t.chip = s.chip ∧
        t.trace = s.trace ++ [.frame (0x13 :: be32 a.toNat)
          (if s.chip.busyCnt = 0 then s.chip.mem.readRange a.toNat n else List.replicate n 0xFF)]

/-- R68 to R74: how an effect of the reference oracle's chip begins: an idle chip with the latch set takes the page program or the
erase of the unit its address lies in, and is busy for `K` status reads; a busy chip ignores it (R71), and one with the latch clear
(G3, general knowledge, log entry 16). A 32 KiB erase outside the 4-byte mode gets no answer from the oracle, nor does an address
beyond the device; that the chip then stays as it is, is the model's, log entry 17. -/
def Obligations.ReferenceChipStarts : Prop :=
  ∀ s : State, s.busEnd = .reference → s.holdPin = .high → s.wpPin = .high →
    (∀ (a : Addr) (d : List Byte), Inv s → s.nextFrame = some (.pageProgram4b a d) →
      ∃ t, exec (.pageProgram4b a d) s = .next t ∧
        t.chip = if s.chip.busyCnt = 0 ∧ s.chip.wel = true ∧ a.toNat < 33554432 then
          { s.chip with pending := some (.program a.toNat d), busyCnt := s.chip.k } else s.chip) ∧
    (∀ a : Addr, s.nextFrame = some (.sectorErase4k4b a) → ∃ t, exec (.sectorErase4k4b a) s = .next t ∧
      t.chip = if s.chip.busyCnt = 0 ∧ s.chip.wel = true ∧ a.toNat < 33554432 then
        { s.chip with pending := some (.erase (a.toNat / 4096 * 4096) 4096), busyCnt := s.chip.k } else s.chip) ∧
    (∀ a : Addr, s.nextFrame = some (.blockErase64k4b a) → ∃ t, exec (.blockErase64k4b a) s = .next t ∧
      t.chip = if s.chip.busyCnt = 0 ∧ s.chip.wel = true ∧ a.toNat < 33554432 then
        { s.chip with pending := some (.erase (a.toNat / 65536 * 65536) 65536), busyCnt := s.chip.k } else s.chip) ∧
    (∀ a : Addr, s.nextFrame = some (.blockErase32k a) → ∃ t, exec (.blockErase32k a) s = .next t ∧
      (t.chip = if s.chip.busyCnt = 0 ∧ s.chip.mode4 = true ∧ s.chip.wel = true ∧ a.toNat < 33554432 then
        { s.chip with pending := some (.erase (a.toNat / 32768 * 32768) 32768), busyCnt := s.chip.k } else s.chip) ∧
      (s.chip.busyCnt = 0 → s.chip.mode4 = false → s.chip.answer (0x52 :: be32 a.toNat) 0 = none)) ∧
    (s.nextFrame = some .chipErase → ∃ t, exec .chipErase s = .next t ∧
      t.chip = if s.chip.busyCnt = 0 ∧ s.chip.wel = true then
        { s.chip with pending := some (.erase 0 33554432), busyCnt := s.chip.k } else s.chip)

/-- R70, R72 to R74: the status read that sees the chip busy for the last time applies the effect in flight: a program ANDs its
bytes into their page, an erase sets its unit to 0xFF, and no other byte changes; the latch clears. -/
def Obligations.ReferenceChipCompletes : Prop :=
  ∀ s : State, s.busEnd = .reference → s.holdPin = .high → s.wpPin = .high → s.nextFrame = some .readStatus1 →
    s.chip.busyCnt = 1 → s.chip.mem.wf = true →
    ∃ t, exec .readStatus1 s = .next t ∧ t.chip.wel = false ∧ t.chip.busyCnt = 0 ∧ t.chip.pending = none ∧
      (∀ base len, s.chip.pending = some (.erase base len) → ∀ a, t.chip.mem.read a =
        if base ≤ a ∧ a < base + len then 0xFF else s.chip.mem.read a) ∧
      ∀ base d, s.chip.pending = some (.program base d) → base < 33554432 → d.length ≤ 256 →
        (∀ (j : Nat) (h : j < d.length), t.chip.mem.read (base / 256 * 256 + (base + j) % 256) =
          s.chip.mem.read (base / 256 * 256 + (base + j) % 256) &&& d[j]) ∧
        ∀ a, (∀ j, j < d.length → a ≠ base / 256 * 256 + (base + j) % 256) → t.chip.mem.read a = s.chip.mem.read a

/-! ## Results -/

/-- R190, R213: the numeric code of each kind, and the filesystem adapter's two error values. -/
def Obligations.ResultCodes : Prop :=
  ∀ (v : Value) (e : BusErr) (p : PinErr),
    [Result.ok v, .busTransportError e, .pinControlError p, .notAligned, .outOfBounds, .writeEnableFail,
      .readbackFail].map Result.code = [0, 1, 2, 3, 4, 5, 6] ∧
    [Result.ok v, .busTransportError e, .pinControlError p, .notAligned, .outOfBounds, .writeEnableFail,
      .readbackFail].map Result.fsError =
        [none, some .io, some .io, some .invalid, some .invalid, some .io, some .io]

end
end

