-- ==== Sys2Proof/Laws/State.lean ====
section
/-! SUPPORT. One lemma per field per update of State: what the update leaves in the field. -/

namespace Sys2Proof.Machine

variable (s : State)

/-! ### State.goto -/

@[simp] theorem State.goto_params (p : Phase) : (s.goto p).params = s.params := rfl
@[simp] theorem State.goto_phase (p : Phase) : (s.goto p).phase = p := rfl
@[simp] theorem State.goto_active (p : Phase) : (s.goto p).active = s.active := rfl
@[simp] theorem State.goto_reqOp (p : Phase) : (s.goto p).reqOp = s.reqOp := rfl
@[simp] theorem State.goto_argA (p : Phase) : (s.goto p).argA = s.argA := rfl
@[simp] theorem State.goto_argB (p : Phase) : (s.goto p).argB = s.argB := rfl
@[simp] theorem State.goto_dataIn (p : Phase) : (s.goto p).dataIn = s.dataIn := rfl
@[simp] theorem State.goto_dataOut (p : Phase) : (s.goto p).dataOut = s.dataOut := rfl
@[simp] theorem State.goto_cur (p : Phase) : (s.goto p).cur = s.cur := rfl
@[simp] theorem State.goto_off (p : Phase) : (s.goto p).off = s.off := rfl
@[simp] theorem State.goto_idx (p : Phase) : (s.goto p).idx = s.idx := rfl
@[simp] theorem State.goto_vcur (p : Phase) : (s.goto p).vcur = s.vcur := rfl
@[simp] theorem State.goto_voff (p : Phase) : (s.goto p).voff = s.voff := rfl
@[simp] theorem State.goto_holdPin (p : Phase) : (s.goto p).holdPin = s.holdPin := rfl
@[simp] theorem State.goto_wpPin (p : Phase) : (s.goto p).wpPin = s.wpPin := rfl
@[simp] theorem State.goto_initFailed (p : Phase) : (s.goto p).initFailed = s.initFailed := rfl
@[simp] theorem State.goto_result (p : Phase) : (s.goto p).result = s.result := rfl
@[simp] theorem State.goto_trace (p : Phase) : (s.goto p).trace = s.trace := rfl
@[simp] theorem State.goto_responses (p : Phase) : (s.goto p).responses = s.responses := rfl
@[simp] theorem State.goto_requests (p : Phase) : (s.goto p).requests = s.requests := rfl
@[simp] theorem State.goto_answers (p : Phase) : (s.goto p).answers = s.answers := rfl
@[simp] theorem State.goto_pinAnswers (p : Phase) : (s.goto p).pinAnswers = s.pinAnswers := rfl
@[simp] theorem State.goto_abandons (p : Phase) : (s.goto p).abandons = s.abandons := rfl
@[simp] theorem State.goto_draws (p : Phase) : (s.goto p).draws = s.draws := rfl
@[simp] theorem State.goto_busEnd (p : Phase) : (s.goto p).busEnd = s.busEnd := rfl
@[simp] theorem State.goto_chip (p : Phase) : (s.goto p).chip = s.chip := rfl

/-! ### State.raise -/

@[simp] theorem State.raise_params (r : Result) : (s.raise r).params = s.params := rfl
@[simp] theorem State.raise_phase (r : Result) : (s.raise r).phase = .respond := rfl
@[simp] theorem State.raise_active (r : Result) : (s.raise r).active = s.active := rfl
@[simp] theorem State.raise_reqOp (r : Result) : (s.raise r).reqOp = s.reqOp := rfl
@[simp] theorem State.raise_argA (r : Result) : (s.raise r).argA = s.argA := rfl
@[simp] theorem State.raise_argB (r : Result) : (s.raise r).argB = s.argB := rfl
@[simp] theorem State.raise_dataIn (r : Result) : (s.raise r).dataIn = s.dataIn := rfl
@[simp] theorem State.raise_dataOut (r : Result) : (s.raise r).dataOut = s.dataOut := rfl
@[simp] theorem State.raise_cur (r : Result) : (s.raise r).cur = s.cur := rfl
@[simp] theorem State.raise_off (r : Result) : (s.raise r).off = s.off := rfl
@[simp] theorem State.raise_idx (r : Result) : (s.raise r).idx = s.idx := rfl
@[simp] theorem State.raise_vcur (r : Result) : (s.raise r).vcur = s.vcur := rfl
@[simp] theorem State.raise_voff (r : Result) : (s.raise r).voff = s.voff := rfl
@[simp] theorem State.raise_holdPin (r : Result) : (s.raise r).holdPin = s.holdPin := rfl
@[simp] theorem State.raise_wpPin (r : Result) : (s.raise r).wpPin = s.wpPin := rfl
@[simp] theorem State.raise_initFailed (r : Result) : (s.raise r).initFailed = s.initFailed := rfl
@[simp] theorem State.raise_result (r : Result) : (s.raise r).result = r := rfl
@[simp] theorem State.raise_trace (r : Result) : (s.raise r).trace = s.trace := rfl
@[simp] theorem State.raise_responses (r : Result) : (s.raise r).responses = s.responses := rfl
@[simp] theorem State.raise_requests (r : Result) : (s.raise r).requests = s.requests := rfl
@[simp] theorem State.raise_answers (r : Result) : (s.raise r).answers = s.answers := rfl
@[simp] theorem State.raise_pinAnswers (r : Result) : (s.raise r).pinAnswers = s.pinAnswers := rfl
@[simp] theorem State.raise_abandons (r : Result) : (s.raise r).abandons = s.abandons := rfl
@[simp] theorem State.raise_draws (r : Result) : (s.raise r).draws = s.draws := rfl
@[simp] theorem State.raise_busEnd (r : Result) : (s.raise r).busEnd = s.busEnd := rfl
@[simp] theorem State.raise_chip (r : Result) : (s.raise r).chip = s.chip := rfl

/-! ### State.finish -/

@[simp] theorem State.finish_params (v : Value) : (s.finish v).params = s.params := rfl
@[simp] theorem State.finish_phase (v : Value) : (s.finish v).phase = .respond := rfl
@[simp] theorem State.finish_active (v : Value) : (s.finish v).active = s.active := rfl
@[simp] theorem State.finish_reqOp (v : Value) : (s.finish v).reqOp = s.reqOp := rfl
@[simp] theorem State.finish_argA (v : Value) : (s.finish v).argA = s.argA := rfl
@[simp] theorem State.finish_argB (v : Value) : (s.finish v).argB = s.argB := rfl
@[simp] theorem State.finish_dataIn (v : Value) : (s.finish v).dataIn = s.dataIn := rfl
@[simp] theorem State.finish_dataOut (v : Value) : (s.finish v).dataOut = s.dataOut := rfl
@[simp] theorem State.finish_cur (v : Value) : (s.finish v).cur = s.cur := rfl
@[simp] theorem State.finish_off (v : Value) : (s.finish v).off = s.off := rfl
@[simp] theorem State.finish_idx (v : Value) : (s.finish v).idx = s.idx := rfl
@[simp] theorem State.finish_vcur (v : Value) : (s.finish v).vcur = s.vcur := rfl
@[simp] theorem State.finish_voff (v : Value) : (s.finish v).voff = s.voff := rfl
@[simp] theorem State.finish_holdPin (v : Value) : (s.finish v).holdPin = s.holdPin := rfl
@[simp] theorem State.finish_wpPin (v : Value) : (s.finish v).wpPin = s.wpPin := rfl
@[simp] theorem State.finish_initFailed (v : Value) : (s.finish v).initFailed = s.initFailed := rfl
@[simp] theorem State.finish_result (v : Value) : (s.finish v).result = .ok v := rfl
@[simp] theorem State.finish_trace (v : Value) : (s.finish v).trace = s.trace := rfl
@[simp] theorem State.finish_responses (v : Value) : (s.finish v).responses = s.responses := rfl
@[simp] theorem State.finish_requests (v : Value) : (s.finish v).requests = s.requests := rfl
@[simp] theorem State.finish_answers (v : Value) : (s.finish v).answers = s.answers := rfl
@[simp] theorem State.finish_pinAnswers (v : Value) : (s.finish v).pinAnswers = s.pinAnswers := rfl
@[simp] theorem State.finish_abandons (v : Value) : (s.finish v).abandons = s.abandons := rfl
@[simp] theorem State.finish_draws (v : Value) : (s.finish v).draws = s.draws := rfl
@[simp] theorem State.finish_busEnd (v : Value) : (s.finish v).busEnd = s.busEnd := rfl
@[simp] theorem State.finish_chip (v : Value) : (s.finish v).chip = s.chip := rfl

/-! ### State.respond -/

@[simp] theorem State.respond_params : s.respond.params = s.params := rfl
@[simp] theorem State.respond_phase : s.respond.phase = .idle := rfl
@[simp] theorem State.respond_active : s.respond.active = false := rfl
@[simp] theorem State.respond_reqOp : s.respond.reqOp = s.reqOp := rfl
@[simp] theorem State.respond_argA : s.respond.argA = s.argA := rfl
@[simp] theorem State.respond_argB : s.respond.argB = s.argB := rfl
@[simp] theorem State.respond_dataIn : s.respond.dataIn = s.dataIn := rfl
@[simp] theorem State.respond_dataOut : s.respond.dataOut = s.dataOut := rfl
@[simp] theorem State.respond_cur : s.respond.cur = s.cur := rfl
@[simp] theorem State.respond_off : s.respond.off = s.off := rfl
@[simp] theorem State.respond_idx : s.respond.idx = s.idx := rfl
@[simp] theorem State.respond_vcur : s.respond.vcur = s.vcur := rfl
@[simp] theorem State.respond_voff : s.respond.voff = s.voff := rfl
@[simp] theorem State.respond_holdPin : s.respond.holdPin = s.holdPin := rfl
@[simp] theorem State.respond_wpPin : s.respond.wpPin = s.wpPin := rfl
@[simp] theorem State.respond_initFailed : s.respond.initFailed = s.initFailed := rfl
@[simp] theorem State.respond_result : s.respond.result = s.result := rfl
@[simp] theorem State.respond_trace : s.respond.trace = s.trace := rfl
@[simp] theorem State.respond_responses : s.respond.responses = s.responses ++ [s.result] := rfl
@[simp] theorem State.respond_requests : s.respond.requests = s.requests := rfl
@[simp] theorem State.respond_answers : s.respond.answers = s.answers := rfl
@[simp] theorem State.respond_pinAnswers : s.respond.pinAnswers = s.pinAnswers := rfl
@[simp] theorem State.respond_abandons : s.respond.abandons = s.abandons := rfl
@[simp] theorem State.respond_draws : s.respond.draws = s.draws := rfl
@[simp] theorem State.respond_busEnd : s.respond.busEnd = s.busEnd := rfl
@[simp] theorem State.respond_chip : s.respond.chip = s.chip := rfl

/-! ### State.abandonOp -/

@[simp] theorem State.abandonOp_params : s.abandonOp.params = s.params := rfl
@[simp] theorem State.abandonOp_phase : s.abandonOp.phase = .idle := rfl
@[simp] theorem State.abandonOp_active : s.abandonOp.active = false := rfl
@[simp] theorem State.abandonOp_reqOp : s.abandonOp.reqOp = s.reqOp := rfl
@[simp] theorem State.abandonOp_argA : s.abandonOp.argA = s.argA := rfl
@[simp] theorem State.abandonOp_argB : s.abandonOp.argB = s.argB := rfl
@[simp] theorem State.abandonOp_dataIn : s.abandonOp.dataIn = s.dataIn := rfl
@[simp] theorem State.abandonOp_dataOut : s.abandonOp.dataOut = s.dataOut := rfl
@[simp] theorem State.abandonOp_cur : s.abandonOp.cur = s.cur := rfl
@[simp] theorem State.abandonOp_off : s.abandonOp.off = s.off := rfl
@[simp] theorem State.abandonOp_idx : s.abandonOp.idx = s.idx := rfl
@[simp] theorem State.abandonOp_vcur : s.abandonOp.vcur = s.vcur := rfl
@[simp] theorem State.abandonOp_voff : s.abandonOp.voff = s.voff := rfl
@[simp] theorem State.abandonOp_holdPin : s.abandonOp.holdPin = s.holdPin := rfl
@[simp] theorem State.abandonOp_wpPin : s.abandonOp.wpPin = s.wpPin := rfl
@[simp] theorem State.abandonOp_initFailed : s.abandonOp.initFailed = s.initFailed := rfl
@[simp] theorem State.abandonOp_result : s.abandonOp.result = s.result := rfl
@[simp] theorem State.abandonOp_trace : s.abandonOp.trace = s.trace := rfl
@[simp] theorem State.abandonOp_responses : s.abandonOp.responses = s.responses := rfl
@[simp] theorem State.abandonOp_requests : s.abandonOp.requests = s.requests := rfl
@[simp] theorem State.abandonOp_answers : s.abandonOp.answers = s.answers := rfl
@[simp] theorem State.abandonOp_pinAnswers : s.abandonOp.pinAnswers = s.pinAnswers := rfl
@[simp] theorem State.abandonOp_abandons : s.abandonOp.abandons = s.abandons := rfl
@[simp] theorem State.abandonOp_draws : s.abandonOp.draws = s.draws := rfl
@[simp] theorem State.abandonOp_busEnd : s.abandonOp.busEnd = s.busEnd := rfl
@[simp] theorem State.abandonOp_chip : s.abandonOp.chip = s.chip := rfl

/-! ### State.record -/

@[simp] theorem State.record_params (e : BusEvent) : (s.record e).params = s.params := rfl
@[simp] theorem State.record_phase (e : BusEvent) : (s.record e).phase = s.phase := rfl
@[simp] theorem State.record_active (e : BusEvent) : (s.record e).active = s.active := rfl
@[simp] theorem State.record_reqOp (e : BusEvent) : (s.record e).reqOp = s.reqOp := rfl
@[simp] theorem State.record_argA (e : BusEvent) : (s.record e).argA = s.argA := rfl
@[simp] theorem State.record_argB (e : BusEvent) : (s.record e).argB = s.argB := rfl
@[simp] theorem State.record_dataIn (e : BusEvent) : (s.record e).dataIn = s.dataIn := rfl
@[simp] theorem State.record_dataOut (e : BusEvent) : (s.record e).dataOut = s.dataOut := rfl
@[simp] theorem State.record_cur (e : BusEvent) : (s.record e).cur = s.cur := rfl
@[simp] theorem State.record_off (e : BusEvent) : (s.record e).off = s.off := rfl
@[simp] theorem State.record_idx (e : BusEvent) : (s.record e).idx = s.idx := rfl
@[simp] theorem State.record_vcur (e : BusEvent) : (s.record e).vcur = s.vcur := rfl
@[simp] theorem State.record_voff (e : BusEvent) : (s.record e).voff = s.voff := rfl
@[simp] theorem State.record_holdPin (e : BusEvent) : (s.record e).holdPin = s.holdPin := rfl
@[simp] theorem State.record_wpPin (e : BusEvent) : (s.record e).wpPin = s.wpPin := rfl
@[simp] theorem State.record_initFailed (e : BusEvent) : (s.record e).initFailed = s.initFailed := rfl
@[simp] theorem State.record_result (e : BusEvent) : (s.record e).result = s.result := rfl
@[simp] theorem State.record_trace (e : BusEvent) : (s.record e).trace = s.trace ++ [e] := rfl
@[simp] theorem State.record_responses (e : BusEvent) : (s.record e).responses = s.responses := rfl
@[simp] theorem State.record_requests (e : BusEvent) : (s.record e).requests = s.requests := rfl
@[simp] theorem State.record_answers (e : BusEvent) : (s.record e).answers = s.answers := rfl
@[simp] theorem State.record_pinAnswers (e : BusEvent) : (s.record e).pinAnswers = s.pinAnswers := rfl
@[simp] theorem State.record_abandons (e : BusEvent) : (s.record e).abandons = s.abandons := rfl
@[simp] theorem State.record_draws (e : BusEvent) : (s.record e).draws = s.draws := rfl
@[simp] theorem State.record_busEnd (e : BusEvent) : (s.record e).busEnd = s.busEnd := rfl
@[simp] theorem State.record_chip (e : BusEvent) : (s.record e).chip = s.chip := rfl

/-! ### State.accept -/

@[simp] theorem State.accept_params (op : ReqOp) (p : Phase) : (s.accept op p).params = s.params := rfl
@[simp] theorem State.accept_phase (op : ReqOp) (p : Phase) : (s.accept op p).phase = p := rfl
@[simp] theorem State.accept_active (op : ReqOp) (p : Phase) : (s.accept op p).active = true := rfl
@[simp] theorem State.accept_reqOp (op : ReqOp) (p : Phase) : (s.accept op p).reqOp = op := rfl
@[simp] theorem State.accept_argA (op : ReqOp) (p : Phase) : (s.accept op p).argA = s.argA := rfl
@[simp] theorem State.accept_argB (op : ReqOp) (p : Phase) : (s.accept op p).argB = s.argB := rfl
@[simp] theorem State.accept_dataIn (op : ReqOp) (p : Phase) : (s.accept op p).dataIn = s.dataIn := rfl
@[simp] theorem State.accept_dataOut (op : ReqOp) (p : Phase) : (s.accept op p).dataOut = s.dataOut := rfl
@[simp] theorem State.accept_cur (op : ReqOp) (p : Phase) : (s.accept op p).cur = s.cur := rfl
@[simp] theorem State.accept_off (op : ReqOp) (p : Phase) : (s.accept op p).off = s.off := rfl
@[simp] theorem State.accept_idx (op : ReqOp) (p : Phase) : (s.accept op p).idx = s.idx := rfl
@[simp] theorem State.accept_vcur (op : ReqOp) (p : Phase) : (s.accept op p).vcur = s.vcur := rfl
@[simp] theorem State.accept_voff (op : ReqOp) (p : Phase) : (s.accept op p).voff = s.voff := rfl
@[simp] theorem State.accept_holdPin (op : ReqOp) (p : Phase) : (s.accept op p).holdPin = s.holdPin := rfl
@[simp] theorem State.accept_wpPin (op : ReqOp) (p : Phase) : (s.accept op p).wpPin = s.wpPin := rfl
@[simp] theorem State.accept_initFailed (op : ReqOp) (p : Phase) : (s.accept op p).initFailed = s.initFailed := rfl
@[simp] theorem State.accept_result (op : ReqOp) (p : Phase) : (s.accept op p).result = s.result := rfl
@[simp] theorem State.accept_trace (op : ReqOp) (p : Phase) : (s.accept op p).trace = s.trace := rfl
@[simp] theorem State.accept_responses (op : ReqOp) (p : Phase) : (s.accept op p).responses = s.responses := rfl
@[simp] theorem State.accept_requests (op : ReqOp) (p : Phase) : (s.accept op p).requests = s.requests := rfl
@[simp] theorem State.accept_answers (op : ReqOp) (p : Phase) : (s.accept op p).answers = s.answers := rfl
@[simp] theorem State.accept_pinAnswers (op : ReqOp) (p : Phase) : (s.accept op p).pinAnswers = s.pinAnswers := rfl
@[simp] theorem State.accept_abandons (op : ReqOp) (p : Phase) : (s.accept op p).abandons = s.abandons := rfl
@[simp] theorem State.accept_draws (op : ReqOp) (p : Phase) : (s.accept op p).draws = s.draws := rfl
@[simp] theorem State.accept_busEnd (op : ReqOp) (p : Phase) : (s.accept op p).busEnd = s.busEnd := rfl
@[simp] theorem State.accept_chip (op : ReqOp) (p : Phase) : (s.accept op p).chip = s.chip := rfl

/-! ### State.latch -/

@[simp] theorem State.latch_params (w : ReqWord) : (s.latch w).params = s.params := rfl
@[simp] theorem State.latch_phase (w : ReqWord) : (s.latch w).phase = s.phase := rfl
@[simp] theorem State.latch_active (w : ReqWord) : (s.latch w).active = s.active := rfl
@[simp] theorem State.latch_reqOp (w : ReqWord) : (s.latch w).reqOp = s.reqOp := rfl
@[simp] theorem State.latch_argA (w : ReqWord) : (s.latch w).argA = w.argA := rfl
@[simp] theorem State.latch_argB (w : ReqWord) : (s.latch w).argB = w.argB := rfl
@[simp] theorem State.latch_dataIn (w : ReqWord) : (s.latch w).dataIn = w.dataIn := rfl
@[simp] theorem State.latch_dataOut (w : ReqWord) : (s.latch w).dataOut = s.dataOut := rfl
@[simp] theorem State.latch_cur (w : ReqWord) : (s.latch w).cur = s.cur := rfl
@[simp] theorem State.latch_off (w : ReqWord) : (s.latch w).off = s.off := rfl
@[simp] theorem State.latch_idx (w : ReqWord) : (s.latch w).idx = s.idx := rfl
@[simp] theorem State.latch_vcur (w : ReqWord) : (s.latch w).vcur = s.vcur := rfl
@[simp] theorem State.latch_voff (w : ReqWord) : (s.latch w).voff = s.voff := rfl
@[simp] theorem State.latch_holdPin (w : ReqWord) : (s.latch w).holdPin = s.holdPin := rfl
@[simp] theorem State.latch_wpPin (w : ReqWord) : (s.latch w).wpPin = s.wpPin := rfl
@[simp] theorem State.latch_initFailed (w : ReqWord) : (s.latch w).initFailed = s.initFailed := rfl
@[simp] theorem State.latch_result (w : ReqWord) : (s.latch w).result = s.result := rfl
@[simp] theorem State.latch_trace (w : ReqWord) : (s.latch w).trace = s.trace := rfl
@[simp] theorem State.latch_responses (w : ReqWord) : (s.latch w).responses = s.responses := rfl
@[simp] theorem State.latch_requests (w : ReqWord) : (s.latch w).requests = s.requests := rfl
@[simp] theorem State.latch_answers (w : ReqWord) : (s.latch w).answers = s.answers := rfl
@[simp] theorem State.latch_pinAnswers (w : ReqWord) : (s.latch w).pinAnswers = s.pinAnswers := rfl
@[simp] theorem State.latch_abandons (w : ReqWord) : (s.latch w).abandons = s.abandons := rfl
@[simp] theorem State.latch_draws (w : ReqWord) : (s.latch w).draws = s.draws := rfl
@[simp] theorem State.latch_busEnd (w : ReqWord) : (s.latch w).busEnd = s.busEnd := rfl
@[simp] theorem State.latch_chip (w : ReqWord) : (s.latch w).chip = s.chip := rfl

/-! ### State.pinsRaised -/

@[simp] theorem State.pinsRaised_params : s.pinsRaised.params = s.params := rfl
@[simp] theorem State.pinsRaised_phase : s.pinsRaised.phase = .idle := rfl
@[simp] theorem State.pinsRaised_active : s.pinsRaised.active = s.active := rfl
@[simp] theorem State.pinsRaised_reqOp : s.pinsRaised.reqOp = s.reqOp := rfl
@[simp] theorem State.pinsRaised_argA : s.pinsRaised.argA = s.argA := rfl
@[simp] theorem State.pinsRaised_argB : s.pinsRaised.argB = s.argB := rfl
@[simp] theorem State.pinsRaised_dataIn : s.pinsRaised.dataIn = s.dataIn := rfl
@[simp] theorem State.pinsRaised_dataOut : s.pinsRaised.dataOut = s.dataOut := rfl
@[simp] theorem State.pinsRaised_cur : s.pinsRaised.cur = s.cur := rfl
@[simp] theorem State.pinsRaised_off : s.pinsRaised.off = s.off := rfl
@[simp] theorem State.pinsRaised_idx : s.pinsRaised.idx = s.idx := rfl
@[simp] theorem State.pinsRaised_vcur : s.pinsRaised.vcur = s.vcur := rfl
@[simp] theorem State.pinsRaised_voff : s.pinsRaised.voff = s.voff := rfl
@[simp] theorem State.pinsRaised_holdPin : s.pinsRaised.holdPin = .high := rfl
@[simp] theorem State.pinsRaised_wpPin : s.pinsRaised.wpPin = .high := rfl
@[simp] theorem State.pinsRaised_initFailed : s.pinsRaised.initFailed = s.initFailed := rfl
@[simp] theorem State.pinsRaised_result : s.pinsRaised.result = s.result := rfl
@[simp] theorem State.pinsRaised_trace : s.pinsRaised.trace = s.trace := rfl
@[simp] theorem State.pinsRaised_responses : s.pinsRaised.responses = s.responses := rfl
@[simp] theorem State.pinsRaised_requests : s.pinsRaised.requests = s.requests := rfl
@[simp] theorem State.pinsRaised_answers : s.pinsRaised.answers = s.answers := rfl
@[simp] theorem State.pinsRaised_pinAnswers : s.pinsRaised.pinAnswers = s.pinAnswers := rfl
@[simp] theorem State.pinsRaised_abandons : s.pinsRaised.abandons = s.abandons := rfl
@[simp] theorem State.pinsRaised_draws : s.pinsRaised.draws = s.draws := rfl
@[simp] theorem State.pinsRaised_busEnd : s.pinsRaised.busEnd = s.busEnd := rfl
@[simp] theorem State.pinsRaised_chip : s.pinsRaised.chip = s.chip := rfl

/-! ### State.pinsFailed -/

@[simp] theorem State.pinsFailed_params (p : PinErr) (h w : PinLevel) : (s.pinsFailed p h w).params = s.params := rfl
@[simp] theorem State.pinsFailed_phase (p : PinErr) (h w : PinLevel) : (s.pinsFailed p h w).phase = s.phase := rfl
@[simp] theorem State.pinsFailed_active (p : PinErr) (h w : PinLevel) : (s.pinsFailed p h w).active = s.active := rfl
@[simp] theorem State.pinsFailed_reqOp (p : PinErr) (h w : PinLevel) : (s.pinsFailed p h w).reqOp = s.reqOp := rfl
@[simp] theorem State.pinsFailed_argA (p : PinErr) (h w : PinLevel) : (s.pinsFailed p h w).argA = s.argA := rfl
@[simp] theorem State.pinsFailed_argB (p : PinErr) (h w : PinLevel) : (s.pinsFailed p h w).argB = s.argB := rfl
@[simp] theorem State.pinsFailed_dataIn (p : PinErr) (h w : PinLevel) : (s.pinsFailed p h w).dataIn = s.dataIn := rfl
@[simp] theorem State.pinsFailed_dataOut (p : PinErr) (h w : PinLevel) : (s.pinsFailed p h w).dataOut = s.dataOut := rfl
@[simp] theorem State.pinsFailed_cur (p : PinErr) (h w : PinLevel) : (s.pinsFailed p h w).cur = s.cur := rfl
@[simp] theorem State.pinsFailed_off (p : PinErr) (h w : PinLevel) : (s.pinsFailed p h w).off = s.off := rfl
@[simp] theorem State.pinsFailed_idx (p : PinErr) (h w : PinLevel) : (s.pinsFailed p h w).idx = s.idx := rfl
@[simp] theorem State.pinsFailed_vcur (p : PinErr) (h w : PinLevel) : (s.pinsFailed p h w).vcur = s.vcur := rfl
@[simp] theorem State.pinsFailed_voff (p : PinErr) (h w : PinLevel) : (s.pinsFailed p h w).voff = s.voff := rfl
@[simp] theorem State.pinsFailed_holdPin (p : PinErr) (h w : PinLevel) : (s.pinsFailed p h w).holdPin = h := rfl
@[simp] theorem State.pinsFailed_wpPin (p : PinErr) (h w : PinLevel) : (s.pinsFailed p h w).wpPin = w := rfl
@[simp] theorem State.pinsFailed_initFailed (p : PinErr) (h w : PinLevel) : (s.pinsFailed p h w).initFailed = true := rfl
@[simp] theorem State.pinsFailed_result (p : PinErr) (h w : PinLevel) : (s.pinsFailed p h w).result = .pinControlError p := rfl
@[simp] theorem State.pinsFailed_trace (p : PinErr) (h w : PinLevel) : (s.pinsFailed p h w).trace = s.trace := rfl
@[simp] theorem State.pinsFailed_responses (p : PinErr) (h w : PinLevel) : (s.pinsFailed p h w).responses = s.responses := rfl
@[simp] theorem State.pinsFailed_requests (p : PinErr) (h w : PinLevel) : (s.pinsFailed p h w).requests = s.requests := rfl
@[simp] theorem State.pinsFailed_answers (p : PinErr) (h w : PinLevel) : (s.pinsFailed p h w).answers = s.answers := rfl
@[simp] theorem State.pinsFailed_pinAnswers (p : PinErr) (h w : PinLevel) : (s.pinsFailed p h w).pinAnswers = s.pinAnswers := rfl
@[simp] theorem State.pinsFailed_abandons (p : PinErr) (h w : PinLevel) : (s.pinsFailed p h w).abandons = s.abandons := rfl
@[simp] theorem State.pinsFailed_draws (p : PinErr) (h w : PinLevel) : (s.pinsFailed p h w).draws = s.draws := rfl
@[simp] theorem State.pinsFailed_busEnd (p : PinErr) (h w : PinLevel) : (s.pinsFailed p h w).busEnd = s.busEnd := rfl
@[simp] theorem State.pinsFailed_chip (p : PinErr) (h w : PinLevel) : (s.pinsFailed p h w).chip = s.chip := rfl

end Sys2Proof.Machine
end

