-- ==== Sys2Proof/Laws/Bus.lean ====
section
/-! SUPPORT. What one transfer can do (R111): the shape of its answer, and every state it can end in. -/

namespace Sys2Proof.Machine

@[simp] theorem fit_length (free : Nat → Byte) (i n : Nat) (bs : List Byte) : (fit free i n bs).length = n := by
  induction n generalizing i bs with
  | zero => rfl
  | succ n ih => cases bs <;> simp [fit, ih]

/-- An answer of the right length is delivered as it is. -/
@[simp] theorem fit_exact (free : Nat → Byte) (i : Nat) (bs : List Byte) : fit free i bs.length bs = bs := by
  induction bs generalizing i with
  | nil => rfl
  | cons b bs ih => simp [fit, ih]

/-- Whatever answers, a successful answer has exactly the bytes asked for (R111). -/
theorem busAnswer_ok_length {tx : List Byte} {n : Nat} {s : State} {rx : List Byte}
    (h : (s.busAnswer tx n).1 = .ok rx) : rx.length = n := by
  have oracle : oracleAnswer s.trace tx n = .ok rx → rx.length = n := by
    unfold oracleAnswer
    split <;> simp
    rintro rfl; simp
  have fitted : ∀ a, fitAnswer s.trace tx n a = .ok rx → rx.length = n := by
    intro a
    cases a <;> simp [fitAnswer]
    rintro rfl; simp
  revert h
  unfold State.busAnswer
  split
  · split
    · exact fun h => oracle h
    · next x rest _ => exact fun h => fitted x h
  · split
    · next rx' _ _ _ => exact fun h => fitted (.ok rx') h
    · exact fun h => oracle h

/-- An answer uses up an answer or moves the chip; it touches nothing else. -/
theorem busAnswer_state (tx : List Byte) (n : Nat) (s : State) :
    ∃ answers chip, (s.busAnswer tx n).2 = { s with answers := answers, chip := chip } := by
  unfold State.busAnswer
  split
  · split <;> exact ⟨_, _, rfl⟩
  · split <;> exact ⟨_, _, rfl⟩

/-- The chip after an answer: unmoved, or moved by the frame it answered. -/
theorem busAnswer_chip (tx : List Byte) (n : Nat) (s : State) :
    (s.busAnswer tx n).2.chip = s.chip ∨ ∃ rx, s.chip.answer tx n = some (rx, (s.busAnswer tx n).2.chip) := by
  unfold State.busAnswer
  split
  · split <;> exact .inl rfl
  · split
    · rename_i h; exact .inr ⟨_, h⟩
    · exact .inl rfl

/-- Everything a transfer can do (R111): go on with `n` received bytes and one more event, or raise the bus failure. -/
theorem transfer_cases (tx : List Byte) (n : Nat) (next : List Byte → State → State) (s : State) :
    ∃ answers chip, (chip = s.chip ∨ ∃ rx, s.chip.answer tx n = some (rx, chip)) ∧
      ((∃ rx, rx.length = n ∧
          s.transfer tx n next = next rx (({ s with answers := answers, chip := chip }).record (.frame tx rx))) ∨
        ∃ e, s.transfer tx n next =
          (({ s with answers := answers, chip := chip }).record (.failed tx n e)).raise (.busTransportError e)) := by
  obtain ⟨answers, chip, hs⟩ := busAnswer_state tx n s
  have hc := busAnswer_chip tx n s
  rw [hs] at hc
  refine ⟨answers, chip, hc, ?_⟩
  unfold State.transfer
  rcases h : s.busAnswer tx n with ⟨a, s1⟩
  have h1 : s1 = { s with answers := answers, chip := chip } := by rw [← hs, h]
  cases a with
  | ok rx => exact .inl ⟨rx, busAnswer_ok_length (s := s) (by rw [h]), by rw [← h1]⟩
  | fail e => exact .inr ⟨e, by rw [← h1]⟩

/-- A transfer whose answer the state fixes: success. -/
theorem transfer_ok {tx : List Byte} {s : State} {rx : List Byte} {rest : List Answer} {n : Nat}
    (next : List Byte → State → State) (hb : s.busEnd = .oracle) (ha : s.answers = .ok rx :: rest) (hn : rx.length = n) :
    s.transfer tx n next = next rx (({ s with answers := rest }).record (.frame tx rx)) := by
  subst hn
  simp [State.transfer, State.busAnswer, hb, ha, fitAnswer]

/-- A transfer whose answer the state fixes: failure. -/
theorem transfer_fail {tx : List Byte} {s : State} {e : BusErr} {rest : List Answer} {n : Nat}
    (next : List Byte → State → State) (hb : s.busEnd = .oracle) (ha : s.answers = .fail e :: rest) :
    s.transfer tx n next =
      (({ s with answers := rest }).record (.failed tx n e)).raise (.busTransportError e) := by
  simp [State.transfer, State.busAnswer, hb, ha, fitAnswer]

/-- When a frame is sent: it is the one selected, and what happens is its transfer. -/
theorem sendFrame_next {i : Instr} {next : List Byte → State → State} {s t : State}
    (h : sendFrame i next s = .next t) :
    s.nextFrame = some i ∧ t = s.transfer (frameTx i) (frameRx i) next := by
  unfold sendFrame at h
  split at h
  · next hs => cases h; exact ⟨hs, rfl⟩
  · cases h

/-- A selected frame is always sent: no fault and no refusal. -/
theorem sendFrame_selected {i : Instr} {s : State} (next : List Byte → State → State) (h : s.nextFrame = some i) :
    sendFrame i next s = .next (s.transfer (frameTx i) (frameRx i) next) := by
  simp [sendFrame, h]

/-- Everything a request itself does: it is accepted, checked, or answered. -/
theorem serve_next {i : Instr} {accepted : State → State} {check : Option (State → State)} {s t : State}
    (h : serve i accepted check s = .next t) :
    (s.phase = .idle ∧ s.active = false ∧ t = accepted s) ∨
      (s.phase = .check ∧ s.running = i ∧ ∃ f, check = some f ∧ t = f s) ∨
      (s.phase = .respond ∧ s.running = i ∧ t = s.respond) := by
  unfold serve at h
  split at h
  · next hp =>
    split at h
    · cases h
    · next ha => cases h; exact .inl ⟨hp, by simpa using ha, rfl⟩
  · next hp =>
    split at h
    · next hr =>
      split at h
      · next f => cases h; exact .inr (.inl ⟨hp, hr, f, rfl, rfl⟩)
      · cases h
    · cases h
  · next hp =>
    split at h
    · next hr => cases h; exact .inr (.inr ⟨hp, hr, rfl⟩)
    · cases h
  · cases h

end Sys2Proof.Machine
end

