-- ==== Sys2Proof/Laws/Memory.lean ====
section
/-! SUPPORT. The flash of the reference oracle: reading after writing, programming and erasing, and that each keeps the
canonical form. -/

namespace Sys2Proof.Machine

/-- Below its first possible address a memory lists nothing. -/
theorem Memory.read_below {m : Memory} {lo a : Nat} (h : m.wfFrom lo = true) (ha : a < lo) :
    m.read a = unlistedByte := by
  induction m generalizing lo with
  | nil => rfl
  | cons c rest ih =>
    simp [Memory.wfFrom] at h
    simp only [Memory.read]
    rw [if_neg (by omega)]
    exact ih h.2 (by omega)

theorem Memory.wfFrom_mono {m : Memory} {lo lo' : Nat} (h : m.wfFrom lo = true) (hl : lo' ≤ lo) :
    m.wfFrom lo' = true := by
  cases m with
  | nil => rfl
  | cons c rest => simp [Memory.wfFrom] at h ⊢; exact ⟨⟨⟨by omega, h.1.1.2⟩, h.1.2⟩, h.2⟩

theorem Memory.push_wfFrom {m : Memory} {lo a : Nat} {v : Byte} (h : m.wfFrom (a + 1) = true) (hl : lo ≤ a)
    (ha : a < capacity) : (Memory.push a v m).wfFrom lo = true := by
  unfold Memory.push
  split
  · exact Memory.wfFrom_mono h (by omega)
  · next hv => simp [Memory.wfFrom, hl, ha, hv, h]

/-- A write keeps the canonical form. -/
theorem Memory.write_wfFrom {m : Memory} {lo a : Nat} (v : Byte) (h : m.wfFrom lo = true) (hl : lo ≤ a)
    (ha : a < capacity) : (m.write a v).wfFrom lo = true := by
  induction m generalizing lo with
  | nil => exact Memory.push_wfFrom rfl hl ha
  | cons c rest ih =>
    have hc := h
    simp [Memory.wfFrom] at h
    simp only [Memory.write]
    split
    · next hlt =>
      refine Memory.push_wfFrom ?_ hl ha
      simp [Memory.wfFrom, h.1.1.2, h.1.2, h.2]; omega
    · next hge =>
      split
      · next he => subst he; exact Memory.push_wfFrom h.2 hl ha
      · next hne =>
        have := ih h.2 (by omega)
        simp [Memory.wfFrom, h.1.1.1, h.1.1.2, h.1.2, this]

theorem Memory.read_push_same {m : Memory} {a : Nat} {v : Byte} (h : m.wfFrom (a + 1) = true) :
    (Memory.push a v m).read a = v := by
  unfold Memory.push
  split
  · next hv => rw [hv]; exact Memory.read_below h (by omega)
  · simp [Memory.read]

theorem Memory.read_push_other {m : Memory} {a b : Nat} (v : Byte) (hne : b ≠ a) :
    (Memory.push a v m).read b = m.read b := by
  unfold Memory.push
  split
  · rfl
  · simp only [Memory.read]; rw [if_neg (by omega)]

/-- A read after a write at the same address gives the byte written. -/
theorem Memory.read_write_same {m : Memory} {lo a : Nat} (v : Byte) (h : m.wfFrom lo = true) :
    (m.write a v).read a = v := by
  induction m generalizing lo with
  | nil => exact Memory.read_push_same rfl
  | cons c rest ih =>
    have hc := h
    simp [Memory.wfFrom] at h
    simp only [Memory.write]
    split
    · exact Memory.read_push_same (by simp [Memory.wfFrom, h.1.1.2, h.1.2, h.2]; omega)
    · split
      · next he => subst he; exact Memory.read_push_same h.2
      · simp only [Memory.read]; rw [if_neg (by omega)]; exact ih h.2

/-- A write leaves every other address alone. -/
theorem Memory.read_write_other {m : Memory} {a b : Nat} (v : Byte) (hne : b ≠ a) :
    (m.write a v).read b = m.read b := by
  induction m with
  | nil => exact Memory.read_push_other v hne
  | cons c rest ih =>
    simp only [Memory.write]
    split
    · exact Memory.read_push_other v hne
    · split
      · next he => rw [Memory.read_push_other v hne]; simp only [Memory.read]; rw [if_neg (by omega)]
      · simp only [Memory.read]; rw [ih]

/-- The bytes of a page program land in the page of its address, inside the device (R73). -/
theorem programAddr_lt {a i : Nat} (h : a < capacity) : programAddr a i < capacity := by
  simp only [programAddr, pageBase, pageSize, capacity] at *; omega

/-- Programming keeps the canonical form. -/
theorem Memory.program_wf {m : Memory} {a : Nat} (i : Nat) (d : List Byte) (h : m.wf = true) (ha : a < capacity) :
    (m.program a i d).wf = true := by
  induction d generalizing m i with
  | nil => exact h
  | cons b rest ih => exact ih (i + 1) (Memory.write_wfFrom _ h (Nat.zero_le _) (programAddr_lt ha))

theorem Memory.erase_wfFrom {m : Memory} {lo : Nat} (base len : Nat) (h : m.wfFrom lo = true) :
    (m.erase base len).wfFrom lo = true := by
  induction m generalizing lo with
  | nil => rfl
  | cons c rest ih =>
    simp [Memory.wfFrom] at h
    have ihr := ih h.2
    unfold Memory.erase at ihr ⊢
    rw [List.filter_cons]
    split
    · simp only [Memory.wfFrom, ihr]; simp [h.1.1.1, h.1.1.2, h.1.2]
    · exact Memory.wfFrom_mono ihr (by omega)

/-- Erasing keeps the canonical form. -/
theorem Memory.erase_wf {m : Memory} (base len : Nat) (h : m.wf = true) : (m.erase base len).wf = true :=
  Memory.erase_wfFrom base len h

/-- An erased region reads 0xFF (R74). -/
theorem Memory.read_erase_inside {m : Memory} {base len a : Nat} (hl : base ≤ a) (hu : a < base + len) :
    (m.erase base len).read a = erasedByte := by
  induction m with
  | nil => rfl
  | cons c rest ih =>
    unfold Memory.erase at ih ⊢
    rw [List.filter_cons]
    split
    · next hk =>
      simp only [Memory.read]
      rw [if_neg (by intro he; subst he; simp [hl, hu] at hk)]
      exact ih
    · exact ih

/-- An erase leaves the bytes outside its region alone. -/
theorem Memory.read_erase_outside {m : Memory} {base len a : Nat} (h : a < base ∨ base + len ≤ a) :
    (m.erase base len).read a = m.read a := by
  induction m with
  | nil => rfl
  | cons c rest ih =>
    unfold Memory.erase at ih ⊢
    rw [List.filter_cons]
    split
    · simp only [Memory.read]; rw [ih]
    · next hk =>
      simp only [Memory.read]
      rw [if_neg (by intro he; subst he; simp at hk; omega), ih]

/-- Programming leaves the bytes that no data byte lands on alone. -/
theorem Memory.read_program_other {m : Memory} {a : Nat} (i b : Nat) (d : List Byte)
    (h : ∀ j, j < d.length → b ≠ programAddr a (i + j)) : (m.program a i d).read b = m.read b := by
  induction d generalizing m i with
  | nil => rfl
  | cons v rest ih =>
    have h0 := h 0 (by simp)
    simp only [Memory.program]
    rw [ih (i + 1) (fun j hj => by have := h (j + 1) (by simpa using hj); rwa [Nat.add_right_comm, Nat.add_assoc] at *)]
    exact Memory.read_write_other _ (by simpa using h0)

end Sys2Proof.Machine
end

