-- ==== Sys2Proof/Laws/Chip.lean ====
section
/-! SUPPORT. The chip of the reference oracle keeps its form (`chipFits`) through every answer it gives. -/

namespace Sys2Proof.Safety

open Sys2Proof.Machine

/-- The end of an internal operation keeps the flash in form. -/
theorem chip_complete {c : Chip} (h : chipFits c = true) : chipFits c.complete = true := by
  have mw : c.mem.wf = true := by simp [chipFits] at h; exact h.1
  have : c.applyPending.wf = true := by
      unfold Chip.applyPending
      unfold chipFits at h
      split
      · exact mw
      · rename_i a d hp; simp [hp] at h; exact Memory.program_wf 0 d h.1 h.2
      · exact Memory.erase_wf _ _ mw
  simp [chipFits, Chip.complete, this]

/-- A mutating command inside the device keeps the chip in form. -/
theorem chip_startEffect {c : Chip} (h : chipFits c = true) (e) (he : ∀ a d, e = .program a d → a < capacity) : chipFits (c.startEffect e) = true := by
  have mw : c.mem.wf = true := by simp [chipFits] at h; exact h.1
  unfold Chip.startEffect
  split
  · cases e with
      | program a d => simp [chipFits, mw, he a d rfl]
      | erase => simp [chipFits, mw]
  · exact h

/-- The same for a command with an address. -/
theorem chip_addressed {c c' : Chip} {rx} (h : chipFits c = true) {a e} (he : ∀ a' d, e = .program a' d → a' = a) (hh : c.addressed a e = some (rx, c')) : chipFits c' = true := by
    unfold Chip.addressed at hh
    split at hh
    · split at hh
      · next hlt =>
        simp only [Option.some.injEq, Prod.mk.injEq] at hh
        rw [← hh.2]
        exact chip_startEffect h e (fun a' d hd => by rw [he a' d hd]; exact hlt)
      · cases hh
    · simp only [Option.some.injEq, Prod.mk.injEq] at hh
      rw [← hh.2]; exact h

/-- A command a busy chip ignores. -/
theorem chip_ifIdle {c d : Chip} (h : chipFits c = true) (hd : chipFits d = true) : chipFits (c.ifIdle d) = true := by
  unfold Chip.ifIdle; split <;> assumption
/-- The form looks only at the flash and the effect in flight. -/
theorem chip_congr {c d : Chip} (h : chipFits c = true) (hm : d.mem = c.mem) (hp : d.pending = c.pending) : chipFits d = true := by
  simpa [chipFits, hm, hp] using h

/-- Every answer of the chip keeps its form. -/
theorem chip_take {c c' : Chip} {i rx} (h : chipFits c = true) (ha : c.take i = some (rx, c')) : chipFits c' = true := by
  have hs : ∀ {x : List Byte} {d : Chip}, chipFits d = true → some (x, d) = some (rx, c') → chipFits c' = true := by
    intro x d hd he
    simp only [Option.some.injEq, Prod.mk.injEq] at he
    rw [← he.2]; exact hd
  cases i <;> simp only [Chip.take] at ha
  case readStatus1 =>
    refine hs ?_ ha
    unfold Chip.afterStatus
    split
    · exact h
    · split
      · exact chip_complete h
      · exact chip_congr h rfl rfl
  case writeEnable => refine hs (chip_ifIdle h ?_) ha; exact chip_congr h rfl rfl
  case pageProgram4b => exact chip_addressed h (by intro _ _ h; injection h with h; exact h.symm) ha
  case readData4b => exact hs h ha
  case sectorErase4k4b => exact chip_addressed h (by intro _ _ h; cases h) ha
  case blockErase32k =>
    split at ha
    · cases ha
    · exact chip_addressed h (by intro _ _ h; cases h) ha
  case blockErase64k4b => exact chip_addressed h (by intro _ _ h; cases h) ha
  case chipErase => exact hs (chip_ifIdle h (chip_startEffect h _ (by intro _ _ h; cases h))) ha
  case enableReset => exact hs h ha
  case resetDevice => exact hs h ha
  case enter4ByteMode => refine hs (chip_ifIdle h ?_) ha; exact chip_congr h rfl rfl
  case exit4ByteMode => refine hs (chip_ifIdle h ?_) ha; exact chip_congr h rfl rfl
  all_goals cases ha

/-- The same, through the frame decoder. -/
theorem chip_answer {c c' : Chip} {tx n rx} (h : chipFits c = true) (ha : c.answer tx n = some (rx, c')) : chipFits c' = true := by
  unfold Chip.answer at ha
  split at ha
  · exact chip_take h ha
  · cases ha

end Sys2Proof.Safety
end

