-- ==== Sys2Proof/Laws/Site.lean ====
section
/-! SUPPORT. Where each frame is sent from (R27): the phases and requests that select it, and the running request's name. -/

namespace Sys2Proof.Machine

/-- The call sites of a frame (R27, R87). -/
def frameSite (s : State) : Instr → Prop
  | .readStatus1 => s.phase = .status ∨ s.phase = .pollPre ∨ s.phase = .wrenChk ∨ s.phase = .pollPost
  | .writeEnable => s.phase = .wren
  | .pageProgram4b a d =>
    s.phase = .cmd ∧ ((s.reqOp = .write ∧ a = s.cur ∧ d = s.chunk) ∨ (s.reqOp = .writePage ∧ a = s.argA ∧ d = s.dataIn))
  | .readData4b a n =>
    (s.phase = .cmd ∧ s.reqOp = .read ∧ a = s.argA ∧ n = s.argB.toNat) ∨
      (s.phase = .verify ∧ a = s.vcur ∧ n = s.windowLen)
  | .sectorErase4k4b a => s.phase = .cmd ∧ (s.reqOp = .eraseSector ∨ s.reqOp = .eraseRange) ∧ a = s.regionAddr
  | .blockErase32k a => s.phase = .cmd ∧ s.reqOp = .eraseBlock32k ∧ a = s.regionAddr
  | .blockErase64k4b a => s.phase = .cmd ∧ s.reqOp = .eraseBlock64k ∧ a = s.regionAddr
  | .chipErase => s.phase = .cmd ∧ s.reqOp = .eraseChip
  | .enableReset => s.phase = .rst2
  | .resetDevice => s.phase = .rst1
  | .enter4ByteMode => s.phase = .mode ∧ (s.reqOp = .enter4ByteAddressMode ∨ s.reqOp = .eraseBlock32k)
  | .exit4ByteMode => s.phase = .mode ∧ s.reqOp = .exit4ByteAddressMode
  | .readStatus | .busy | .writeEnabled | .enableWrite | .enter4ByteAddressMode
  | .exit4ByteAddressMode | .read _ _ | .write _ _ | .writePage _ _ | .eraseSector _
  | .eraseBlock32k _ | .eraseBlock64k _ | .eraseChip | .eraseRange _ _ | .reset => False

/-- A selected frame is sent from one of its call sites. -/
theorem nextFrame_site {s : State} {i : Instr} (h : s.nextFrame = some i) : frameSite s i := by
  cases hp : s.phase <;> simp only [State.nextFrame, hp, reduceCtorEq, Option.some.injEq] at h
  case mode =>
    cases ho : s.reqOp <;> simp only [State.modeFrame, ho, reduceCtorEq, Option.some.injEq] at h <;> subst h <;>
      simp [frameSite, hp, ho]
  case cmd =>
    cases ho : s.reqOp <;> simp only [State.commandFrame, ho, reduceCtorEq, Option.some.injEq] at h <;> subst h <;>
      simp [frameSite, hp, ho]
  all_goals subst h; simp [frameSite, hp]

/-- The running request is a request of `REQ_OP`'s name with the latched operands. -/
theorem running_op {s : State} {i : Instr} (h : s.running = i) :
    match i with
    | .readStatus => s.reqOp = .readStatus
    | .busy => s.reqOp = .busy
    | .writeEnabled => s.reqOp = .writeEnabled
    | .enableWrite => s.reqOp = .enableWrite
    | .enter4ByteAddressMode => s.reqOp = .enter4ByteAddressMode
    | .exit4ByteAddressMode => s.reqOp = .exit4ByteAddressMode
    | .read a n => s.reqOp = .read ∧ a = s.argA ∧ n = s.argB
    | .write a d => s.reqOp = .write ∧ a = s.argA ∧ d = s.dataIn
    | .writePage a d => s.reqOp = .writePage ∧ a = s.argA ∧ d = s.dataIn
    | .eraseSector k => s.reqOp = .eraseSector ∧ k = s.argA
    | .eraseBlock32k k => s.reqOp = .eraseBlock32k ∧ k = s.argA
    | .eraseBlock64k k => s.reqOp = .eraseBlock64k ∧ k = s.argA
    | .eraseChip => s.reqOp = .eraseChip
    | .eraseRange a b => s.reqOp = .eraseRange ∧ a = s.argA ∧ b = s.argB
    | .reset => s.reqOp = .reset
    | .readStatus1 | .writeEnable | .pageProgram4b _ _ | .readData4b _ _ | .sectorErase4k4b _
    | .blockErase32k _ | .blockErase64k4b _ | .chipErase | .enableReset | .resetDevice
    | .enter4ByteMode | .exit4ByteMode => False := by
  cases ho : s.reqOp <;> simp only [State.running, ho] at h <;> subst h <;> simp

end Sys2Proof.Machine
end

