-- ==== Sys2Proof/Laws/Operands.lean ====
section
/-! SUPPORT. The tests on operands as plain inequalities (R121, R122, R124), and the bounds on a chunk and a window. -/

namespace Sys2Proof.Machine

@[simp] theorem exceedsCapacity_eq_true (a n : Nat) : exceedsCapacity a n = true ↔ capacity < a + n := by
  simp [exceedsCapacity]

@[simp] theorem exceedsCapacity_eq_false (a n : Nat) : exceedsCapacity a n = false ↔ a + n ≤ capacity := by
  simp [exceedsCapacity]

@[simp] theorem spansPage_eq_true (a n : Nat) : spansPage a n = true ↔ pageSize < a % pageSize + n := by
  simp [spansPage]

@[simp] theorem spansPage_eq_false (a n : Nat) : spansPage a n = false ↔ a % pageSize + n ≤ pageSize := by
  simp [spansPage]

@[simp] theorem misaligned_eq_true (x : Nat) : misaligned x = true ↔ x % sectorSize ≠ 0 := by
  simp [misaligned]

@[simp] theorem misaligned_eq_false (x : Nat) : misaligned x = false ↔ x % sectorSize = 0 := by
  simp [misaligned]

/-- A chunk holds no more bytes than remain. -/
theorem chunkLen_le (s : State) : s.chunkLen ≤ s.dataIn.length - s.off := by
  unfold State.chunkLen firstChunk; split <;> omega

/-- A chunk of a `write` with bytes left is not empty (R122). -/
theorem chunkLen_pos {s : State} (h : s.off < s.dataIn.length) : 0 < s.chunkLen := by
  unfold State.chunkLen firstChunk
  simp only [pageSize]
  split <;> omega

@[simp] theorem chunk_length (s : State) : s.chunk.length = s.chunkLen := by
  have := chunkLen_le s
  simp [State.chunk]; omega

/-- A chunk that does not end the data ends its page (R151). -/
theorem chunk_fills_page {s : State} (hc : s.cur.toNat = s.argA.toNat + s.off)
    (ha : s.off = 0 ∨ s.cur.toNat % pageSize = 0) (h : s.off + s.chunkLen < s.dataIn.length) :
    (s.cur.toNat + s.chunkLen) % pageSize = 0 := by
  unfold State.chunkLen firstChunk at *
  simp only [pageSize] at *
  by_cases h0 : s.off = 0
  · rw [if_pos h0] at h ⊢; omega
  · rw [if_neg h0] at h ⊢; omega

/-- A window lies inside its region and holds at most 64 bytes (R125). -/
theorem windowLen_le (s : State) : s.windowLen ≤ s.regionLen - s.voff ∧ s.windowLen ≤ verifyWindow := by
  unfold State.windowLen; omega

end Sys2Proof.Machine
end

