-- ==== Sys2Proof/Laws/Decide.lean ====
section
/-! SUPPORT. What the rules' own decisions can do: everything between two transfers moves `PHASE`, the cursors, `DATA_OUT` and
`RESULT`, and nothing else; and which phases each decision can lead to. -/

namespace Sys2Proof.Safety

open Sys2Proof.Machine

/-- `t` is `s` after decisions of the rule: only `PHASE`, the cursors, `DATA_OUT` and `RESULT` may differ (R110 kind a). -/
def Decides (s t : State) : Prop :=
  ∃ p cu of ix a o d r,
    t = { s with phase := p, cur := cu, off := of, idx := ix, vcur := a, voff := o, dataOut := d, result := r }

theorem Decides.refl (s : State) : Decides s s := ⟨_, _, _, _, _, _, _, _, rfl⟩

theorem Decides.trans {s t u : State} (h : Decides s t) (h' : Decides t u) : Decides s u := by
  obtain ⟨_, _, _, _, _, _, _, _, rfl⟩ := h
  obtain ⟨_, _, _, _, _, _, _, _, rfl⟩ := h'
  exact ⟨_, _, _, _, _, _, _, _, rfl⟩

theorem decides_goto (s : State) (p : Phase) : Decides s (s.goto p) := ⟨_, _, _, _, _, _, _, _, rfl⟩

theorem decides_raise (s : State) (r : Result) : Decides s (s.raise r) := ⟨_, _, _, _, _, _, _, _, rfl⟩

theorem decides_finish (s : State) (v : Value) : Decides s (s.finish v) := ⟨_, _, _, _, _, _, _, _, rfl⟩

theorem decides_beginPage (a n : Nat) (s : State) : Decides s (beginPage a n s) := by
  unfold beginPage
  split
  · exact decides_raise _ _
  · split
    · exact decides_raise _ _
    · split
      · exact decides_finish _ _
      · exact decides_goto _ _

theorem decides_nextChunk (s : State) : Decides s (nextChunk s) := by
  unfold nextChunk
  split
  · exact decides_beginPage _ _ _
  · exact decides_finish _ _

theorem decides_beginChunks (s : State) : Decides s (beginChunks s) := by
  have h : Decides s { s with cur := s.argA, off := 0 } := ⟨_, _, _, _, _, _, _, _, rfl⟩
  unfold beginChunks
  dsimp only
  split
  · exact h.trans (decides_finish _ _)
  · exact h.trans (decides_beginPage _ _ _)

theorem decides_chunkDone (s : State) : Decides s (chunkDone s) := by
  have h : Decides s { s with cur := s.cur + BitVec.ofNat 32 s.chunkLen, off := s.off + s.chunkLen } :=
    ⟨_, _, _, _, _, _, _, _, rfl⟩
  exact h.trans (decides_nextChunk _)

theorem decides_nextSector (s : State) : Decides s (nextSector s) := by
  unfold nextSector
  split
  · split
    · exact decides_raise _ _
    · exact decides_goto _ _
  · exact decides_finish _ _

theorem decides_sectorDone (s : State) : Decides s (sectorDone s) := by
  have h : Decides s { s with idx := s.idx + 1 } := ⟨_, _, _, _, _, _, _, _, rfl⟩
  exact h.trans (decides_nextSector _)

theorem decides_commandDone (s : State) : Decides s (commandDone s) := by
  unfold commandDone
  split
  · exact decides_chunkDone _
  · exact decides_sectorDone _
  · exact decides_finish _ _

theorem decides_nextWindow (s : State) : Decides s (nextWindow s) := by
  unfold nextWindow
  split
  · exact decides_goto _ _
  · exact decides_commandDone _

theorem decides_afterPollPost (s : State) : Decides s (afterPollPost s) := by
  have h : Decides s { s with vcur := s.regionAddr, voff := 0 } := ⟨_, _, _, _, _, _, _, _, rfl⟩
  unfold afterPollPost
  split
  · exact h.trans (decides_nextWindow _)
  · exact decides_commandDone _

theorem decides_afterWindow (rx : List Byte) (s : State) : Decides s (afterWindow rx s) := by
  have h : Decides s { s with vcur := s.vcur + BitVec.ofNat 32 s.windowLen, voff := s.voff + s.windowLen } :=
    ⟨_, _, _, _, _, _, _, _, rfl⟩
  unfold afterWindow
  split
  · exact h.trans (decides_nextWindow _)
  · exact decides_raise _ _

theorem decides_afterPollPre (s : State) : Decides s (afterPollPre s) := by
  unfold afterPollPre
  split
  · exact decides_beginChunks _
  · exact decides_goto _ _
  · exact decides_goto _ _

theorem decides_afterHandshake (s : State) : Decides s (afterHandshake s) := by
  unfold afterHandshake
  split
  · exact decides_finish _ _
  · exact decides_goto _ _
  · exact decides_goto _ _

theorem decides_afterMode (s : State) : Decides s (afterMode s) := by
  unfold afterMode
  split
  · exact decides_goto _ _
  · exact decides_finish _ _

theorem decides_afterStatusByte (b : Byte) (s : State) : Decides s (afterStatusByte b s) := by
  unfold afterStatusByte
  split
  · split
    · exact decides_afterHandshake _
    · exact decides_raise _ _
  · split
    · exact Decides.refl _
    · exact decides_afterPollPre _
  · split
    · exact Decides.refl _
    · exact decides_afterPollPost _
  · exact decides_finish _ _

theorem decides_afterReadData (rx : List Byte) (s : State) : Decides s (afterReadData rx s) := by
  have h : Decides s { s with dataOut := rx } := ⟨_, _, _, _, _, _, _, _, rfl⟩
  unfold afterReadData
  split
  · exact decides_afterWindow _ _
  · exact h.trans (decides_finish _ _)

theorem decides_checkRead (s : State) : Decides s (checkRead s) := by
  unfold checkRead
  split
  · exact decides_raise _ _
  · split
    · exact decides_finish _ _
    · exact decides_goto _ _

theorem decides_checkWrite (s : State) : Decides s (checkWrite s) := by
  unfold checkWrite
  split
  · exact decides_raise _ _
  · exact decides_goto _ _

theorem decides_checkIndex (n : Nat) (s : State) : Decides s (checkIndex n s) := by
  unfold checkIndex
  split
  · exact decides_raise _ _
  · exact decides_goto _ _

theorem decides_checkRange (s : State) : Decides s (checkRange s) := by
  have h : Decides s { s with idx := s.argA.toNat / sectorSize } := ⟨_, _, _, _, _, _, _, _, rfl⟩
  unfold checkRange
  split
  · exact decides_raise _ _
  · split
    · exact decides_raise _ _
    · exact h.trans (decides_nextSector _)

/-! ### Where a decision leads -/

/-- The phases a rule can be in when it is about to begin something new: a chunk, a sector, a window, or its response. -/
def restarts : Phase → Bool
  | .wren | .pollPre | .verify | .respond => true
  | _ => false

theorem beginPage_phase (a n : Nat) (s : State) : restarts (beginPage a n s).phase = true := by
  unfold beginPage
  repeat' split
  all_goals rfl

theorem nextChunk_phase (s : State) : restarts (nextChunk s).phase = true := by
  unfold nextChunk
  split
  · exact beginPage_phase _ _ _
  · rfl

theorem beginChunks_phase (s : State) : restarts (beginChunks s).phase = true := by
  unfold beginChunks
  dsimp only
  split
  · rfl
  · exact beginPage_phase _ _ _

theorem nextSector_phase (s : State) : restarts (nextSector s).phase = true := by
  unfold nextSector
  repeat' split
  all_goals rfl

theorem commandDone_phase (s : State) : restarts (commandDone s).phase = true := by
  unfold commandDone
  split
  · exact nextChunk_phase _
  · exact nextSector_phase _
  · rfl

theorem nextWindow_phase (s : State) : restarts (nextWindow s).phase = true := by
  unfold nextWindow
  split
  · rfl
  · exact commandDone_phase _

theorem afterPollPost_phase (s : State) : restarts (afterPollPost s).phase = true := by
  unfold afterPollPost
  split
  · exact nextWindow_phase _
  · exact commandDone_phase _

theorem afterWindow_phase (rx : List Byte) (s : State) : restarts (afterWindow rx s).phase = true := by
  unfold afterWindow
  split
  · exact nextWindow_phase _
  · rfl

theorem checkRange_phase (s : State) : restarts (checkRange s).phase = true := by
  unfold checkRange
  split
  · rfl
  · split
    · rfl
    · exact nextSector_phase _

end Sys2Proof.Safety
end

