-- ==== Sys2Proof/Laws/Encoding.lean ====
section
/-! SUPPORT. The address field: four bytes and the address they carry determine each other (R83). -/

namespace Sys2Proof

theorem fromBe32_be32 (a : Addr) :
    fromBe32 (BitVec.ofNat 8 (a.toNat / 2 ^ 24)) (BitVec.ofNat 8 (a.toNat / 2 ^ 16)) (BitVec.ofNat 8 (a.toNat / 2 ^ 8))
      (BitVec.ofNat 8 a.toNat) = a := by
  apply BitVec.eq_of_toNat_eq
  simp only [fromBe32, BitVec.toNat_ofNat]
  have := a.isLt
  omega

/-- The same in the form `simp` brings the four bytes to. -/
theorem fromBe32_be32_simp (a : Addr) :
    fromBe32 (BitVec.ofNat 8 (BitVec.toNat a / 16777216)) (BitVec.ofNat 8 (BitVec.toNat a / 65536))
      (BitVec.ofNat 8 (BitVec.toNat a / 256)) (BitVec.setWidth 8 a) = a := by
  have h : BitVec.setWidth 8 a = BitVec.ofNat 8 a.toNat := by
    apply BitVec.eq_of_toNat_eq
    simp
  rw [h]
  exact fromBe32_be32 a

theorem be32_fromBe32 (b3 b2 b1 b0 : Byte) : be32 (fromBe32 b3 b2 b1 b0).toNat = [b3, b2, b1, b0] := by
  have h3 := b3.isLt
  have h2 := b2.isLt
  have h1 := b1.isLt
  have h0 := b0.isLt
  simp only [be32, fromBe32, BitVec.toNat_ofNat, List.cons.injEq, and_true]
  refine ⟨?_, ?_, ?_, ?_⟩ <;> apply BitVec.eq_of_toNat_eq <;> simp only [BitVec.toNat_ofNat] <;> omega

@[simp] theorem be32_length (a : Nat) : (be32 a).length = 4 := rfl

end Sys2Proof
end

