-- ==== Sys2Proof/Laws/Flow.lean ====
section
/-! SUPPORT. How a procedure runs over answers that are known: one line of pseudocode after the other, a frame, the status
read, the handshake, and a busy-wait with any number of busy answers. -/

namespace Sys2Proof.Safety

open Sys2Proof.Machine

theorem flowThen_ok {α β : Type} {f : Flow α} {g : α → Flow β} {b b' : BusLine} {v : α} (h : f b = some (.ok v, b')) :
    flowThen f g b = g v b' := by
  simp [flowThen, h]

theorem flowThen_error {α β : Type} {f : Flow α} {g : α → Flow β} {b b' : BusLine} {e : Result}
    (h : f b = some (.error e, b')) : flowThen f g b = some (.error e, b') := by
  simp [flowThen, h]

theorem flowNothing_ok {f : Flow Unit} {b b' : BusLine} (h : f b = some (.ok (), b')) :
    flowNothing f b = some (.ok .nothing, b') := by
  simp [flowNothing, flowThen, h, flowReturn]

theorem flowNothing_error {f : Flow Unit} {b b' : BusLine} {e : Result} (h : f b = some (.error e, b')) :
    flowNothing f b = some (.error e, b') := by
  simp [flowNothing, flowThen, h]

theorem flowXfer_ok (tx : List Byte) {n : Nat} (tr : List BusEvent) {rx : List Byte} (rest : List Answer)
    (h : rx.length = n) : flowXfer tx n ⟨tr, .ok rx :: rest⟩ = some (.ok rx, ⟨tr ++ [.frame tx rx], rest⟩) := by
  simp [flowXfer, h]

theorem flowXfer_fail (tx : List Byte) (n : Nat) (tr : List BusEvent) (e : BusErr) (rest : List Answer) :
    flowXfer tx n ⟨tr, .fail e :: rest⟩ = some (.error (.busTransportError e), ⟨tr ++ [.failed tx n e], rest⟩) := rfl

theorem flowSend_ok (tx : List Byte) (tr : List BusEvent) (rest : List Answer) :
    flowSend tx ⟨tr, .ok [] :: rest⟩ = some (.ok (), ⟨tr ++ [sent tx], rest⟩) := by
  simp [flowSend, flowThen, flowXfer_ok, flowReturn, sent]

theorem flowSend_fail (tx : List Byte) (tr : List BusEvent) (e : BusErr) (rest : List Answer) :
    flowSend tx ⟨tr, .fail e :: rest⟩ = some (.error (.busTransportError e), ⟨tr ++ [.failed tx 0 e], rest⟩) := by
  simp [flowSend, flowThen, flowXfer_fail]

theorem flowReadStatus_ok (tr : List BusEvent) (b : Byte) (rest : List Answer) :
    flowReadStatus ⟨tr, .ok [b] :: rest⟩ = some (.ok b, ⟨tr ++ [sr b], rest⟩) := by
  simp [flowReadStatus, flowThen, flowXfer_ok, flowReturn, sr]

theorem flowReadStatus_fail (tr : List BusEvent) (e : BusErr) (rest : List Answer) :
    flowReadStatus ⟨tr, .fail e :: rest⟩ = some (.error (.busTransportError e), ⟨tr ++ [.failed [0x05] 1 e], rest⟩) := by
  simp [flowReadStatus, flowThen, flowXfer_fail]

/-- The handshake over two answers (R133). -/
theorem flowEnableWrite_answered (tr : List BusEvent) (b : Byte) (rest : List Answer) :
    flowEnableWrite ⟨tr, .ok [] :: .ok [b] :: rest⟩ =
      some (if b.getLsbD 1 = true then .ok () else .error .writeEnableFail, ⟨tr ++ [sent [0x06], sr b], rest⟩) := by
  unfold flowEnableWrite
  rw [flowThen_ok (flowSend_ok _ _ _), flowThen_ok (flowReadStatus_ok _ _ _)]
  by_cases h : b.getLsbD 1 = true
  · rw [if_pos (show statusWel b = true from h), if_pos h]
    simp [flowReturn]
  · rw [if_neg (show ¬ statusWel b = true from h), if_neg h]
    simp [flowRaise]

theorem flowPoll_ends (busy : List Byte) :
    ∀ (tr : List BusEvent) (c : Byte) (rest : List Answer) (n : Nat), (∀ x ∈ busy, x.getLsbD 0 = true) →
      c.getLsbD 0 = false → busy.length < n →
      flowPoll n ⟨tr, busy.map (fun x => Answer.ok [x]) ++ .ok [c] :: rest⟩ =
        some (.ok (), ⟨tr ++ busy.map sr ++ [sr c], rest⟩) := by
  induction busy with
  | nil =>
    intro tr c rest n _ hc hn
    obtain ⟨n, rfl⟩ : ∃ m, n = m + 1 := ⟨n - 1, by simp at hn; omega⟩
    simp only [flowPoll, List.map_nil, List.nil_append]
    rw [flowThen_ok (flowReadStatus_ok _ _ _)]
    simp only [statusBusy, hc]
    simp [flowReturn]
  | cons x xs ih =>
    intro tr c rest n hb hc hn
    obtain ⟨n, rfl⟩ : ∃ m, n = m + 1 := ⟨n - 1, by simp at hn; omega⟩
    simp only [flowPoll, List.map_cons, List.cons_append]
    rw [flowThen_ok (flowReadStatus_ok _ _ _)]
    have h := ih (tr ++ [sr x]) c rest n (fun y hy => hb y (List.mem_cons_of_mem _ hy)) hc (by simpa using hn)
    simp only [statusBusy, hb x (List.mem_cons_self ..), if_true, h, List.append_assoc, List.cons_append, List.nil_append]

/-- A busy-wait over any number of busy answers and one that is not (R134). -/
theorem flowBusyWait_ends (busy : List Byte) (tr : List BusEvent) (c : Byte) (rest : List Answer)
    (hb : ∀ x ∈ busy, x.getLsbD 0 = true) (hc : c.getLsbD 0 = false) :
    flowBusyWait ⟨tr, busy.map (fun x => Answer.ok [x]) ++ .ok [c] :: rest⟩ =
      some (.ok (), ⟨tr ++ busy.map sr ++ [sr c], rest⟩) :=
  flowPoll_ends busy tr c rest _ hb hc (by simp)

end Sys2Proof.Safety
end

