-- ==== Sys2Proof/Laws/Step.lean ====
section
/-! SUPPORT. Said once: everything one step of the machine can do. -/

namespace Sys2Proof.Safety

open Sys2Proof.Machine

/-! ### Transfers in the terms of claims -/

/-- A transfer that is answered goes on with the answer. -/
theorem transfer_hears {tx rx : List Byte} {s u : State} (next : List Byte → State → State) (h : Hears tx rx s u) :
    s.transfer tx rx.length next = next rx u := by
  obtain ⟨h1, h2⟩ := h
  unfold State.transfer
  rcases hb : s.busAnswer tx rx.length with ⟨a, v⟩
  rw [hb] at h1 h2
  simp only at h1 h2
  subst h1 h2
  rfl

/-- A transfer that fails raises the bus failure. -/
theorem transfer_fails {tx : List Byte} {n : Nat} {e : BusErr} {s u : State} (next : List Byte → State → State)
    (h : Fails tx n e s u) : s.transfer tx n next = u.raise (.busTransportError e) := by
  obtain ⟨h1, h2⟩ := h
  unfold State.transfer
  rcases hb : s.busAnswer tx n with ⟨a, v⟩
  rw [hb] at h1 h2
  simp only at h1 h2
  subst h1 h2
  rfl

/-- Every transfer is answered or fails (R111). -/
theorem transfers (tx : List Byte) (n : Nat) (s : State) :
    (∃ rx u, rx.length = n ∧ Hears tx rx s u) ∨ ∃ e u, Fails tx n e s u := by
  rcases h : (s.busAnswer tx n).1 with rx | e
  · have hl := busAnswer_ok_length h
    refine .inl ⟨rx, _, hl, ?_, rfl⟩
    rw [hl, h]
  · exact .inr ⟨e, _, h, rfl⟩

/-- What a transfer leaves behind: an answer used or the chip moved, one event more, and nothing else. -/
theorem hears_state {tx rx : List Byte} {s u : State} (h : Hears tx rx s u) :
    ∃ answers chip, u = { s with answers := answers, chip := chip, trace := s.trace ++ [.frame tx rx] } := by
  obtain ⟨answers, chip, hs⟩ := busAnswer_state tx rx.length s
  exact ⟨answers, chip, by rw [h.2, hs]; rfl⟩

/-- The same of a failed transfer. -/
theorem fails_state {tx : List Byte} {n : Nat} {e : BusErr} {s u : State} (h : Fails tx n e s u) :
    ∃ answers chip, u = { s with answers := answers, chip := chip, trace := s.trace ++ [.failed tx n e] } := by
  obtain ⟨answers, chip, hs⟩ := busAnswer_state tx n s
  exact ⟨answers, chip, by rw [h.2, hs]; rfl⟩

/-! ### What an instruction can do -/

/-- What follows a frame's transfer. -/
def frameNext : Instr → List Byte → State → State
  | .readStatus1 => fun rx t => afterStatusByte (rx.headD 0) t
  | .writeEnable => fun _ t => t.goto .wrenChk
  | .pageProgram4b _ _ => fun _ t => t.goto .pollPost
  | .readData4b _ _ => afterReadData
  | .sectorErase4k4b _ => fun _ t => t.goto .pollPost
  | .blockErase32k _ => fun _ t => t.goto .pollPost
  | .blockErase64k4b _ => fun _ t => t.goto .pollPost
  | .chipErase => fun _ t => t.goto .pollPost
  | .enableReset => fun _ t => t.finish .nothing
  | .resetDevice => fun _ t => t.goto .rst2
  | .enter4ByteMode => fun _ t => afterMode t
  | .exit4ByteMode => fun _ t => afterMode t
  | .readStatus | .busy | .writeEnabled | .enableWrite | .enter4ByteAddressMode
  | .exit4ByteAddressMode | .read _ _ | .write _ _ | .writePage _ _ | .eraseSector _
  | .eraseBlock32k _ | .eraseBlock64k _ | .eraseChip | .eraseRange _ _ | .reset => fun _ t => t

/-- What acceptance of a request does. -/
def acceptedBy : Instr → State → State
  | .readStatus => fun s => s.accept .readStatus .status
  | .busy => fun s => s.accept .busy .status
  | .writeEnabled => fun s => s.accept .writeEnabled .status
  | .enableWrite => fun s => s.accept .enableWrite .wren
  | .enter4ByteAddressMode => fun s => s.accept .enter4ByteAddressMode .mode
  | .exit4ByteAddressMode => fun s => s.accept .exit4ByteAddressMode .mode
  | .read a n => fun s => ({ s with argA := a, argB := n }).accept .read .check
  | .write a d => fun s =>
    ({ s with argA := a, argB := BitVec.ofNat 32 d.length, dataIn := d }).accept .write .check
  | .writePage a d => fun s =>
    ({ s with argA := a, argB := BitVec.ofNat 32 d.length, dataIn := d }).accept .writePage .check
  | .eraseSector k => fun s => ({ s with argA := k }).accept .eraseSector .check
  | .eraseBlock32k k => fun s => ({ s with argA := k }).accept .eraseBlock32k .check
  | .eraseBlock64k k => fun s => ({ s with argA := k }).accept .eraseBlock64k .check
  | .eraseChip => fun s => s.accept .eraseChip .pollPre
  | .eraseRange a b => fun s => ({ s with argA := a, argB := b }).accept .eraseRange .check
  | .reset => fun s => s.accept .reset .rst1
  | .readStatus1 | .writeEnable | .pageProgram4b _ _ | .readData4b _ _ | .sectorErase4k4b _
  | .blockErase32k _ | .blockErase64k4b _ | .chipErase | .enableReset | .resetDevice
  | .enter4ByteMode | .exit4ByteMode => fun s => s

/-- What a request does at `CHECK`. -/
def checkedBy : Instr → Option (State → State)
  | .read _ _ => some checkRead
  | .write _ _ => some checkWrite
  | .writePage _ _ => some fun s => beginPage s.argA.toNat s.dataIn.length s
  | .eraseSector _ => some (checkIndex nSectors)
  | .eraseBlock32k _ => some (checkIndex nBlocks32k)
  | .eraseBlock64k _ => some (checkIndex nBlocks64k)
  | .eraseRange _ _ => some checkRange
  | .readStatus | .busy | .writeEnabled | .enableWrite | .enter4ByteAddressMode
  | .exit4ByteAddressMode | .eraseChip | .reset => none
  | .readStatus1 | .writeEnable | .pageProgram4b _ _ | .readData4b _ _ | .sectorErase4k4b _
  | .blockErase32k _ | .blockErase64k4b _ | .chipErase | .enableReset | .resetDevice
  | .enter4ByteMode | .exit4ByteMode => none

/-- A frame is a transfer and what follows it. -/
theorem exec_frame {i : Instr} (h : isRequest i = false) (s : State) : exec i s = sendFrame i (frameNext i) s := by
  cases i <;> first | rfl | cases h

/-- A request is served. -/
theorem exec_request {i : Instr} (h : isRequest i = true) (s : State) :
    exec i s = serve i (acceptedBy i) (checkedBy i) s := by
  cases i <;> first | rfl | cases h

theorem nextFrame_isRequest {s : State} {i : Instr} (h : s.nextFrame = some i) : isRequest i = false := by
  have hs := nextFrame_site h
  cases i <;> first | rfl | exact hs.elim

theorem running_isRequest (s : State) : isRequest s.running = true := by
  cases h : s.reqOp <;> simp [State.running, h, isRequest]

/-- A selected frame is sent, whatever the environment answers. -/
theorem exec_selected {s : State} {i : Instr} (h : s.nextFrame = some i) :
    exec i s = .next (s.transfer (frameTx i) (frameRx i) (frameNext i)) := by
  rw [exec_frame (nextFrame_isRequest h), sendFrame_selected _ h]

/-- Everything an instruction that answers a next state can do: a request is accepted, checked or answered, a frame is
transferred. -/
theorem exec_cases {i : Instr} {s t : State} (h : exec i s = .next t) :
    (isRequest i = true ∧ s.phase = .idle ∧ s.active = false ∧ t = acceptedBy i s) ∨
      (isRequest i = true ∧ s.phase = .check ∧ s.running = i ∧ ∃ f, checkedBy i = some f ∧ t = f s) ∨
      (isRequest i = true ∧ s.phase = .respond ∧ s.running = i ∧ t = s.respond) ∨
      (isRequest i = false ∧ s.nextFrame = some i ∧ t = s.transfer (frameTx i) (frameRx i) (frameNext i)) := by
  cases hi : isRequest i with
  | true =>
    rw [exec_request hi] at h
    rcases serve_next h with ⟨h1, h2, h3⟩ | ⟨h1, h2, h3⟩ | ⟨h1, h2, h3⟩
    · exact .inl ⟨rfl, h1, h2, h3⟩
    · exact .inr (.inl ⟨rfl, h1, h2, h3⟩)
    · exact .inr (.inr (.inl ⟨rfl, h1, h2, h3⟩))
  | false =>
    rw [exec_frame hi] at h
    obtain ⟨h1, h2⟩ := sendFrame_next h
    exact .inr (.inr (.inr ⟨rfl, h1, h2⟩))

/-- What a check decides. -/
theorem decides_checkedBy {i : Instr} {f : State → State} (h : checkedBy i = some f) (s : State) : Decides s (f s) := by
  cases i <;> simp only [checkedBy, reduceCtorEq, Option.some.injEq] at h <;> subst h
  case read => exact decides_checkRead s
  case write => exact decides_checkWrite s
  case writePage => exact decides_beginPage _ _ s
  case eraseRange => exact decides_checkRange s
  all_goals exact decides_checkIndex _ s

/-- What follows a frame's transfer is a decision. -/
theorem decides_frameNext (i : Instr) (rx : List Byte) (s : State) : Decides s (frameNext i rx s) := by
  cases i
  case readStatus1 => exact decides_afterStatusByte _ s
  case readData4b => exact decides_afterReadData _ s
  case enter4ByteMode => exact decides_afterMode s
  case exit4ByteMode => exact decides_afterMode s
  case enableReset => exact decides_finish s _
  case writeEnable => exact decides_goto s _
  case pageProgram4b => exact decides_goto s _
  case sectorErase4k4b => exact decides_goto s _
  case blockErase32k => exact decides_goto s _
  case blockErase64k4b => exact decides_goto s _
  case chipErase => exact decides_goto s _
  case resetDevice => exact decides_goto s _
  all_goals exact Decides.refl s

/-- A frame's transfer and what follows it: one event more, an answer used or the chip moved, and a decision. -/
theorem transfer_decides (i : Instr) (tx : List Byte) (n : Nat) (s : State) :
    ∃ answers chip e, Decides { s with answers := answers, chip := chip, trace := s.trace ++ [e] }
      (s.transfer tx n (frameNext i)) := by
  rcases transfers tx n s with ⟨rx, u, rfl, h⟩ | ⟨e, u, h⟩
  · obtain ⟨a, c, hu⟩ := hears_state h
    refine ⟨a, c, .frame tx rx, ?_⟩
    rw [transfer_hears _ h, hu]
    exact decides_frameNext _ _ _
  · obtain ⟨a, c, hu⟩ := fails_state h
    refine ⟨a, c, .failed tx n e, ?_⟩
    rw [transfer_fails _ h, hu]
    exact decides_raise _ _

/-! ### What a step can do -/

/-- Drawing an abandon choice touches only the choices. -/
theorem abandonChoice_state (s : State) :
    ∃ l n, s.abandonChoice.2 = { s with abandons := l, draws := n } := by
  unfold State.abandonChoice
  split
  · split <;> exact ⟨_, _, rfl⟩
  · exact ⟨_, _, rfl⟩

/-- What `fetch` finds. -/
theorem fetch_cases (s : State) :
    (s.phase = .init ∧ s.fetch = .quiet s.initStep) ∨
    (s.phase = .idle ∧ s.requests = [] ∧ s.fetch = .quiet s) ∨
    (s.phase = .idle ∧ ∃ w r i, s.requests = w :: r ∧ decodeRequest w = .ok i ∧
      s.fetch = .run i ({ s with requests := r }.latch w)) ∨
    (s.phase = .idle ∧ ∃ w r e, s.requests = w :: r ∧ decodeRequest w = .error e ∧ s.fetch = .bad e) ∨
    (inOperation s.phase = true ∧ s.params.abandon = true ∧
      ∃ l n, s.fetch = .quiet (State.abandonOp { s with abandons := l, draws := n })) ∨
    (inOperation s.phase = true ∧ ∃ l n, s.fetch = State.fetchActive { s with abandons := l, draws := n }) := by
  by_cases h1 : s.phase = .init
  · exact .inl ⟨h1, by simp [State.fetch, h1]⟩
  by_cases h2 : s.phase = .idle
  · right
    cases hr : s.requests with
    | nil => exact .inl ⟨h2, rfl, by simp [State.fetch, h2, State.fetchRequest, hr]⟩
    | cons w r =>
      right
      cases hd : decodeRequest w with
      | ok i => exact .inl ⟨h2, w, r, i, rfl, hd, by simp [State.fetch, h2, State.fetchRequest, hr, decode, hd]⟩
      | error e =>
        exact .inr (.inl ⟨h2, w, r, e, rfl, hd, by simp [State.fetch, h2, State.fetchRequest, hr, decode, hd]⟩)
  · right; right; right; right
    have hin : inOperation s.phase = true := by
      cases hp : s.phase <;> first | rfl | exact absurd hp h1 | exact absurd hp h2
    obtain ⟨l, n, hs⟩ := abandonChoice_state s
    have hf : s.fetch = match s.abandonChoice with
        | (true, t) => .quiet t.abandonOp
        | (false, t) => t.fetchActive := by
      unfold State.fetch
      split <;> first | contradiction | rfl
    have hab : s.abandonChoice.1 = true → s.params.abandon = true := by
      unfold State.abandonChoice
      split <;> simp_all
    rw [hf]
    rcases hc : s.abandonChoice with ⟨b, u⟩
    rw [hc] at hs hab
    simp only at hs hab
    subst hs
    cases b
    · exact .inr ⟨hin, l, n, rfl⟩
    · exact .inl ⟨hin, hab rfl, l, n, rfl⟩

/-- Everything one step of the machine that answers a next state can do (R110, R113, R119, R231). -/
theorem step_cases {s t : State} (h : step s = .next t) :
    (s.phase = .init ∧ t = s.initStep) ∨
    (s.phase = .idle ∧ s.requests = [] ∧ t = s) ∨
    (s.phase = .idle ∧ s.active = false ∧ ∃ w r i, s.requests = w :: r ∧ decodeRequest w = .ok i ∧ isRequest i = true ∧
      t = acceptedBy i ({ s with requests := r }.latch w)) ∨
    (inOperation s.phase = true ∧ s.params.abandon = true ∧
      ∃ l n, t = State.abandonOp { s with abandons := l, draws := n }) ∨
    (∃ l n f, s.phase = .check ∧ checkedBy s.running = some f ∧ t = f { s with abandons := l, draws := n }) ∨
    (∃ l n, s.phase = .respond ∧ t = State.respond { s with abandons := l, draws := n }) ∨
    (∃ l n i, inOperation s.phase = true ∧ s.nextFrame = some i ∧
      t = State.transfer (frameTx i) (frameRx i) (frameNext i) { s with abandons := l, draws := n }) := by
  unfold step at h
  rcases fetch_cases s with ⟨hp, hf⟩ | ⟨hp, hr, hf⟩ | ⟨hp, w, r, i, hr, hd, hf⟩ | ⟨hp, w, r, e, hr, hd, hf⟩ |
    ⟨hp, ha, l, n, hf⟩ | ⟨hp, l, n, hf⟩
  · rw [hf] at h; exact .inl ⟨hp, (Host.Outcome.next.inj h).symm⟩
  · rw [hf] at h; exact .inr (.inl ⟨hp, hr, (Host.Outcome.next.inj h).symm⟩)
  · rw [hf] at h
    refine .inr (.inr (.inl ?_))
    rcases exec_cases h with ⟨hi, _, ha, ht⟩ | ⟨_, hc, _⟩ | ⟨_, hc, _⟩ | ⟨_, hn, _⟩
    · exact ⟨hp, ha, w, r, i, hr, hd, hi, ht⟩
    · rw [show _ = s.phase from rfl, hp] at hc; cases hc
    · rw [show _ = s.phase from rfl, hp] at hc; cases hc
    · simp [State.nextFrame, hp] at hn
  · rw [hf] at h; cases h
  · rw [hf] at h; exact .inr (.inr (.inr (.inl ⟨hp, ha, l, n, (Host.Outcome.next.inj h).symm⟩)))
  · refine .inr (.inr (.inr (.inr ?_)))
    rw [hf] at h
    generalize hu : ({ s with abandons := l, draws := n } : State) = u at *
    have hpu : u.phase = s.phase := by subst hu; rfl
    have hnu : u.nextFrame = s.nextFrame := by subst hu; rfl
    have hru : u.running = s.running := by subst hu; rfl
    have run : ∀ i v, u.fetchActive = .run i v →
        v = u ∧ (((u.phase = .check ∨ u.phase = .respond) ∧ u.running = i) ∨ u.nextFrame = some i) := by
      intro i v hq
      unfold State.fetchActive at hq
      split at hq
      · next hc => simp only [Fetched.run.injEq] at hq; exact ⟨hq.2.symm, .inl ⟨.inl hc, hq.1⟩⟩
      · next hc => simp only [Fetched.run.injEq] at hq; exact ⟨hq.2.symm, .inl ⟨.inr hc, hq.1⟩⟩
      · split at hq
        · next hn => simp only [Fetched.run.injEq] at hq; exact ⟨hq.2.symm, .inr (hq.1 ▸ hn)⟩
        · cases hq
    split at h
    · next t' hq =>
      exfalso
      unfold State.fetchActive at hq
      split at hq
      · cases hq
      · cases hq
      · split at hq <;> cases hq
    · next i v hq =>
      obtain ⟨rfl, hv⟩ := run i v hq
      rcases exec_cases h with ⟨_, hc, _⟩ | ⟨_, hc, hr, f, hcb, ht⟩ | ⟨_, hc, _, ht⟩ | ⟨_, hn, ht⟩
      · rw [hpu] at hc; rw [hc] at hp; cases hp
      · exact .inl ⟨l, n, f, hpu ▸ hc, by rw [← hru, hr]; exact hcb, by rw [hu]; exact ht⟩
      · exact .inr (.inl ⟨l, n, hpu ▸ hc, by rw [hu]; exact ht⟩)
      · exact .inr (.inr ⟨l, n, i, hp, hnu ▸ hn, by rw [hu]; exact ht⟩)
    · cases h
    · cases h

/-! ### Running -/

theorem step_frame {s : State} {i : Instr} (ha : s.params.abandon = false) (h : s.nextFrame = some i) :
    step s = exec i s := by
  have hf : s.fetch = .run i s := by
    cases hp : s.phase <;> simp [State.fetch, State.fetchActive, State.abandonChoice, hp, ha, h] <;>
      simp [State.nextFrame, hp] at h
  simp [step, hf]

theorem step_running {s : State} (ha : s.params.abandon = false) (h : s.phase = .check ∨ s.phase = .respond) :
    step s = exec s.running s := by
  have hf : s.fetch = .run s.running s := by
    rcases h with hp | hp <;> simp [State.fetch, State.fetchActive, State.abandonChoice, hp, ha]
  simp [step, hf]

theorem step_respond {s : State} (ha : s.params.abandon = false) (hp : s.phase = .respond) : step s = .next s.respond := by
  rw [step_running ha (.inr hp), exec_request (running_isRequest s)]
  simp [serve, hp]

theorem Reaches.refl (s : State) : Reaches s s := ⟨0, rfl⟩

/-- A run of `j + k` steps is a run of `j` and then one of `k`. -/
theorem run_add (j k : Nat) (s t : State) (h : Host.Core.run Sys2Proof.core j s = .next t) :
    Host.Core.run Sys2Proof.core (j + k) s = Host.Core.run Sys2Proof.core k t := by
  induction j generalizing s with
  | zero => have h := Host.Outcome.next.inj h; subst h; simp
  | succ j ih =>
    rw [Nat.succ_add]
    simp only [Host.Core.run] at h ⊢
    split at h
    · next s' _ => exact ih s' h
    · cases h
    · cases h

theorem Reaches.trans {s t u : State} (h : Reaches s t) (h' : Reaches t u) : Reaches s u := by
  obtain ⟨j, hj⟩ := h
  obtain ⟨k, hk⟩ := h'
  exact ⟨j + k, by rw [run_add j k s t hj, hk]⟩

theorem Reaches.of_step {s t : State} (h : step s = .next t) : Reaches s t := by
  refine ⟨1, ?_⟩
  have hc : Sys2Proof.core.step s = .next t := h
  simp [Host.Core.run, hc]

/-- A decoded request is well formed. -/
theorem decodeRequest_wf {w : ReqWord} {i : Instr} (h : decodeRequest w = .ok i) : i.wf = true := by
  have hd : ∀ {c : Addr → List Byte → Instr}, (∀ a d, (c a d).wf = Sys2Proof.lengthFits d) →
      decodeWithData w c = .ok i → i.wf = true := by
    intro c hc hh
    unfold decodeWithData at hh
    split at hh
    · simp only [Except.ok.injEq] at hh; rw [← hh, hc]; simp [Sys2Proof.lengthFits]; omega
    · cases hh
  unfold decodeRequest at h
  split at h
  all_goals first | exact hd (fun _ _ => rfl) h | (simp only [Except.ok.injEq] at h; rw [← h]; rfl) | cases h

end Sys2Proof.Safety
end

