-- ==== Sys2Proof/Laws/Follow.lean ====
section
/-! SUPPORT. How the step machine follows the pseudocode of `BigStep`, procedure by procedure. -/

namespace Sys2Proof.Safety

open Sys2Proof.Machine

/-- `w` differs from `s` only within one mutating command: in `PHASE`, the verification cursors and the bus. -/
def Like (s w : State) : Prop := ∃ p a o tr an, w = { s with phase := p, vcur := a, voff := o, trace := tr, answers
    := an }

theorem Like.refl (s) : Like s s := ⟨_, _, _, _, _, rfl⟩

theorem Like.trans {s w u} (h : Like s w) (h' : Like w u) : Like s u := by
  obtain ⟨_, _, _, _, _, rfl⟩ := h
  obtain ⟨_, _, _, _, _, rfl⟩ := h'
  exact ⟨_, _, _, _, _, rfl⟩

theorem Like.goto {s w} (h : Like s w) (p) : Like s (w.goto p) := by
  obtain ⟨_, _, _, _, _, rfl⟩ := h
  exact ⟨_, _, _, _, _, rfl⟩

theorem Scripted.like {s w : State} (h : Scripted s) (hl : Like s w) : Scripted w := by
  obtain ⟨_, _, _, _, _, rfl⟩ := hl; exact ⟨h.1, h.2⟩

/-- `w` differs from `s` only in the bus. -/
def Same (s w : State) : Prop := ∃ tr an, w = { s with trace := tr, answers := an }

/-- One step at a selected frame is one `Xfer` of the procedure and what follows it. -/
theorem step_xfer {s : State} {i : Instr} {tx n} {K : List Byte → State → State} (hs : Scripted s)
   (hn : s.nextFrame = some i) (htx : frameTx i = tx) (hrx : frameRx i = n)
   (he : exec i s = sendFrame i K s) :
   ∀ r b', flowXfer tx n ⟨s.trace, s.answers⟩ = some (r, b') → 
    step s = .next (match r with | .ok v => K v {s with trace := b'.trace, answers := b'.answers} | .error e => State.raise e {s with trace := b'.trace, answers := b'.answers}) := by
  intro r b' hr
  have hst : step s = .next (s.transfer tx n K) := by
    rw [step_frame hs.2 hn, he, sendFrame_selected K hn, htx, hrx]
  unfold flowXfer at hr
  cases ha : s.answers with
  | nil => rw [ha] at hr; cases hr
  | cons a rest =>
    rw [ha] at hr
    cases a with
    | fail e =>
      simp only [Option.some.injEq, Prod.mk.injEq] at hr
      obtain ⟨rfl, rfl⟩ := hr
      rw [transfer_fail K hs.1 ha] at hst
      exact hst
    | ok rx =>
      simp only at hr
      split at hr
      · next hl =>
        simp only [Option.some.injEq, Prod.mk.injEq] at hr
        obtain ⟨rfl, rfl⟩ := hr
        rw [transfer_ok K hs.1 ha hl] at hst
        exact hst
      · cases hr

/-- The step machine at `s` mirrors the procedure `f`: it reaches what `K` does with the value, or the error. -/
def Mirrors {α} (s : State) (f : Flow α) (K : α → State → State) : Prop :=
  ∀ r b', f ⟨s.trace, s.answers⟩ = some (r, b') → 
    Reaches s (match r with | .ok v => K v {s with trace := b'.trace, answers := b'.answers} | .error e => State.raise e {s with trace := b'.trace, answers := b'.answers})

theorem mirrors_xfer {s : State} {i : Instr} {tx n} {K : List Byte → State → State} (hs : Scripted s)
   (hn : s.nextFrame = some i) (htx : frameTx i = tx) (hrx : frameRx i = n)
   (he : exec i s = sendFrame i K s) : Mirrors s (flowXfer tx n) K :=
  fun r b' hr => by
    have := Reaches.of_step (step_xfer hs hn htx hrx he r b' hr)
    cases r <;> exact this

theorem mirrors_map {α β} {s : State} {f : Flow α} {g : α → β} {K : β → State → State} (h
    : Mirrors s f (fun v => K (g v))) :
   Mirrors s (flowThen f fun v => flowReturn (g v)) K := by
  intro r b' hr
  unfold flowThen at hr
  split at hr
  · cases hr
  · next e b1 h1 =>
    simp only [Option.some.injEq, Prod.mk.injEq] at hr
    obtain ⟨rfl, rfl⟩ := hr
    exact h _ _ h1
  · next v b1 h1 =>
    simp only [flowReturn, Option.some.injEq, Prod.mk.injEq] at hr
    obtain ⟨rfl, rfl⟩ := hr
    exact h _ _ h1

/-- A status read (R130). -/
theorem mirrors_status {s : State} (hs : Scripted s)
    (hp : s.phase = .status ∨ s.phase = .pollPre ∨ s.phase = .wrenChk ∨ s.phase = .pollPost) :
   Mirrors s flowReadStatus afterStatusByte := by
  refine mirrors_map (g := fun rx => rx.headD 0) (K := afterStatusByte) (mirrors_xfer hs (i := .readStatus1) ?_ rfl rfl rfl)
  rcases hp with hp | hp | hp | hp <;> simp [State.nextFrame, hp]

/-- A frame that receives nothing. -/
theorem mirrors_send {s : State} {i tx} {K : State → State} (hs : Scripted s) (hn : s.nextFrame = some i)
    (htx : frameTx i = tx) (hrx : frameRx i = 0)
   (he : exec i s = sendFrame i (fun _ t => K t) s) : Mirrors s (flowSend tx) (fun _ => K) :=
  mirrors_map (g := fun _ => ()) (K := fun _ => K) (mirrors_xfer hs hn htx hrx he)

/-- A busy-wait: the machine loops as the procedure does (R134, R135). -/
theorem mirrors_poll {s : State} (hs : Scripted s) (n : Nat) (K : State → State)
    (hp : s.phase = .pollPre ∨ s.phase = .pollPost)
   (hK : ∀ w sr, Same s w → afterStatusByte sr w = if statusBusy sr then w else K w)
    : Mirrors s (flowPoll n) (fun _ => K) := by
  induction n generalizing s with
  | zero => intro r b' hr; cases hr
  | succ n ih =>
    intro r b' hr
    simp only [flowPoll] at hr
    have hd := mirrors_status hs (by rcases hp with hp | hp <;> simp [hp])
    unfold flowThen at hr
    split at hr
    · cases hr
    · next e b1 h1 =>
      simp only [Option.some.injEq, Prod.mk.injEq] at hr
      obtain ⟨rfl, rfl⟩ := hr
      exact hd _ _ h1
    · next sr b1 h1 =>
      have h2 := hd _ _ h1
      simp only at h2
      rw [hK _ _ ⟨_, _, rfl⟩] at h2
      beta_reduce at hr
      split at hr
      · next hb =>
        rw [if_pos hb] at h2
        refine h2.trans ?_
        exact ih (s := { s with trace := b1.trace, answers := b1.answers }) ⟨hs.1, hs.2⟩ hp (by rintro w sr ⟨tr, an, rfl⟩; exact hK _ _ ⟨_, _, rfl⟩) r b' hr
      · next hb =>
        rw [if_neg hb] at h2
        simp only [flowReturn, Option.some.injEq, Prod.mk.injEq] at hr
        obtain ⟨rfl, rfl⟩ := hr
        exact h2

/-- The leading busy-wait. -/
theorem mirrors_wait_pre {s : State} (hs : Scripted s) (hp : s.phase = .pollPre)
    : Mirrors s flowBusyWait (fun _ => afterPollPre) :=
  mirrors_poll hs _ _ (.inl hp) (by rintro w sr ⟨tr, an, rfl⟩; simp [afterStatusByte, hp])

/-- The trailing busy-wait. -/
theorem mirrors_wait_post {s : State} (hs : Scripted s) (hp : s.phase = .pollPost)
    : Mirrors s flowBusyWait (fun _ => afterPollPost) :=
  mirrors_poll hs _ _ (.inr hp) (by rintro w sr ⟨tr, an, rfl⟩; simp [afterStatusByte, hp])

/-- The outcomes of two lines of a procedure. -/
theorem flowThen_some {α β} {f : Flow α} {g : α → Flow β} {b r b'} (h : flowThen f g b = some (r, b')) :
    (∃ e, f b = some (.error e, b') ∧ r = .error e) ∨ ∃ v b1, f b = some (.ok v, b1) ∧ g v b1 = some (r, b') := by
  unfold flowThen at h
  split at h
  · cases h
  · next e b1 h1 =>
    simp only [Option.some.injEq, Prod.mk.injEq] at h
    obtain ⟨rfl, rfl⟩ := h
    exact .inl ⟨_, h1, rfl⟩
  · next v b1 h1 => exact .inr ⟨_, _, h1, h⟩

/-- The state after an outcome. -/
def ending {α} (K : α → State → State) (u : State) : Except Result α → State
  | .ok v => K v u
  | .error e => u.raise e

/-- Every outcome `o` of a procedure is one the machine reaches from `x`, in a state of `R`. -/
def Follows {α} (R : State → Prop) (x : State) (o : Option (Except Result α × BusLine)) (K : α → State → State) : Prop :=
  ∀ r b', o = some (r, b') → ∃ u, R u ∧ u.trace = b'.trace ∧ u.answers = b'.answers ∧ Reaches x (ending K u r)

/-- Two lines of a procedure, one after the other. -/
theorem Follows.chain {α β} {R : State → Prop} {x b} {f : Flow α} {g : α → Flow β} {K L}
   (hf : Follows R x (f b) K) (hg : ∀ v u, R u → Follows R (K v u) (g v ⟨u.trace, u.answers⟩) L)
    : Follows R x (flowThen f g b) L := by
  intro r b' hr
  rcases flowThen_some hr with ⟨e, h, rfl⟩ | ⟨v, b1, h, h2⟩
  · exact hf _ _ h
  · obtain ⟨u, hu, ht, ha, hre⟩ := hf _ _ h
    have hb : b1 = ⟨u.trace, u.answers⟩ := by rw [ht, ha]
    rw [hb] at h2
    obtain ⟨w, hw, ht', ha', hre'⟩ := hg v u hu _ _ h2
    exact ⟨w, hw, ht', ha', hre.trans hre'⟩

/-- The same, where the second line may change more. -/
theorem Follows.chain' {α β} {R R' : State → Prop} {x b} {f : Flow α} {g : α → Flow β} {K L} (hR : ∀ u, R u → R' u)
   (hf : Follows R x (f b) K) (hg : ∀ v u, R u → Follows R' (K v u) (g v ⟨u.trace, u.answers⟩) L)
    : Follows R' x (flowThen f g b) L := by
  intro r b' hr
  rcases flowThen_some hr with ⟨e, h, rfl⟩ | ⟨v, b1, h, h2⟩
  · obtain ⟨u, hu, rest⟩ := hf _ _ h
    exact ⟨u, hR u hu, rest⟩
  · obtain ⟨u, hu, ht, ha, hre⟩ := hf _ _ h
    have hb : b1 = ⟨u.trace, u.answers⟩ := by rw [ht, ha]
    rw [hb] at h2
    obtain ⟨w, hw, ht', ha', hre'⟩ := hg v u hu _ _ h2
    exact ⟨w, hw, ht', ha', hre.trans hre'⟩

theorem Follows.mono {α} {R R' : State → Prop} {x o} {K : α → State → State} (h : Follows R x o K)
    (hR : ∀ u, R u → R' u) : Follows R' x o K := by
  intro r b' hr
  obtain ⟨u, hu, rest⟩ := h r b' hr
  exact ⟨u, hR u hu, rest⟩

/-- `return`. -/
theorem Follows.ret {α} {R : State → Prop} {x u : State} {v : α} {b : BusLine} {K : α → State → State} (hu : R u)
    (hb : b = ⟨u.trace, u.answers⟩) (h : x = K v u) : Follows R x (flowReturn v b) K := by
  intro r b' hr
  simp only [flowReturn, Option.some.injEq, Prod.mk.injEq] at hr
  obtain ⟨rfl, rfl⟩ := hr
  subst hb
  exact ⟨u, hu, rfl, rfl, by rw [h]; exact Reaches.refl _⟩

/-- `raise`. -/
theorem Follows.err {α} {R : State → Prop} {x u : State} {e : Result} {b : BusLine} {K : α → State → State}
    (hu : R u) (hb : b = ⟨u.trace, u.answers⟩) (h : x = u.raise e) : Follows R x (flowRaise e b) K := by
  intro r b' hr
  simp only [flowRaise, Option.some.injEq, Prod.mk.injEq] at hr
  obtain ⟨rfl, rfl⟩ := hr
  subst hb
  exact ⟨u, hu, rfl, rfl, by rw [h]; exact Reaches.refl _⟩

theorem Follows.of {α} {s0 s : State} {f : Flow α} {K b} (hl : Like s0 s) (h : Mirrors s f K)
    (hb : b = ⟨s.trace, s.answers⟩) : Follows (Like s0) s (f b) K := by
  intro r b' hr
  subst hb
  refine ⟨_, hl.trans ⟨s.phase, s.vcur, s.voff, _, _, rfl⟩, rfl, rfl, ?_⟩
  have := h r b' hr
  cases r <;> exact this

/-- `enable_write()` (R133). -/
theorem follows_enableWrite {s0 s : State} (hs : Scripted s0) (hl : Like s0 s) (hp : s.phase = .wren) {b}
    (hb : b = ⟨s.trace, s.answers⟩) :
    Follows (Like s0) s (flowEnableWrite b) (fun _ => afterHandshake) := by
  unfold flowEnableWrite
  refine Follows.chain (Follows.of hl (mirrors_send (hs.like hl) (i := .writeEnable) (K := fun t => t.goto .wrenChk) (by simp [State.nextFrame, hp]) rfl rfl rfl) hb) ?_
  rintro _ u hu
  -- need phase: confirmed by goto
  have hd := mirrors_status (s := u.goto .wrenChk) (hs.like (hu.goto _)) (by simp [State.goto])
  intro r b' hr
  rcases flowThen_some hr with ⟨e, h, rfl⟩ | ⟨sr, b1, h, h2⟩
  · exact ⟨_, (hu.goto .wrenChk).trans ⟨_, _, _, _, _, rfl⟩, rfl, rfl, hd _ _ h⟩
  · have h3 := hd _ _ h
    beta_reduce at h2
    have hl3 : Like s0 ({ u.goto .wrenChk with trace := b1.trace, answers := b1.answers }) := (hu.goto .wrenChk).trans ⟨_, _, _, _, _, rfl⟩
    simp only [afterStatusByte, State.goto] at h3
    split at h2
    · next hw =>
      rw [if_pos hw] at h3
      simp only [flowReturn, Option.some.injEq, Prod.mk.injEq] at h2
      obtain ⟨rfl, rfl⟩ := h2
      exact ⟨_, hl3, rfl, rfl, h3⟩
    · next hw =>
      rw [if_neg hw] at h3
      simp only [flowRaise, Option.some.injEq, Prod.mk.injEq] at h2
      obtain ⟨rfl, rfl⟩ := h2
      exact ⟨_, hl3, rfl, rfl, h3⟩

/-- The window loop of verification (R176, R177), from the loop test with `OFF = off` on. -/
theorem windows_follow {s : State} (hs : Scripted s) (A : Nat) (expected : Nat → Nat → List Byte)
   (hA : A = s.regionAddr.toNat) (hb : A + s.regionLen ≤ 2 ^ 32)
   (hexp : ∀ w, Like s w → w.expectedWindow = expected w.voff w.windowLen) :
   ∀ rounds off (w : State), Like s w → w.voff = off → (off < s.regionLen → w.vcur.toNat = A + off) → s.regionLen - off ≤ rounds →
     ∀ r b', flowWindows A s.regionLen expected rounds off ⟨w.trace, w.answers⟩ = some (r, b') →
       ∃ u, Like s u ∧ u.trace = b'.trace ∧ u.answers = b'.answers ∧
        Reaches (nextWindow w) (match r with | .ok _ => commandDone u | .error e => u.raise e) := by
  intro rounds
  induction rounds with
  | zero =>
    intro off w hl hv hc hr r b' hf
    simp only [flowWindows, flowReturn, Option.some.injEq, Prod.mk.injEq] at hf
    obtain ⟨rfl, rfl⟩ := hf
    refine ⟨w, hl, rfl, rfl, ?_⟩
    have : nextWindow w = commandDone w := by
      unfold nextWindow
      have : w.regionLen = s.regionLen := by obtain ⟨_, _, _, _, _, rfl⟩ := hl; rfl
      rw [if_neg (by rw [this, hv]; omega)]
    rw [this]; exact Reaches.refl _
  | succ n ih =>
    intro off w hl hv hc hr r b' hf
    have hrl : w.regionLen = s.regionLen := by obtain ⟨_, _, _, _, _, rfl⟩ := hl; rfl
    simp only [flowWindows] at hf
    split at hf
    · next hlt =>
      have hnw : nextWindow w = w.goto .verify := by unfold nextWindow; rw [if_pos (by rw [hrl, hv]; exact hlt)]
      rw [hnw]
      have hwl : (w.goto .verify).windowLen = min verifyWindow (s.regionLen - off) := by
        have : (w.goto .verify).windowLen = min verifyWindow (w.regionLen - w.voff) := rfl
        rw [this, hrl, hv]
      have hd := mirrors_xfer (s := w.goto .verify) (i := .readData4b w.vcur (w.goto .verify).windowLen) (K := afterReadData)
        (hs.like (hl.goto _)) rfl rfl rfl rfl
      have htx : frameTx (.readData4b w.vcur (w.goto .verify).windowLen) = 0x13 :: be32 (A + off) := by
        simp [frameTx, encode, frameBytes, hc hlt]
      have hrx : frameRx (.readData4b w.vcur (w.goto .verify).windowLen) = min verifyWindow (s.regionLen - off) := by
        simp [frameRx, encode, hwl]
      rw [htx, hrx] at hd
      unfold flowThen flowMemRead at hf
      split at hf
      · cases hf
      · next e b1 hx =>
        simp only [Option.some.injEq, Prod.mk.injEq] at hf
        obtain ⟨rfl, rfl⟩ := hf
        exact ⟨_, (hl.goto .verify).trans ⟨_, _, _, _, _, rfl⟩, rfl, rfl, hd _ _ hx⟩
      · next rx b1 hx =>
        beta_reduce at hf
        have h2 := hd _ _ hx
        generalize hw1 : ({ w.goto .verify with trace := b1.trace, answers := b1.answers } : State) = w1 at h2
        have hl1 : Like s w1 := by subst hw1; exact (hl.goto .verify).trans ⟨_, _, _, _, _, rfl⟩
        have hp1 : w1.phase = .verify := by subst hw1; rfl
        have hv1 : w1.voff = off := by subst hw1; exact hv
        have hc1 : w1.vcur = w.vcur := by subst hw1; rfl
        have hwl1 : w1.windowLen = min verifyWindow (s.regionLen - off) := by subst hw1; exact hwl
        have ht1 : w1.trace = b1.trace := by subst hw1; rfl
        have ha1 : w1.answers = b1.answers := by subst hw1; rfl
        simp only [afterReadData, hp1, afterWindow, hexp w1 hl1, hv1, hwl1] at h2
        split at hf
        · next heq =>
          rw [if_pos heq] at h2
          have hl2 : Like s { w1 with vcur := w1.vcur + BitVec.ofNat 32 (min verifyWindow (s.regionLen - off)), voff := off + min verifyWindow (s.regionLen - off) } := hl1.trans ⟨_, _, _, _, _, rfl⟩
          have := ih (off + min verifyWindow (s.regionLen - off)) _ hl2 rfl ?_ ?_ r b' (by simpa [ht1, ha1] using hf)
          · obtain ⟨u, hu, hut, hua, hre⟩ := this
            exact ⟨u, hu, hut, hua, h2.trans hre⟩
          · intro hlt2
            have := hc hlt
            simp only [hc1, BitVec.toNat_add, BitVec.toNat_ofNat]
            omega
          · simp only [verifyWindow] at *; omega
        · next hne =>
          rw [if_neg hne] at h2
          simp only [flowRaise, Option.some.injEq, Prod.mk.injEq] at hf
          obtain ⟨rfl, rfl⟩ := hf
          exact ⟨w1, hl1, ht1, ha1, h2⟩
    · next hge =>
      simp only [flowReturn, Option.some.injEq, Prod.mk.injEq] at hf
      obtain ⟨rfl, rfl⟩ := hf
      refine ⟨w, hl, rfl, rfl, ?_⟩
      have : nextWindow w = commandDone w := by unfold nextWindow; rw [if_neg (by rw [hrl, hv]; omega)]
      rw [this]; exact Reaches.refl _

/-- Verification, if enabled (R175). -/
theorem follows_verify {s w : State} (hs : Scripted s) (hl : Like s w) (A : Nat) (expected : Nat → Nat → List Byte)
   (hA : A = s.regionAddr.toNat) (hb : A + s.regionLen ≤ 2 ^ 32)
   (hexp : ∀ w, Like s w → w.expectedWindow = expected w.voff w.windowLen) :
    Follows (Like s) (afterPollPost w) ((if s.params.verifyEn then flowWindows A s.regionLen expected s.regionLen 0 else flowReturn ()) ⟨w.trace, w.answers⟩) (fun _ => commandDone) := by
  intro r b' hf
  have hpar : w.params = s.params := by obtain ⟨_, _, _, _, _, rfl⟩ := hl; rfl
  have hreg : w.regionAddr = s.regionAddr := by obtain ⟨_, _, _, _, _, rfl⟩ := hl; rfl
  unfold afterPollPost
  rw [hpar]
  split at hf
  · next hv =>
    rw [if_pos hv]
    unfold beginVerify
    obtain ⟨u, h1, h2, h3, h4⟩ := windows_follow hs A expected hA hb hexp s.regionLen 0 _ (hl.trans ⟨_, _, _, _, _, rfl⟩) rfl (fun _ => (by rw [hA, ← hreg]; rfl)) (by omega) r b' hf
    exact ⟨u, h1, h2, h3, by cases r <;> exact h4⟩
  · next hv =>
    rw [if_neg hv]
    simp only [flowReturn, Option.some.injEq, Prod.mk.injEq] at hf
    obtain ⟨rfl, rfl⟩ := hf
    exact ⟨w, hl, rfl, rfl, Reaches.refl _⟩

/-- A mutating command: its frame, the trailing busy-wait, verification (R152, R160). -/
theorem follows_command {s0 s : State} (hs : Scripted s0) (hl : Like s0 s) (hp : s.phase = .cmd) {i : Instr}
    {tx : List Byte} (hn : s.commandFrame = some i)
   (htx : frameTx i = tx) (hrx : frameRx i = 0) (he : exec i s = sendFrame i (fun _ t => t.goto .pollPost) s)
   (A : Nat) (expected : Nat → Nat → List Byte)
   (hA : A = s0.regionAddr.toNat) (hb : A + s0.regionLen ≤ 2 ^ 32)
   (hexp : ∀ w, Like s0 w → w.expectedWindow = expected w.voff w.windowLen) :
   Follows (Like s0) s (flowThen (flowSend tx) (fun _ => flowThen flowBusyWait fun _ => if s0.params.verifyEn then flowWindows A s0.regionLen expected s0.regionLen 0 else flowReturn ()) ⟨s.trace, s.answers⟩) (fun _ u => commandDone u) := by
  refine Follows.chain (Follows.of hl (mirrors_send (hs.like hl) (K := fun t => t.goto .pollPost) (by simp [State.nextFrame, hp, hn]) htx hrx he) rfl) ?_
  rintro _ u hu
  refine Follows.chain (Follows.of (hu.goto _) (mirrors_wait_post (hs.like (hu.goto _)) rfl) rfl) ?_
  rintro _ w hw
  exact follows_verify hs hw A expected hA hb hexp

/-- `write_page` from its precondition on (R152). -/
theorem follows_page {s0 s : State} (hs : Scripted s0) (hl : Like s0 s) (A : Addr) (chunk : List Byte)
    (hop : s0.reqOp = .write ∨ s0.reqOp = .writePage)
   (hn : s0.commandFrame = some (.pageProgram4b A chunk)) (hA : s0.regionAddr = A)
    (hlen : s0.regionLen = chunk.length)
   (hexp : ∀ w, Like s0 w → w.expectedWindow = (chunk.drop w.voff).take w.windowLen)
   (hskip : chunk.length = 0 → s0.params.emptyXfer = .skip → s0.reqOp = .writePage) :
   Follows (Like s0) (beginPage A.toNat chunk.length s) (flowWritePage s0.params A.toNat chunk ⟨s.trace, s.answers⟩) (fun _ => commandDone) := by
  have hpar : s.params = s0.params := by obtain ⟨_, _, _, _, _, rfl⟩ := hl; rfl
  have hreq : s.reqOp = s0.reqOp := by obtain ⟨_, _, _, _, _, rfl⟩ := hl; rfl
  unfold flowWritePage beginPage
  by_cases h1 : pageSize < A.toNat % pageSize + chunk.length
  · rw [if_pos h1, if_pos (by simpa using h1)]
    exact Follows.err hl rfl rfl
  rw [if_neg h1, if_neg (by simpa using h1)]
  by_cases h2 : s0.params.pageCapCheck = true ∧ capacity < A.toNat + chunk.length
  · rw [if_pos h2, if_pos (by rw [hpar]; simpa using h2)]
    exact Follows.err hl rfl rfl
  rw [if_neg h2, if_neg (by rw [hpar]; simpa using h2)]
  by_cases h3 : chunk.length = 0 ∧ s0.params.emptyXfer = .skip
  · rw [if_pos h3, if_pos (by rw [hpar]; exact h3)]
    refine Follows.ret hl rfl ?_
    simp [commandDone, hreq, hskip h3.1 h3.2]
  rw [if_neg h3, if_neg (by rw [hpar]; exact h3)]
  refine Follows.chain (follows_enableWrite hs (hl.goto .wren) rfl rfl) ?_
  rintro _ u hu
  have hru : u.reqOp = s0.reqOp := by obtain ⟨_, _, _, _, _, rfl⟩ := hu; rfl
  have hcu : u.commandFrame = s0.commandFrame := by obtain ⟨_, _, _, _, _, rfl⟩ := hu; rfl
  have : afterHandshake u = u.goto .cmd := by rcases hop with h | h <;> simp [afterHandshake, hru, h]
  rw [this]
  have hb := A.isLt
  have := follows_command hs (hu.goto .cmd) rfl (i := .pageProgram4b A chunk) (hcu.trans hn) rfl rfl rfl A.toNat (fun off w => (chunk.drop off).take w) (by rw [hA]) (by rw [hlen]; simp only [pageSize] at h1; omega) hexp
  rw [hlen] at this
  exact this

/-- `w` differs from `s` only within one operation. -/
def Kin (s w : State) : Prop :=
  ∃ p cu of ix a o d rs tr an,
    w = { s with phase := p, cur := cu, off := of, idx := ix, vcur := a, voff := o, dataOut := d, result := rs,
                 trace := tr, answers := an }

theorem Like.kin {s w} (h : Like s w) : Kin s w := by
  obtain ⟨_, _, _, _, _, rfl⟩ := h; exact ⟨_, _, _, _, _, _, _, _, _, _, rfl⟩

theorem Kin.trans {s w u} (h : Kin s w) (h' : Kin w u) : Kin s u := by
  obtain ⟨_, _, _, _, _, _, _, _, _, _, rfl⟩ := h
  obtain ⟨_, _, _, _, _, _, _, _, _, _, rfl⟩ := h'
  exact ⟨_, _, _, _, _, _, _, _, _, _, rfl⟩

theorem Scripted.kin {s w} (h : Scripted s) (hl : Kin s w) : Scripted w := by
  obtain ⟨_, _, _, _, _, _, _, _, _, _, rfl⟩ := hl; exact ⟨h.1, h.2⟩

theorem Kin.refl (s) : Kin s s := ⟨_, _, _, _, _, _, _, _, _, _, rfl⟩

/-- `write_page` called from `write`. -/
theorem follows_page_write {s0 s : State} (hs : Scripted s0) (hl : Like s0 s) (hop : s0.reqOp = .write)
    (hskip : s0.chunk.length = 0 → s0.params.emptyXfer ≠ .skip) :
   Follows (Like s0) (beginPage s0.cur.toNat s0.chunk.length s) (flowWritePage s0.params s0.cur.toNat s0.chunk ⟨s.trace, s.answers⟩) (fun _ => commandDone) := by
  refine follows_page hs hl s0.cur s0.chunk (.inl hop) (by simp [State.commandFrame, hop]) (by simp [State.regionAddr, hop]) (by simp [State.regionLen, hop]) ?_ (fun h h' => absurd h' (hskip h))
  rintro w hw
  have : w.reqOp = .write := by obtain ⟨_, _, _, _, _, rfl⟩ := hw; exact hop
  have hc : w.chunk = s0.chunk := by obtain ⟨_, _, _, _, _, rfl⟩ := hw; rfl
  simp only [State.expectedWindow, this, hc]

/-- The chunk loop of `write` (R150 step 4). -/
theorem follows_chunks {s0 : State} (hs : Scripted s0) (hop : s0.reqOp = .write) :
    ∀ rounds cur off (s : State), Kin s0 s → s.cur.toNat = cur → s.off = off → (off = 0 → s0.dataIn.length = 0) → cur + (s0.dataIn.length - off) ≤ capacity →
      s0.dataIn.length - off ≤ rounds →
      Follows (Kin s0) (nextChunk s) (flowChunks s0.params s0.dataIn rounds cur off ⟨s.trace, s.answers⟩) (fun _ u => u.finish .nothing) := by
  intro rounds
  induction rounds with
  | zero =>
    intro cur off s hl hcur hoff h0 hb hr
    have hd : s.dataIn = s0.dataIn := by obtain ⟨_, _, _, _, _, _, _, _, _, _, rfl⟩ := hl; rfl
    exact Follows.ret hl rfl (by unfold nextChunk; rw [if_neg (by rw [hd, hoff]; omega)])
  | succ n ih =>
    intro cur off s hl hcur hoff h0 hb hr
    have hd : s.dataIn = s0.dataIn := by obtain ⟨_, _, _, _, _, _, _, _, _, _, rfl⟩ := hl; rfl
    have hpar : s.params = s0.params := by obtain ⟨_, _, _, _, _, _, _, _, _, _, rfl⟩ := hl; rfl
    have hreq : s.reqOp = .write := by obtain ⟨_, _, _, _, _, _, _, _, _, _, rfl⟩ := hl; exact hop
    unfold flowChunks
    split
    · next hlt =>
      have hne : s.off ≠ 0 := by omega
      have hcl : s.chunkLen = min pageSize (s0.dataIn.length - off) := by unfold State.chunkLen; rw [if_neg hne, hd, hoff]
      have hch : s.chunk = (s0.dataIn.drop off).take (min pageSize (s0.dataIn.length - off)) := by unfold State.chunk; rw [hcl, hd, hoff]
      have hpos := chunkLen_pos (s := s) (by rw [hd, hoff]; exact hlt)
      have hnx : nextChunk s = beginPage s.cur.toNat s.chunk.length s := by unfold nextChunk; rw [if_pos (by rw [hd, hoff]; exact hlt)]; simp
      rw [hnx]
      refine Follows.chain' (R := Like s) (K := fun _ => commandDone) (fun u hu => hl.trans hu.kin) ?_ ?_
      · have h := follows_page_write (hs.kin hl) (Like.refl s) hreq (by simp only [chunk_length]; omega)
        rw [hpar, hcur, hch] at h
        rw [hcur, hch]
        exact h
      · rintro _ u hu
        have hu1 : commandDone u = nextChunk { u with cur := u.cur + BitVec.ofNat 32 u.chunkLen, off := u.off + u.chunkLen } := by
          have : u.reqOp = .write := by obtain ⟨_, _, _, _, _, rfl⟩ := hu; exact hreq
          simp [commandDone, this, chunkDone]
        have hcu : u.chunkLen = min pageSize (s0.dataIn.length - off) := by rw [← hcl]; obtain ⟨_, _, _, _, _, rfl⟩ := hu; rfl
        have hou : u.off = off := by rw [← hoff]; obtain ⟨_, _, _, _, _, rfl⟩ := hu; rfl
        have hcc : u.cur.toNat = cur := by rw [← hcur]; obtain ⟨_, _, _, _, _, rfl⟩ := hu; rfl
        rw [hu1, hcu, hou]
        refine ih _ _ { u with cur := u.cur + BitVec.ofNat 32 (min pageSize (s0.dataIn.length - off)), off := off + min pageSize (s0.dataIn.length - off) } ?_ ?_ rfl ?_ ?_ ?_
        · exact (hl.trans hu.kin).trans ⟨_, _, _, _, _, _, _, _, _, _, rfl⟩
        · simp only [BitVec.toNat_add, BitVec.toNat_ofNat, hcc]
          simp only [capacity, pageSize] at *; omega
        · intro _; omega
        · omega
        · simp only [pageSize] at *; omega
    · next hge => exact Follows.ret hl rfl (by unfold nextChunk; rw [if_neg (by rw [hd, hoff]; omega)])

/-- `write` from its precondition on (R150). -/
theorem follows_write {s0 : State} (hs : Scripted s0) (hop : s0.reqOp = .write) :
    Follows (Kin s0) (checkWrite s0) (flowWrite s0.params s0.argA.toNat s0.dataIn ⟨s0.trace, s0.answers⟩) (fun _ u => u.finish .nothing) := by
  unfold checkWrite flowWrite
  by_cases h1 : capacity < s0.argA.toNat + s0.dataIn.length
  · rw [if_pos h1, if_pos (by simpa using h1)]; exact Follows.err (Kin.refl _) rfl rfl
  rw [if_neg h1, if_neg (by simpa using h1)]
  refine Follows.chain' (R := Like s0) (fun u hu => hu.kin) (Follows.of ((Like.refl s0).goto _) (mirrors_wait_pre (hs.like ((Like.refl s0).goto _)) rfl) rfl) ?_
  rintro _ u hu
  have hop' : u.reqOp = .write := by obtain ⟨_, _, _, _, _, rfl⟩ := hu; exact hop
  have hd : u.dataIn = s0.dataIn := by obtain ⟨_, _, _, _, _, rfl⟩ := hu; rfl
  have haa : u.argA = s0.argA := by obtain ⟨_, _, _, _, _, rfl⟩ := hu; rfl
  have hpar : u.params = s0.params := by obtain ⟨_, _, _, _, _, rfl⟩ := hu; rfl
  have hpre : afterPollPre u = beginChunks u := by simp [afterPollPre, hop']
  rw [hpre]
  unfold beginChunks
  generalize ht : ({ u with cur := u.argA, off := 0 } : State) = t
  have hcl : t.chunkLen = min (pageSize - s0.argA.toNat % pageSize) s0.dataIn.length := by
    subst ht; simp [State.chunkLen, firstChunk, hd, haa]
  have hch : t.chunk = s0.dataIn.take (min (pageSize - s0.argA.toNat % pageSize) s0.dataIn.length) := by
    unfold State.chunk; rw [hcl]; subst ht; simp [hd]
  have hkt : Kin s0 t := by subst ht; exact hu.kin.trans ⟨_, _, _, _, _, _, _, _, _, _, rfl⟩
  have htc : t.cur = s0.argA := by subst ht; exact haa
  have hto : t.off = 0 := by subst ht; rfl
  have hbu : (⟨u.trace, u.answers⟩ : BusLine) = ⟨t.trace, t.answers⟩ := by subst ht; rfl
  have htp : t.params = s0.params := by subst ht; exact hpar
  have htr : t.reqOp = .write := by subst ht; exact hop'
  have htd : t.dataIn = s0.dataIn := by subst ht; exact hd
  dsimp only
  rw [hbu, hpar, hcl]
  generalize hf : min (pageSize - s0.argA.toNat % pageSize) s0.dataIn.length = first at *
  by_cases h2 : first = 0 ∧ s0.params.emptyXfer = .skip
  · rw [if_pos h2]
    have h0 : s0.dataIn.length = 0 := by simp only [pageSize] at hf; omega
    rw [if_pos h2]
    show Follows _ _ (flowChunks s0.params s0.dataIn s0.dataIn.length _ _ _) _
    rw [h0]
    exact Follows.ret hkt rfl rfl
  · rw [if_neg h2]
    rw [if_neg h2]
    refine Follows.chain' (R := Like t) (K := fun _ => commandDone) (fun u hu => hkt.trans hu.kin) ?_ ?_
    · have h := follows_page_write (hs.kin hkt) (Like.refl t) htr (by intro h h'; rw [htp] at h'; rw [chunk_length, hcl] at h; exact h2 ⟨h, h'⟩)
      rw [htp, htc, hch, List.length_take] at h
      have hm : min first s0.dataIn.length = first := by omega
      rw [hm] at h
      rw [htc]
      exact h
    · rintro _ v hv
      have hv1 : commandDone v = nextChunk { v with cur := v.cur + BitVec.ofNat 32 v.chunkLen, off := v.off + v.chunkLen } := by
        have : v.reqOp = .write := by obtain ⟨_, _, _, _, _, rfl⟩ := hv; exact htr
        simp [commandDone, this, chunkDone]
      have hcv : v.chunkLen = first := by rw [← hcl]; obtain ⟨_, _, _, _, _, rfl⟩ := hv; rfl
      have hov : v.off = 0 := by rw [← hto]; obtain ⟨_, _, _, _, _, rfl⟩ := hv; rfl
      have hcc : v.cur = s0.argA := by rw [← htc]; obtain ⟨_, _, _, _, _, rfl⟩ := hv; rfl
      rw [hv1, hcv, hov, Nat.zero_add]
      refine follows_chunks hs hop _ _ _ { v with cur := v.cur + BitVec.ofNat 32 first, off := first } ?_ ?_ rfl ?_ ?_ ?_
      · exact (hkt.trans hv.kin).trans ⟨_, _, _, _, _, _, _, _, _, _, rfl⟩
      · simp only [BitVec.toNat_add, BitVec.toNat_ofNat, hcc]
        simp only [capacity, pageSize] at *; omega
      · intro _; simp only [pageSize] at *; omega
      · omega
      · omega

/-- `erase_common` (R160), with the mode frame in either place (R162). -/
theorem follows_erase {s0 s : State} (hs : Scripted s0) (hl : Like s0 s) (hp : s.phase = .pollPre)
  
    (hop : s0.reqOp = .eraseSector ∨ s0.reqOp = .eraseBlock32k ∨ s0.reqOp = .eraseBlock64k ∨ s0.reqOp = .eraseChip ∨ s0.reqOp = .eraseRange)
   {need : Bool} (hneed : need = true ↔ s0.reqOp = .eraseBlock32k)
   {i : Instr} {tx : List Byte} {A len : Nat} (hn : s0.commandFrame = some i) (htx : frameTx i = tx)
    (hrx : frameRx i = 0)
   (he : ∀ s, exec i s = sendFrame i (fun _ t => t.goto .pollPost) s) (hA : A = s0.regionAddr.toNat)
    (hL : len = s0.regionLen) (hb : A + len ≤ 2 ^ 32) :
   Follows (Like s0) s (flowErase s0.params tx A len need ⟨s.trace, s.answers⟩) (fun _ => commandDone) := by
  unfold flowErase
  refine Follows.chain (Follows.of hl (mirrors_wait_pre (hs.like hl) hp) rfl) ?_
  rintro _ u hu
  have hru : ∀ {u}, Like s0 u → u.reqOp = s0.reqOp := by rintro _ ⟨_, _, _, _, _, rfl⟩; rfl
  have hpu : ∀ {u}, Like s0 u → u.params = s0.params := by rintro _ ⟨_, _, _, _, _, rfl⟩; rfl
  have hcu : ∀ {u}, Like s0 u → u.commandFrame = s0.commandFrame := by rintro _ ⟨_, _, _, _, _, rfl⟩; rfl
  have hcmd : ∀ {u}, Like s0 u → Follows (Like s0) (u.goto .cmd) (flowThen (flowSend tx) (fun _ => flowThen flowBusyWait fun _ => if s0.params.verifyEn then flowVerifyErased A len else flowReturn ()) ⟨u.trace, u.answers⟩) (fun _ => commandDone) := by
    intro u hu
    have := follows_command hs (hu.goto .cmd) rfl ((hcu hu).trans hn) htx hrx (he _) A (fun _ w => List.replicate w erasedByte) hA (by rw [← hL]; exact hb) (by
      intro w hw
      have := hru hw
      rcases hop with h | h | h | h | h <;> simp [State.expectedWindow, this, h])
    unfold flowVerifyErased
    rw [hL]
    exact this
  have hmode : ∀ {u}, s0.reqOp = .eraseBlock32k → Like s0 u → Follows (Like s0) (u.goto .mode) (flowSend [0xB7] ⟨u.trace, u.answers⟩) (fun _ => afterMode) := by
    intro u h hu
    have : (u.goto .mode).reqOp = s0.reqOp := hru (hu.goto _)
    exact Follows.of (hu.goto _) (mirrors_send (hs.like (hu.goto _)) (i := .enter4ByteMode) (by show State.modeFrame (u.goto .mode) = _; unfold State.modeFrame; rw [this, h]) rfl rfl rfl) rfl
  by_cases h32 : s0.reqOp = .eraseBlock32k
  · have hnd : need = true := hneed.2 h32
    subst hnd
    have e1 : afterPollPre u = u.goto (match s0.params.modeOrder with | .beforeHandshake => .mode | .afterHandshake => .wren) := by
      unfold afterPollPre; rw [hru hu, h32]; dsimp only; rw [hpu hu]
      all_goals (cases s0.params.modeOrder <;> rfl)
    cases ho : s0.params.modeOrder with
    | beforeHandshake =>
      rw [e1, ho]
      simp only [and_true, if_true, reduceCtorEq, and_false, if_false]
      refine Follows.chain (hmode h32 hu) ?_
      rintro _ v hv
      have e2 : afterMode v = v.goto .wren := by simp [afterMode, hru hv, h32, hpu hv, ho]
      rw [e2]
      refine Follows.chain (follows_enableWrite hs (hv.goto .wren) rfl rfl) ?_
      rintro _ w hw
      have e3 : afterHandshake w = w.goto .cmd := by simp [afterHandshake, hru hw, h32, hpu hw, ho]
      rw [e3]
      exact hcmd hw
    | afterHandshake =>
      rw [e1, ho]
      simp only [and_true, if_true, reduceCtorEq, and_false, if_false]
      show Follows _ _ (flowThen flowEnableWrite _ _) _
      refine Follows.chain (follows_enableWrite hs (hu.goto .wren) rfl rfl) ?_
      rintro _ v hv
      have e2 : afterHandshake v = v.goto .mode := by simp [afterHandshake, hru hv, h32, hpu hv, ho]
      rw [e2]
      refine Follows.chain (hmode h32 hv) ?_
      rintro _ w hw
      have e3 : afterMode w = w.goto .cmd := by simp [afterMode, hru hw, h32, hpu hw, ho]
      rw [e3]
      exact hcmd hw
  · have hnd : need = false := by cases need with | false => rfl | true => exact absurd (hneed.1 rfl) h32
    subst hnd
    have e1 : afterPollPre u = u.goto .wren := by
      rcases hop with h | h | h | h | h
      · simp [afterPollPre, hru hu, h]
      · exact absurd h h32
      · simp [afterPollPre, hru hu, h]
      · simp [afterPollPre, hru hu, h]
      · simp [afterPollPre, hru hu, h]
    rw [e1]
    simp only [Bool.false_eq_true, false_and, if_false]
    show Follows _ _ (flowThen flowEnableWrite _ _) _
    refine Follows.chain (follows_enableWrite hs (hu.goto .wren) rfl rfl) ?_
    rintro _ v hv
    have e2 : afterHandshake v = v.goto .cmd := by
      rcases hop with h | h | h | h | h
      · simp [afterHandshake, hru hv, h]
      · exact absurd h h32
      · simp [afterHandshake, hru hv, h]
      · simp [afterHandshake, hru hv, h]
      · simp [afterHandshake, hru hv, h]
    rw [e2]
    exact hcmd hv

/-- An indexed erase from its precondition on (R161 to R163). -/
theorem follows_index {s0 : State} (hs : Scripted s0) (op : Byte) (count size : Nat) (hcs : count * size ≤ capacity)
    {need : Bool} (hneed : need = true ↔ s0.reqOp = .eraseBlock32k)
   (hop : s0.reqOp = .eraseSector ∨ s0.reqOp = .eraseBlock32k ∨ s0.reqOp = .eraseBlock64k)
   {i : Instr} (hn : s0.commandFrame = some i) (htx : frameTx i = op :: be32 (unitAddr s0.argA.toNat size).toNat)
    (hrx : frameRx i = 0)
   (he : ∀ s, exec i s = sendFrame i (fun _ t => t.goto .pollPost) s)
    (hA : s0.regionAddr = unitAddr s0.argA.toNat size) (hL : s0.regionLen = size) (h0 : 0 < size) :
   Follows (Kin s0) (checkIndex count s0) (flowEraseUnit s0.params op s0.argA.toNat count size need ⟨s0.trace, s0.answers⟩) (fun _ u => u.finish .nothing) := by
  unfold checkIndex flowEraseUnit
  by_cases h1 : count ≤ s0.argA.toNat
  · rw [if_pos h1, if_pos h1]; exact Follows.err (Kin.refl _) rfl rfl
  rw [if_neg h1, if_neg h1]
  have hlt : s0.argA.toNat * size + size ≤ capacity := by
    calc s0.argA.toNat * size + size = (s0.argA.toNat + 1) * size := by ring
      _ ≤ count * size := Nat.mul_le_mul_right _ (by omega)
      _ ≤ _ := hcs
  have hu : (unitAddr s0.argA.toNat size).toNat = s0.argA.toNat * size := by
    simp only [unitAddr, BitVec.toNat_ofNat]; simp only [capacity] at hlt; omega
  rw [hu] at htx
  have := follows_erase hs ((Like.refl s0).goto .pollPre) rfl (by rcases hop with h | h | h <;> simp [h]) hneed hn htx hrx he (A := s0.argA.toNat * size) (by rw [hA, hu]) hL.symm (by simp only [capacity] at hlt; omega)
  intro r b' hr
  obtain ⟨u, hu, ht, ha, hre⟩ := this r b' hr
  refine ⟨u, hu.kin, ht, ha, ?_⟩
  cases r with
  | error e => exact hre
  | ok v =>
    have hru : u.reqOp = s0.reqOp := by obtain ⟨_, _, _, _, _, rfl⟩ := hu; rfl
    have : commandDone u = u.finish .nothing := by rcases hop with h | h | h <;> simp [commandDone, hru, h]
    have hre : Reaches _ (commandDone u) := hre
    rw [this] at hre; exact hre

/-- The sector loop of `erase_range` (R165). -/
theorem follows_sectors {s0 : State} (hs : Scripted s0) (hop : s0.reqOp = .eraseRange) :
    ∀ rounds idx (s : State), Kin s0 s → s.idx = idx → s0.argB.toNat / sectorSize - idx ≤ rounds →
      Follows (Kin s0) (nextSector s) (flowSectors s0.params (s0.argB.toNat / sectorSize) rounds idx ⟨s.trace, s.answers⟩) (fun _ u => u.finish .nothing) := by
  intro rounds
  induction rounds with
  | zero =>
    intro idx s hk hi hr
    have he : s.endSector = s0.argB.toNat / sectorSize := by obtain ⟨_, _, _, _, _, _, _, _, _, _, rfl⟩ := hk; rfl
    exact Follows.ret hk rfl (by unfold nextSector; rw [if_neg (by rw [he, hi]; omega)])
  | succ n ih =>
    intro idx s hk hi hr
    have he : s.endSector = s0.argB.toNat / sectorSize := by obtain ⟨_, _, _, _, _, _, _, _, _, _, rfl⟩ := hk; rfl
    have hpar : s.params = s0.params := by obtain ⟨_, _, _, _, _, _, _, _, _, _, rfl⟩ := hk; rfl
    have hreq : s.reqOp = .eraseRange := by obtain ⟨_, _, _, _, _, _, _, _, _, _, rfl⟩ := hk; exact hop
    unfold flowSectors
    by_cases h : idx < s0.argB.toNat / sectorSize
    · rw [if_pos h]
      refine Follows.chain' (R := Like s) (K := fun _ => commandDone) (fun u hu => hk.trans hu.kin) ?_ ?_
      · unfold nextSector flowEraseSector flowEraseUnit
        rw [if_pos (by rw [he, hi]; exact h), hi]
        by_cases h2 : nSectors ≤ idx
        · rw [if_pos h2, if_pos h2]; exact Follows.err (Like.refl _) rfl rfl
        rw [if_neg h2, if_neg h2]
        have hra : s.regionAddr = unitAddr idx sectorSize := by simp [State.regionAddr, hreq, hi]
        have hu : (unitAddr idx sectorSize).toNat = idx * sectorSize := by
          simp only [unitAddr, BitVec.toNat_ofNat]; simp only [nSectors, sectorSize] at *; omega
        rw [← hpar]
        refine follows_erase (hs.kin hk) ((Like.refl s).goto .pollPre) rfl (by simp [hreq]) (by simp [hreq]) (i := .sectorErase4k4b s.regionAddr) (by simp [State.commandFrame, hreq]) ?_ rfl (fun _ => rfl) (by rw [hra, hu]) (by simp [State.regionLen, hreq]) ?_
        · simp [frameTx, encode, frameBytes, hra, hu]
        · simp only [nSectors, sectorSize] at *; omega
      · rintro _ u hu
        have hru : u.reqOp = .eraseRange := by obtain ⟨_, _, _, _, _, rfl⟩ := hu; exact hreq
        have hiu : u.idx = idx := by obtain ⟨_, _, _, _, _, rfl⟩ := hu; exact hi
        have : commandDone u = nextSector { u with idx := idx + 1 } := by simp [commandDone, hru, sectorDone, hiu]
        rw [this]
        exact ih (idx + 1) { u with idx := idx + 1 } ((hk.trans hu.kin).trans ⟨_, _, _, _, _, _, _, _, _, _, rfl⟩) rfl (by omega)
    · rw [if_neg h]
      exact Follows.ret hk rfl (by unfold nextSector; rw [if_neg (by rw [he, hi]; omega)])

/-- `erase_range` from its precondition on (R165). -/
theorem follows_range {s0 : State} (hs : Scripted s0) (hop : s0.reqOp = .eraseRange) :
    Follows (Kin s0) (checkRange s0) (flowEraseRange s0.params s0.argA.toNat s0.argB.toNat ⟨s0.trace, s0.answers⟩) (fun _ u => u.finish .nothing) := by
  unfold checkRange flowEraseRange
  by_cases h1 : s0.argA.toNat % sectorSize ≠ 0 ∨ s0.argB.toNat % sectorSize ≠ 0
  · rw [if_pos h1, if_pos (by simpa using h1)]; exact Follows.err (Kin.refl _) rfl rfl
  rw [if_neg h1, if_neg (by simpa using h1)]
  by_cases h2 : s0.argB.toNat < s0.argA.toNat
  · rw [if_pos h2, if_pos h2]; exact Follows.err (Kin.refl _) rfl rfl
  rw [if_neg h2, if_neg h2]
  exact follows_sectors hs hop _ _ { s0 with idx := s0.argA.toNat / sectorSize } ⟨_, _, _, _, _, _, _, _, _, _, rfl⟩ rfl (Nat.sub_le _ _)

/-- A procedure that returns nothing. -/
theorem follows_nothing {R} {x : State} {f : Flow Unit} {b} (h : Follows R x (f b) (fun _ u => u.finish .nothing))
    : Follows R x (flowNothing f b) (fun v u => u.finish v) := by
  intro r b' hr
  rcases flowThen_some hr with ⟨e, h1, rfl⟩ | ⟨v, b1, h1, h2⟩
  · exact h _ _ h1
  · simp only [flowReturn, Option.some.injEq, Prod.mk.injEq] at h2
    obtain ⟨rfl, rfl⟩ := h2
    exact h _ _ h1

theorem Follows.step {α} {R : State → Prop} {x y o} {K : α → State → State} (h : Machine.step x = .next y) (hf
    : Follows R y o K) : Follows R x o K := by
  intro r b hr
  obtain ⟨u, h1, h2, h3, h4⟩ := hf r b hr
  exact ⟨u, h1, h2, h3, (Reaches.of_step h).trans h4⟩

end Sys2Proof.Safety
end

