-- ==== Sys2Proof/Laws/Frames.lean ====
section
/-! SUPPORT. A selected frame under each answer of the environment, and where each status byte and each finished command
leads. -/

namespace Sys2Proof.Safety

open Sys2Proof.Machine

theorem frame_code {i : Instr} {tx : List Byte} {n : Nat} (h : encode i = .frame tx n) : frameTx i = tx ∧ frameRx i = n := by
  simp [frameTx, frameRx, h]

/-- A selected frame that is answered. -/
theorem exec_hears {s u : State} {i : Instr} {tx rx : List Byte} {n : Nat} (hn : s.nextFrame = some i)
    (he : encode i = .frame tx n) (hl : rx.length = n) (h : Hears tx rx s u) : exec i s = .next (frameNext i rx u) := by
  obtain ⟨rfl, hr⟩ := frame_code he
  rw [exec_selected hn, hr, ← hl, transfer_hears _ h]

/-- A selected frame that fails. -/
theorem exec_fails {s u : State} {i : Instr} {tx : List Byte} {n : Nat} {e : BusErr} (hn : s.nextFrame = some i)
    (he : encode i = .frame tx n) (h : Fails tx n e s u) : exec i s = .next (u.raise (.busTransportError e)) := by
  obtain ⟨rfl, rfl⟩ := frame_code he
  rw [exec_selected hn, transfer_fails _ h]

/-! ### A status byte at each call site -/

theorem afterStatusByte_latched {b : Byte} {u : State} (h : u.phase = .wrenChk) (hb : b.getLsbD 1 = true) :
    afterStatusByte b u = afterHandshake u := by
  unfold afterStatusByte
  rw [h]
  exact if_pos (show statusWel b = true from hb)

theorem afterStatusByte_notLatched {b : Byte} {u : State} (h : u.phase = .wrenChk) (hb : b.getLsbD 1 = false) :
    afterStatusByte b u = u.raise .writeEnableFail := by
  unfold afterStatusByte
  rw [h]
  exact if_neg (by simp only [statusWel, hb, Bool.false_eq_true, not_false_eq_true])

theorem afterStatusByte_busy {b : Byte} {u : State} (h : u.phase = .pollPre ∨ u.phase = .pollPost)
    (hb : b.getLsbD 0 = true) : afterStatusByte b u = u := by
  unfold afterStatusByte
  rcases h with h | h <;> rw [h] <;> exact if_pos (show statusBusy b = true from hb)

theorem afterStatusByte_pre {b : Byte} {u : State} (h : u.phase = .pollPre) (hb : b.getLsbD 0 = false) :
    afterStatusByte b u = afterPollPre u := by
  unfold afterStatusByte
  rw [h]
  exact if_neg (by simp only [statusBusy, hb, Bool.false_eq_true, not_false_eq_true])

theorem afterStatusByte_post {b : Byte} {u : State} (h : u.phase = .pollPost) (hb : b.getLsbD 0 = false) :
    afterStatusByte b u = afterPollPost u := by
  unfold afterStatusByte
  rw [h]
  exact if_neg (by simp only [statusBusy, hb, Bool.false_eq_true, not_false_eq_true])

/-! ### A finished command -/

/-- Under the invariant's conditions a finished command of `s` goes on as `goesOn` says: the next chunk of a `write` passes
every test of its own. -/
theorem commandDone_goesOn {s v : State}
    (hv : ∃ ph a o tr an ch, v = { s with phase := ph, vcur := a, voff := o, trace := tr, answers := an, chip := ch })
    (hacc : operandsAccepted s = true) (hc : s.reqOp = .write → chunkCursors s = true) : commandDone v = goesOn s v := by
  have e1 : v.reqOp = s.reqOp := by obtain ⟨ph, a, o, tr, an, ch, rfl⟩ := hv; rfl
  have e2 : v.off = s.off := by obtain ⟨ph, a, o, tr, an, ch, rfl⟩ := hv; rfl
  have e3 : v.cur = s.cur := by obtain ⟨ph, a, o, tr, an, ch, rfl⟩ := hv; rfl
  have e4 : v.dataIn = s.dataIn := by obtain ⟨ph, a, o, tr, an, ch, rfl⟩ := hv; rfl
  have e5 : v.argA = s.argA := by obtain ⟨ph, a, o, tr, an, ch, rfl⟩ := hv; rfl
  have e6 : v.idx = s.idx := by obtain ⟨ph, a, o, tr, an, ch, rfl⟩ := hv; rfl
  have e7 : v.argB = s.argB := by obtain ⟨ph, a, o, tr, an, ch, rfl⟩ := hv; rfl
  have e8 : v.chunkLen = s.chunkLen := by unfold State.chunkLen; rw [e2, e4, e5]
  clear hv
  unfold commandDone goesOn
  rw [e1]
  cases ho : s.reqOp <;> simp only
  case write =>
    unfold chunkDone nextChunk
    rw [e8, e2, e3]
    simp only
    rw [e4]
    by_cases hl : s.off + s.chunkLen < s.dataIn.length
    · rw [if_pos hl, if_pos hl]
      have hcc := hc ho
      simp only [chunkCursors, Bool.and_eq_true, Bool.or_eq_true, decide_eq_true_eq] at hcc
      obtain ⟨e, hcc⟩ := hcc
      simp [operandsAccepted, ho] at hacc
      have hfp := chunk_fills_page e (hcc.imp id And.left) hl
      have hcur : (s.cur + BitVec.ofNat 32 s.chunkLen).toNat = s.cur.toNat + s.chunkLen := by
        have := chunkLen_le s
        simp only [capacity] at hacc
        rw [BitVec.toNat_add, BitVec.toNat_ofNat]
        omega
      generalize hx : ({ v with
        dataIn := s.dataIn, cur := s.cur + BitVec.ofNat 32 s.chunkLen, off := s.off + s.chunkLen } : State) = x
      have hxl : x.chunkLen ≤ pageSize ∧ x.chunkLen ≤ s.dataIn.length - (s.off + s.chunkLen) ∧ 0 < x.chunkLen := by
        have g1 : x.dataIn = s.dataIn := by subst hx; rfl
        have g2 : x.off = s.off + s.chunkLen := by subst hx; rfl
        have h1 := chunkLen_le x
        have h2 := chunkLen_pos (s := x) (by rw [g1, g2]; exact hl)
        rw [g1, g2] at h1
        refine ⟨?_, h1, h2⟩
        unfold State.chunkLen firstChunk
        split <;> omega
      have hcap := chunkLen_le s
      unfold beginPage
      simp only [pageSize, capacity] at *
      rw [if_neg (by simp only [spansPage_eq_true, hcur, pageSize]; omega),
        if_neg (by simp only [Bool.and_eq_true, exceedsCapacity_eq_true, hcur, capacity]; omega), if_neg (by omega)]
      subst hx
      simp [State.goto, e1, ho]
    · rw [if_neg hl, if_neg hl]
      simp [State.finish, e1, ho]
  case eraseRange =>
    unfold sectorDone nextSector
    simp only [State.endSector, e6, e7]
    split
    · split
      · simp [State.raise, e1, ho]
      · simp [State.goto, e1, ho]
    · simp [State.finish, e1, ho]
  all_goals simp [State.finish, e1, ho]

end Sys2Proof.Safety
end

