-- ==== Sys2Proof/Laws/Invariant.lean ====
section
/-! SUPPORT. How each decision of the rules treats the invariant `Inv`, one lemma each. -/

namespace Sys2Proof.Safety

open Sys2Proof.Machine

/-- What the invariant says of every phase of an operation. -/
structure Base (s : State) : Prop where
  act : s.active = true
  pins : s.holdPin = .high ∧ s.wpPin = .high ∧ s.initFailed = false
  len : s.reqOp = .write ∨ s.reqOp = .writePage → s.argB.toNat = s.dataIn.length
  chip : chipFits s.chip = true

/-- An operation has it. -/
theorem Inv.base {s} (h : Inv s) (hp : inOperation s.phase = true) : Base s := by
  refine ⟨by rw [h.activeFits, hp], h.inService ?_, h.lengthFits hp, h.chip⟩
  intro hi; rw [hi] at hp; cases hp

/-- It is the invariant, with what the phase asks for besides. -/
theorem Base.inv {s} (h : Base s) (h1 : inOperation s.phase = true) (h2 : usesPhase s.reqOp s.phase = true)
   (h3 : pastCheck s.phase = true → operandsAccepted s = true)
   (h4 : commandPhase s.phase = true → s.reqOp = .write → chunkCursors s = true)
   (h5 : s.phase = .verify → windowCursors s = true) : Inv s :=
  ⟨by rw [h.act, h1], fun _ => h.pins, h2, fun _ => h.len, h3, h4, h5, h.chip⟩

/-- An error keeps the invariant. -/
theorem Base.raise {s} (h : Base s) (r) : Inv (s.raise r) :=
  Base.inv (s := s.raise r) ⟨h.act, h.pins, h.len, h.chip⟩ rfl rfl (by intro h; cases h) (by intro h; cases h) (by intro h; cases h)

/-- A return keeps the invariant. -/
theorem Base.finish {s} (h : Base s) (r) : Inv (s.finish r) :=
  Base.inv (s := s.finish r) ⟨h.act, h.pins, h.len, h.chip⟩ rfl rfl (by intro h; cases h) (by intro h; cases h) (by intro h; cases h)

/-- A move keeps the invariant where the new phase finds what it asks for. -/
theorem Base.goto {s p} (h : Base s) (h1 : inOperation p = true) (h2 : usesPhase s.reqOp p = true)
   (h3 : pastCheck p = true → operandsAccepted s = true)
   (h4 : commandPhase p = true → s.reqOp = .write → chunkCursors s = true)
   (h5 : p = .verify → windowCursors s = true) : Inv (s.goto p) :=
  Base.inv (s := s.goto p) ⟨h.act, h.pins, h.len, h.chip⟩ h1 h2 h3 h4 h5

/-- A transfer keeps the invariant where what follows it does. -/
theorem inv_transfer {tx n next} {s : State} (h : Inv s) (hp : inOperation s.phase = true)
   (hk : ∀ rx answers chip, rx.length = n → Inv ({ s with answers := answers, chip := chip }.record (.frame tx rx)) →
      Inv (next rx ({ s with answers := answers, chip := chip }.record (.frame tx rx)))) : Inv (s.transfer tx n next) := by
  obtain ⟨answers, chip, hc, hh⟩ := transfer_cases tx n next s
  have hcf : chipFits chip = true := by
    rcases hc with rfl | ⟨rx, hc⟩
    · exact h.chip
    · exact chip_answer h.chip hc
  rcases hh with ⟨rx, hl, hh⟩ | ⟨e, hh⟩
  · rw [hh]
    exact hk rx answers chip hl ⟨h.activeFits, h.inService, h.phaseFits, h.lengthFits, h.accepted, h.chunk, h.window, hcf⟩
  · rw [hh]
    have b := h.base hp
    exact Base.raise (s := State.record _ { s with answers := answers, chip := chip }) ⟨b.act, b.pins, b.len, hcf⟩ _

/-- The start of a page program keeps the invariant (R152). -/
theorem inv_beginPage {s : State} {a n} (b : Base s) (ho : s.reqOp = .write ∨ s.reqOp = .writePage)
   (h3 : spansPage a n = false → operandsAccepted s = true) (h4 : s.reqOp = .write → chunkCursors s = true) :
   Inv (beginPage a n s) := by
  unfold beginPage
  split
  · exact b.raise _
  · next hs =>
    split
    · exact b.raise _
    · split
      · exact b.finish _
      · refine b.goto rfl ?_ (fun _ => h3 (by simpa using hs)) (fun _ => h4) (by intro h; cases h)
        rcases ho with ho | ho <;> rw [ho] <;> rfl

/-- So does the next chunk of `write` (R150). -/
theorem inv_nextChunk {s : State} (b : Base s) (ho : s.reqOp = .write) (ha : operandsAccepted s = true)
   (h4 : s.off < s.dataIn.length → chunkCursors s = true) : Inv (nextChunk s) := by
  unfold nextChunk
  split
  · next hl => exact inv_beginPage b (.inl ho) (fun _ => ha) (fun _ => h4 hl)
  · exact b.finish _

/-- So does moving past a chunk: the next one starts a page (R151). -/
theorem inv_chunkDone {s : State} (b : Base s) (ho : s.reqOp = .write) (ha : operandsAccepted s = true)
   (hc : chunkCursors s = true) : Inv (chunkDone s) := by
  unfold chunkDone
  refine inv_nextChunk (s := {s with cur := _, off := _}) ⟨b.act, b.pins, b.len, b.chip⟩ ho (by simpa [operandsAccepted, ho] using ha) ?_
  intro hl
  simp only [chunkCursors, Bool.and_eq_true, Bool.or_eq_true, decide_eq_true_eq] at hc hl ⊢
  simp [operandsAccepted, ho] at ha
  have hle := chunkLen_le s
  obtain ⟨h1, h2⟩ := hc
  have hcur : (s.cur + BitVec.ofNat 32 s.chunkLen).toNat = s.cur.toNat + s.chunkLen := by
    simp only [capacity] at ha
    rw [BitVec.toNat_add, BitVec.toNat_ofNat]; omega
  rw [hcur]
  exact ⟨by omega, .inr ⟨chunk_fills_page h1 (h2.imp id And.left) hl, hl⟩⟩

/-- So does the next sector of `erase_range` (R165). -/
theorem inv_nextSector {s : State} (b : Base s) (ho : s.reqOp = .eraseRange)
  (h1 : misaligned s.argA.toNat = false) (h2 : misaligned s.argB.toNat = false) (h3 : s.argA.toNat ≤ s.argB.toNat) : Inv (nextSector s) := by
  unfold nextSector
  split
  · split
    · exact b.raise _
    · refine b.goto rfl (by rw [ho]; rfl) ?_ (by intro h; cases h) (by intro h; cases h)
      intro _
      simp [operandsAccepted, ho, h1, h2, h3]; omega
  · exact b.finish _

/-- So does the end of a mutating command. -/
theorem inv_commandDone {s : State} (b : Base s) (ho : mutates s.reqOp = true) (ha : operandsAccepted s = true)
   (hc : s.reqOp = .write → chunkCursors s = true) : Inv (commandDone s) := by
  unfold commandDone
  split
  · next h => exact inv_chunkDone b h ha (hc h)
  · next h =>
    simp [operandsAccepted, h] at ha
    exact inv_nextSector ⟨b.act, b.pins, b.len, b.chip⟩ h (by simpa using ha.1.1.1.1) (by simpa using ha.1.1.1.2) ha.1.1.2
  · exact b.finish _

/-- So does the window loop (R176, R177). -/
theorem inv_nextWindow {s : State} (b : Base s) (ho : mutates s.reqOp = true) (ha : operandsAccepted s = true)
   (hc : s.reqOp = .write → chunkCursors s = true) (hw : s.voff < s.regionLen → windowCursors s = true) : Inv (nextWindow s) := by
  unfold nextWindow
  split
  · next hl =>
    refine b.goto rfl ?_ (fun _ => ha) (fun _ => hc) (fun _ => hw hl)
    simpa [usesPhase] using ho
  · exact inv_commandDone b ho ha hc

/-- The region under verification lies below 2^32, so `CUR` does not wrap (R120). -/
theorem region_bound {s : State} (ho : mutates s.reqOp = true) (ha : operandsAccepted s = true)
   (hc : s.reqOp = .write → chunkCursors s = true) : s.regionAddr.toNat + s.regionLen ≤ 2^32 := by
  cases hop : s.reqOp <;> simp only [hop, mutates] at ho hc ha <;> first | cases ho | skip
  all_goals simp [State.regionAddr, State.regionLen, operandsAccepted, hop, unitAddr, chunkCursors] at *
  all_goals simp only [capacity, pageSize, sectorSize, nSectors, block32kSize, nBlocks32k, block64kSize, nBlocks64k] at *
  case write =>
    have hle := chunkLen_le s
    have : s.off ≤ s.dataIn.length := by omega
    omega
  all_goals omega

/-- So does the end of the trailing busy-wait. -/
theorem inv_afterPollPost {s : State} (b : Base s) (ho : mutates s.reqOp = true) (ha : operandsAccepted s = true)
   (hc : s.reqOp = .write → chunkCursors s = true) : Inv (afterPollPost s) := by
  unfold afterPollPost beginVerify
  split
  · next hv =>
    refine inv_nextWindow ⟨b.act, b.pins, b.len, b.chip⟩ ho ha hc ?_
    intro hl
    have : State.regionAddr { s with vcur := s.regionAddr, voff := 0 } = s.regionAddr := rfl
    simp only [windowCursors, this]
    simp [hv]; exact hl
  · exact inv_commandDone b ho ha hc

/-- So does a window of verification. -/
theorem inv_afterWindow {s : State} {rx} (b : Base s) (ho : mutates s.reqOp = true) (ha : operandsAccepted s = true)
   (hc : s.reqOp = .write → chunkCursors s = true) (hw : windowCursors s = true) : Inv (afterWindow rx s) := by
  unfold afterWindow
  split
  · refine inv_nextWindow ⟨b.act, b.pins, b.len, b.chip⟩ ho ha hc ?_
    intro hl
    have hr : State.regionLen { s with vcur := s.vcur + BitVec.ofNat 32 s.windowLen, voff := s.voff + s.windowLen } = s.regionLen := rfl
    have hrb := region_bound ho ha hc
    rw [hr] at hl
    simp [windowCursors] at hw ⊢
    refine ⟨⟨hw.1.1, hl⟩, ?_⟩
    have : State.regionAddr { s with vcur := s.vcur + BitVec.ofNat 32 s.windowLen, voff := s.voff + s.windowLen } = s.regionAddr := rfl
    rw [this, hw.2]
    dsimp at hl
    omega
  · exact b.raise _

/-- A frame keeps the invariant where what follows it does. -/
theorem inv_site {i next} {s t : State} (h : Inv s) (hs : sendFrame i next s = .next t)
     (hk : ∀ rx u, rx.length = frameRx i → s.nextFrame = some i → Inv u → inOperation u.phase = true → u.phase = s.phase → u.reqOp = s.reqOp → Inv (next rx u)) : Inv t := by
    obtain ⟨hn, rfl⟩ := sendFrame_next hs
    have hop : inOperation s.phase = true := by
      cases hp : s.phase <;> simp [State.nextFrame, hp] at hn <;> rfl
    exact inv_transfer h hop (fun rx a c hl hu => hk rx _ hl hn hu hop rfl rfl)

/-- A request keeps the invariant where its acceptance and its check do. -/
theorem inv_served {i acc chk} {s t : State} (h : Inv s) (hs : serve i acc chk s = .next t)
     (h1 : s.phase = .idle → Inv (acc s))
     (h2 : ∀ f, chk = some f → Base s → s.phase = .check → s.running = i → Inv (f s)) : Inv t := by
    rcases serve_next hs with ⟨hp, ha, rfl⟩ | ⟨hp, hr, f, hf, rfl⟩ | ⟨hp, hr, rfl⟩
    · exact h1 hp
    · exact h2 f hf (h.base (by rw [hp]; rfl)) hp hr
    · have b := h.base (by rw [hp]; rfl)
      exact ⟨rfl, fun _ => b.pins, rfl, (by intro h; cases h), (by intro h; cases h), (by intro h; cases h), (by intro h; cases h), b.chip⟩

/-- Acceptance of a request keeps the invariant. -/
theorem inv_accept {s u : State} {op p} (hI : Inv s) (hp : s.phase = .idle) (e1 : u.holdPin = s.holdPin)
    (e2 : u.wpPin = s.wpPin) (e3 : u.initFailed = s.initFailed)
     (e4 : u.chip = s.chip) (hl : op = .write ∨ op = .writePage → u.argB.toNat = u.dataIn.length) (h1 : inOperation p = true) (h2 : commandPhase p = false ∨ (p = .mode ∨ p = .wren)) (h3 : usesPhase op p = true)
     (h4 : pastCheck p = true → (op = .eraseChip ∨ op = .enter4ByteAddressMode ∨ op = .exit4ByteAddressMode ∨ op = .enableWrite)) : Inv (u.accept op p) := by
    have hs := hI.inService (by rw [hp]; intro h; cases h)
    refine Base.inv (s := u.accept op p) ⟨rfl, ?_, hl, ?_⟩ h1 h3 ?_ ?_ ?_
    · simpa [e1, e2, e3] using hs
    · simpa [e4] using hI.chip
    · intro hpc
      rcases h4 hpc with rfl | rfl | rfl | rfl <;> rfl
    · intro hc ho
      have hc' : commandPhase p = true := hc
      have ho' : op = .write := ho
      rcases h2 with h2 | h2
      · rw [h2] at hc'; cases hc'
      · rcases h4 (by rcases h2 with rfl | rfl <;> rfl) with rfl | rfl | rfl | rfl <;> cases ho'
    · intro hv
      have hv' : p = .verify := hv
      subst hv'
      rcases h2 with h2 | h2 | h2 <;> cases h2

/-- What the invariant gives from the handshake to the end of verification. -/
theorem inv_pre {u : State} (hu : Inv u) (hp : commandPhase u.phase = true)
    : Base u ∧ usesPhase u.reqOp u.phase = true ∧ operandsAccepted u = true ∧ (u.reqOp = .write → chunkCursors u = true) := by
    refine ⟨hu.base ?_, hu.phaseFits, hu.accepted ?_, hu.chunk hp⟩ <;> revert hp <;> cases u.phase <;> simp [commandPhase, inOperation, pastCheck]

/-- A mutating frame leads into the trailing busy-wait. -/
theorem inv_toPost {u : State} (hr : u.reqOp ≠ .read) (hu : Inv u) (hc : u.phase = .cmd)
    : Inv (u.goto .pollPost) := by
    obtain ⟨b, h1, h2, h3⟩ := inv_pre hu (by rw [hc]; rfl)
    refine b.goto rfl ?_ (fun _ => h2) (fun _ => h3) (by intro h; cases h)
    rw [hc] at h1
    revert h1 hr; cases u.reqOp <;> simp [usesPhase, mutates]

/-- The end of the leading busy-wait keeps the invariant. -/
theorem inv_afterPollPre {u : State} (hu : Inv u) (hph : u.phase = .pollPre) : Inv (afterPollPre u) := by
        have b := hu.base (by rw [hph]; rfl)
        have ha := hu.accepted (by rw [hph]; rfl)
        have h1 := hu.phaseFits
        rw [hph] at h1
        unfold afterPollPre
        split
        · next hop =>
          unfold beginChunks
          dsimp only
          split
          · refine Base.finish ?_ _; exact ⟨b.act, b.pins, b.len, b.chip⟩
          · refine inv_beginPage ⟨b.act, b.pins, b.len, b.chip⟩ (.inl hop) (fun _ => ?_) (fun _ => ?_)
            · simpa [operandsAccepted, hop] using ha
            · simp [chunkCursors]
        · next hop =>
          refine b.goto ?_ ?_ (fun _ => ha) (fun _ h => ?_) ?_
          · split <;> rfl
          · rw [hop]; split <;> rfl
          · rw [hop] at h; cases h
          · split <;> (intro h; cases h)
        · next ho1 ho2 =>
          refine b.goto rfl ?_ (fun _ => ha) (fun _ h => absurd h (by simpa using ho1)) (by intro h; cases h)
          simp [usesPhase] at h1
          simp [usesPhase, h1]

/-- So does a passed handshake. -/
theorem inv_afterHandshake {u : State} (hu : Inv u) (hph : u.phase = .wrenChk) : Inv (afterHandshake u) := by
        obtain ⟨b, h1, h2, h3⟩ := inv_pre hu (by rw [hph]; rfl)
        unfold afterHandshake
        split
        · exact b.finish _
        · next hop =>
          refine b.goto ?_ ?_ (fun _ => h2) (fun _ => h3) ?_
          · split <;> rfl
          · rw [hop]; split <;> rfl
          · split <;> (intro h; cases h)
        · next ho1 ho2 =>
          refine b.goto rfl ?_ (fun _ => h2) (fun _ => h3) (by intro h; cases h)
          rw [hph] at h1
          simp [usesPhase] at h1
          rcases h1 with h1 | h1
          · exact absurd h1 ho1
          · simp [usesPhase, h1]

/-- So does a mode frame. -/
theorem inv_afterMode {u : State} (hu : Inv u) (hph : u.phase = .mode) : Inv (afterMode u) := by
    obtain ⟨b, h1, h2, h3⟩ := inv_pre hu (by rw [hph]; rfl)
    unfold afterMode
    split
    · next hop =>
      refine b.goto ?_ ?_ (fun _ => h2) (fun _ => h3) ?_
      · split <;> rfl
      · rw [hop]; split <;> rfl
      · split <;> (intro h; cases h)
    · exact b.finish _

/-- So does the index test of an erase. -/
theorem inv_index {s : State} {n op} (b : Base s) (hop : s.reqOp = op) (hu : usesPhase op .pollPre = true)
    (hx : s.argA.toNat < n → operandsAccepted s = true) : Inv (checkIndex n s) := by
    unfold checkIndex
    split
    · exact b.raise _
    · next hb =>
      exact b.goto rfl (by rw [hop]; exact hu) (fun _ => hx (by simpa using hb)) (by intro h; cases h) (by intro h; cases h)

/-- The running request is well formed. -/
theorem running_wf {s : State}
    (h : s.reqOp = .write ∨ s.reqOp = .writePage → s.dataIn.length < 2^32) : s.running.wf = true := by
  cases ho : s.reqOp <;> simp only [ho, reduceCtorEq, or_false, false_or, or_true, true_or, true_implies] at h <;> simp only [State.running, ho, Instr.wf, lengthFits, decide_eq_true_eq]
  all_goals exact h

/-- `INIT` keeps the invariant. -/
theorem inv_initStep {s : State} (h : Inv s) (hp : s.phase = .init) : Inv s.initStep := by
      unfold State.initStep
      split
      · exact h
      · dsimp only
        have hact : s.active = false := by rw [h.activeFits, hp]; rfl
        split
        · exact ⟨hact, fun _ => ⟨rfl, rfl, by simpa using ‹¬ s.initFailed = true›⟩, rfl, (by intro h; cases h), (by intro h; cases h), (by intro h; cases h), (by intro h; cases h), h.chip⟩
        · refine ⟨?_, fun hn => absurd hp hn, ?_, ?_, ?_, ?_, ?_, h.chip⟩
          · show s.active = inOperation s.phase
            rw [hact, hp]; rfl
          · show usesPhase s.reqOp s.phase = true
            rw [hp]; rfl
          all_goals (show _ → _; simp [State.pinsFailed, hp, inOperation, pastCheck, commandPhase])

/-- Under the invariant every selected frame is well formed: a page program stays in its page (R98). -/
theorem nextFrame_wf {s : State} {i} (h : Inv s) (hn : s.nextFrame = some i) : i.wf = true := by
  have hs := nextFrame_site hn
  cases i
  case pageProgram4b a d =>
    simp only [frameSite] at hs
    obtain ⟨hp, hs⟩ := hs
    obtain ⟨b, h1, h2, h3⟩ := inv_pre h (by rw [hp]; rfl)
    simp only [Instr.wf, pageFits, Bool.and_eq_true, decide_eq_true_eq]
    rcases hs with ⟨ho, rfl, rfl⟩ | ⟨ho, rfl, rfl⟩
    · have hc := h3 ho
      simp only [chunkCursors, Bool.and_eq_true, Bool.or_eq_true, decide_eq_true_eq] at hc
      rw [chunk_length]
      obtain ⟨e, hc⟩ := hc
      unfold State.chunkLen firstChunk
      simp only [pageSize] at *
      split <;> omega
    · simp [operandsAccepted, ho] at h2
      simp only [pageSize] at *; omega
  all_goals first | rfl | exact hs.elim

/-- Taking a request word off the port of an idle block keeps the invariant: no rule of an idle block looks at the operands. -/
theorem inv_latch {s : State} (h : Inv s) (hp : s.phase = .idle) (w : ReqWord) (rest : List ReqWord) :
    Inv ({ s with requests := rest }.latch w) := by
  refine ⟨h.activeFits, h.inService, h.phaseFits, ?_, ?_, ?_, ?_, h.chip⟩ <;>
    simp [State.latch, hp, inOperation, pastCheck, commandPhase]

end Sys2Proof.Safety
end

