-- ==== Sys2Proof/Laws/PerInstr.lean ====
section
/-! SUPPORT. Per instruction: its encoding carries the code of its row of `spec/opcode_table.json`, the opcode byte of a
frame (R82, R86) or the 4-bit ordinal of a request (R95). -/

namespace Sys2Proof.Laws.TableCode

/-- The width and the value of the fixed field of an instruction's row. -/
def row : Instr → Nat × Nat
  | .readStatus1 => (8, 0x05)
  | .writeEnable => (8, 0x06)
  | .pageProgram4b _ _ => (8, 0x12)
  | .readData4b _ _ => (8, 0x13)
  | .sectorErase4k4b _ => (8, 0x21)
  | .blockErase32k _ => (8, 0x52)
  | .blockErase64k4b _ => (8, 0xDC)
  | .chipErase => (8, 0xC7)
  | .enableReset => (8, 0x66)
  | .resetDevice => (8, 0x99)
  | .enter4ByteMode => (8, 0xB7)
  | .exit4ByteMode => (8, 0xE9)
  | .readStatus => (4, 0)
  | .busy => (4, 1)
  | .writeEnabled => (4, 2)
  | .enableWrite => (4, 3)
  | .enter4ByteAddressMode => (4, 4)
  | .exit4ByteAddressMode => (4, 5)
  | .read _ _ => (4, 6)
  | .write _ _ => (4, 7)
  | .writePage _ _ => (4, 8)
  | .eraseSector _ => (4, 9)
  | .eraseBlock32k _ => (4, 10)
  | .eraseBlock64k _ => (4, 11)
  | .eraseChip => (4, 12)
  | .eraseRange _ _ => (4, 13)
  | .reset => (4, 14)

/-- The field at that place of an encoding: byte 0 of a frame, the operation field of a request. -/
def field : Code → Option (Nat × Nat)
  | .frame tx _ => tx.head?.map fun op => (8, op.toNat)
  | .request w => some (4, w.op.toNat)

/-- The encoding of the instruction carries the code of its row. -/
def Statement (i : Instr) : Prop := field (encode i) = some (row i)

theorem readStatus1 : Statement .readStatus1 := rfl

theorem writeEnable : Statement .writeEnable := rfl

theorem pageProgram4b (addr : Addr) (data : List Byte) : Statement (.pageProgram4b addr data) := rfl

theorem readData4b (addr : Addr) (n : Nat) : Statement (.readData4b addr n) := rfl

theorem sectorErase4k4b (addr : Addr) : Statement (.sectorErase4k4b addr) := rfl

theorem blockErase32k (addr : Addr) : Statement (.blockErase32k addr) := rfl

theorem blockErase64k4b (addr : Addr) : Statement (.blockErase64k4b addr) := rfl

theorem chipErase : Statement .chipErase := rfl

theorem enableReset : Statement .enableReset := rfl

theorem resetDevice : Statement .resetDevice := rfl

theorem enter4ByteMode : Statement .enter4ByteMode := rfl

theorem exit4ByteMode : Statement .exit4ByteMode := rfl

theorem readStatus : Statement .readStatus := rfl

theorem busy : Statement .busy := rfl

theorem writeEnabled : Statement .writeEnabled := rfl

theorem enableWrite : Statement .enableWrite := rfl

theorem enter4ByteAddressMode : Statement .enter4ByteAddressMode := rfl

theorem exit4ByteAddressMode : Statement .exit4ByteAddressMode := rfl

theorem read (address len : Addr) : Statement (.read address len) := rfl

theorem write (address : Addr) (data : List Byte) : Statement (.write address data) := rfl

theorem writePage (address : Addr) (chunk : List Byte) : Statement (.writePage address chunk) := rfl

theorem eraseSector (index : Addr) : Statement (.eraseSector index) := rfl

theorem eraseBlock32k (index : Addr) : Statement (.eraseBlock32k index) := rfl

theorem eraseBlock64k (index : Addr) : Statement (.eraseBlock64k index) := rfl

theorem eraseChip : Statement .eraseChip := rfl

theorem eraseRange (start stop : Addr) : Statement (.eraseRange start stop) := rfl

theorem reset : Statement .reset := rfl

end Sys2Proof.Laws.TableCode
end

