-- ==== Sys2Proof/Laws/Reference.lean ====
section
/-! SUPPORT. One frame with the reference oracle on the bus (95 section 4): where its chip has an answer the step hears exactly
that answer and the chip is the one the answer leaves; where it has none the chip stays as it is. -/

namespace Sys2Proof.Safety

open Sys2Proof.Machine

/-- A frame the chip answers, as a transfer. -/
theorem reference_hears {s : State} {i : Instr} {rx : List Byte} {c : Chip} (hb : s.busEnd = .reference)
    (h1 : s.holdPin = .high) (h2 : s.wpPin = .high) (hd : decodeFrame (frameTx i) (frameRx i) = .ok i)
    (ht : s.chip.take i = some (rx, c)) (hl : rx.length = frameRx i) :
    Hears (frameTx i) rx s { s with chip := c, trace := s.trace ++ [.frame (frameTx i) rx] } := by
  have : s.busAnswer (frameTx i) rx.length = (.ok rx, { s with chip := c }) := by
    unfold State.busAnswer
    rw [hb]
    simp only [State.pinsHigh, h1, h2, Chip.answer, hl, hd, ht, decide_true, Bool.and_self, fitAnswer]
    rw [← hl, fit_exact]
  exact ⟨by rw [this], by rw [this]; rfl⟩

/-- A selected frame the chip answers: its step ends with the chip the answer leaves and one event more. -/
theorem reference_exec {s : State} {i : Instr} {rx : List Byte} {c : Chip} (hb : s.busEnd = .reference)
    (h1 : s.holdPin = .high) (h2 : s.wpPin = .high) (hd : decodeFrame (frameTx i) (frameRx i) = .ok i)
    (hn : s.nextFrame = some i) (ht : s.chip.take i = some (rx, c)) (hl : rx.length = frameRx i) :
    ∃ t, exec i s = .next t ∧ t.chip = c ∧ t.trace = s.trace ++ [.frame (frameTx i) rx] := by
  refine ⟨_, exec_selected hn, ?_⟩
  rw [← hl, transfer_hears _ (reference_hears hb h1 h2 hd ht hl)]
  obtain ⟨_, _, _, _, _, _, _, _, h⟩ :=
    decides_frameNext i rx { s with chip := c, trace := s.trace ++ [.frame (frameTx i) rx] }
  rw [h]
  exact ⟨rfl, rfl⟩

/-- A selected frame the chip gives no answer to: its step leaves the chip as it was. -/
theorem reference_exec_none {s : State} {i : Instr} (hb : s.busEnd = .reference) (hn : s.nextFrame = some i)
    (ht : s.chip.answer (frameTx i) (frameRx i) = none) : ∃ t, exec i s = .next t ∧ t.chip = s.chip := by
  have ha : s.busAnswer (frameTx i) (frameRx i) = (oracleAnswer s.trace (frameTx i) (frameRx i), s) := by
    unfold State.busAnswer
    simp only [hb, ht]
    cases s.pinsHigh <;> rfl
  refine ⟨_, exec_selected hn, ?_⟩
  unfold State.transfer
  rw [ha]
  cases oracleAnswer s.trace (frameTx i) (frameRx i) with
  | ok rx =>
    obtain ⟨_, _, _, _, _, _, _, _, h⟩ := decides_frameNext i rx (s.record (.frame (frameTx i) rx))
    simp only [h]
    rfl
  | fail e => rfl

end Sys2Proof.Safety
end

