-- ==== Sys2Proof/Tests/Slice0.lean ====
section
/-! SUPPORT. Tests: ill-formed terms that the checks refuse, words written out from the encoding tables, single steps with
the results the spec's rules and vectors give, and for every statement with hypotheses a state that meets them. Each test
names the rule or the vector of 95_test_vectors.md its expected value comes from. -/

namespace Sys2Proof.Tests

open Sys2Proof
open Sys2Proof.Machine
open Sys2Proof.Safety

/-! ### Helpers -/

/-- The state an outcome leads to. -/
def after (o : Host.Outcome State Fault Refusal) : Option State :=
  match o with
  | .next s => some s
  | .fault _ => none
  | .refused _ => none

/-- Idle after `INIT` (R231). -/
def base : State := { State.reset with phase := .idle, holdPin := .high, wpPin := .high }

/-- Idle, with these answers to come. -/
def heard (answers : List Answer) : State := { base with answers := answers }

/-- At phase `p` of request `op`, with these operands and answers. -/
def at' (op : ReqOp) (p : Phase) (a b : Addr) (d : List Byte) (answers : List Answer) : State :=
  { base with active := true, reqOp := op, phase := p, argA := a, argB := b, dataIn := d, answers := answers }

/-- With verification (R34). -/
def verifying (s : State) : State := { s with params := { s.params with verifyEn := true } }

/-- With the reference oracle's chip `c`. -/
def wired (c : Chip) (s : State) : State := { s with busEnd := .reference, chip := c }

/-- What the step of `i` reports. -/
def resultOf (i : Instr) (s : State) : Option (Phase × Result) := (after (exec i s)).map fun t => (t.phase, t.result)

/-- Where the step of `i` leads and what it adds to an empty trace. -/
def sends (i : Instr) (s : State) : Option (Phase × List BusEvent) := (after (exec i s)).map fun t => (t.phase, t.trace)

/-- The phase the step of `i` leads to. -/
def phaseOf (i : Instr) (s : State) : Option Phase := (after (exec i s)).map State.phase

/-! ### Well-formedness -/

/-- R98: 257 data bytes. -/
theorem test_wf_page_too_long : (Instr.pageProgram4b 0x300 (List.replicate 257 0)).wf = false := by
  show pageFits _ _ = false
  unfold pageFits
  rw [List.length_replicate]
  decide

/-- R98, V-WP7: 256 bytes from 0x301 leave the page. -/
theorem test_wf_page_overrun : (Instr.pageProgram4b 0x301 (List.replicate 256 0)).wf = false := by
  show pageFits _ _ = false
  unfold pageFits
  rw [List.length_replicate]
  decide

/-- R98, V-WP6: 256 bytes from a page start are a page. -/
theorem test_wf_page_full : (Instr.pageProgram4b 0x300 (List.replicate 256 0)).wf = true := by
  show pageFits _ _ = true
  unfold pageFits
  rw [List.length_replicate]
  decide

/-- R23: a length that is no 32-bit operand. -/
theorem test_wf_write_too_long : (Instr.write 0 (List.replicate (2 ^ 32) 0)).wf = false := by
  show lengthFits _ = false
  unfold lengthFits
  rw [List.length_replicate]
  exact decide_eq_false (Nat.lt_irrefl _)

/-- R23: the same of `write_page`. -/
theorem test_wf_write_page_too_long : (Instr.writePage 0 (List.replicate (2 ^ 32) 0)).wf = false := by
  show lengthFits _ = false
  unfold lengthFits
  rw [List.length_replicate]
  exact decide_eq_false (Nat.lt_irrefl _)

/-! ### Words of R86, bit by bit, and what they stand for -/

theorem test_decode_read_status_1 : decode (.frame [0b00000101] 1) = .ok .readStatus1 := by decide
theorem test_decode_write_enable : decode (.frame [0b00000110] 0) = .ok .writeEnable := by decide
/-- The program frame of P4. -/
theorem test_decode_page_program :
    decode (.frame [0b00010010, 0, 0, 0b00000010, 0, 0xF0, 0x55] 0) = .ok (.pageProgram4b 0x200 [0xF0, 0x55]) := by decide
/-- The frame of V-RD1. -/
theorem test_decode_read_data : decode (.frame [0b00010011, 0, 0b00000001, 0b00100011, 0b01000101] 3) =
    .ok (.readData4b 0x012345 3) := by decide
/-- The erase frame of V-ES2. -/
theorem test_decode_sector_erase : decode (.frame [0b00100001, 0x01, 0xFF, 0xF0, 0x00] 0) =
    .ok (.sectorErase4k4b 0x01FFF000) := by decide
/-- The erase frame of V-E32-2. -/
theorem test_decode_block_erase_32k : decode (.frame [0b01010010, 0x01, 0xFF, 0x80, 0x00] 0) =
    .ok (.blockErase32k 0x01FF8000) := by decide
/-- The erase frame of V-E64-2. -/
theorem test_decode_block_erase_64k : decode (.frame [0b11011100, 0x01, 0xFF, 0x00, 0x00] 0) =
    .ok (.blockErase64k4b 0x01FF0000) := by decide
theorem test_decode_chip_erase : decode (.frame [0b11000111] 0) = .ok .chipErase := by decide
theorem test_decode_enable_reset : decode (.frame [0b01100110] 0) = .ok .enableReset := by decide
theorem test_decode_reset_device : decode (.frame [0b10011001] 0) = .ok .resetDevice := by decide
theorem test_decode_enter_4byte : decode (.frame [0b10110111] 0) = .ok .enter4ByteMode := by decide
theorem test_decode_exit_4byte : decode (.frame [0b11101001] 0) = .ok .exit4ByteMode := by decide

/-! ### Words of R95 -/

theorem test_decode_read_status : decode (.request ⟨0b0000, 0, 0, []⟩) = .ok .readStatus := by decide
theorem test_decode_busy : decode (.request ⟨0b0001, 0, 0, []⟩) = .ok .busy := by decide
theorem test_decode_write_enabled : decode (.request ⟨0b0010, 0, 0, []⟩) = .ok .writeEnabled := by decide
theorem test_decode_enable_write : decode (.request ⟨0b0011, 0, 0, []⟩) = .ok .enableWrite := by decide
theorem test_decode_enter_mode : decode (.request ⟨0b0100, 0, 0, []⟩) = .ok .enter4ByteAddressMode := by decide
theorem test_decode_exit_mode : decode (.request ⟨0b0101, 0, 0, []⟩) = .ok .exit4ByteAddressMode := by decide
theorem test_decode_read : decode (.request ⟨0b0110, 33554431, 2, []⟩) = .ok (.read 33554431 2) := by decide
theorem test_decode_write : decode (.request ⟨0b0111, 300, 2, [0xAA, 0xBB]⟩) = .ok (.write 300 [0xAA, 0xBB]) := by decide
theorem test_decode_write_page : decode (.request ⟨0b1000, 0x1000, 2, [0x11, 0x22]⟩) =
    .ok (.writePage 0x1000 [0x11, 0x22]) := by decide
theorem test_decode_erase_sector : decode (.request ⟨0b1001, 8191, 0, []⟩) = .ok (.eraseSector 8191) := by decide
theorem test_decode_erase_block_32k : decode (.request ⟨0b1010, 1023, 0, []⟩) = .ok (.eraseBlock32k 1023) := by decide
theorem test_decode_erase_block_64k : decode (.request ⟨0b1011, 511, 0, []⟩) = .ok (.eraseBlock64k 511) := by decide
theorem test_decode_erase_chip : decode (.request ⟨0b1100, 0, 0, []⟩) = .ok .eraseChip := by decide
theorem test_decode_erase_range : decode (.request ⟨0b1101, 0x1000, 0x3000, []⟩) = .ok (.eraseRange 0x1000 0x3000) := by
  decide
theorem test_decode_reset : decode (.request ⟨0b1110, 0, 0, []⟩) = .ok .reset := by decide

/-! ### What the decoder rejects -/

/-- R98: an opcode outside the closed set (a write disable, 0x04, which the command set does not have: R32). -/
theorem test_reject_opcode : decode (.frame [0x04] 0) = .error (.unknownOpcode 0x04) := by decide
/-- R98: three address bytes. -/
theorem test_reject_short_address : decode (.frame [0x21, 0, 0x10, 0] 0) = .error (.badLength 0x21) := by decide
/-- R80: format `OP` receives nothing. -/
theorem test_reject_receive : decode (.frame [0x06] 1) = .error (.badReceiveCount 0x06) := by decide
/-- R98, U3: a page program over the end of its page. -/
theorem test_reject_overrun : decode (.frame [0x12, 0, 0, 0, 0xFF, 0xAB, 0xCD] 0) = .error .pageOverrun := by decide
/-- R97. -/
theorem test_reject_ordinal_15 : decode (.request ⟨15, 0, 0, []⟩) = .error .reservedOrdinal := by decide
/-- R23: `ARG_B` is the length of `DATA_IN`. -/
theorem test_reject_length : decode (.request ⟨7, 0, 3, [1, 2]⟩) = .error .lengthMismatch := by decide
theorem test_reject_empty : decode (.frame [] 0) = .error .emptyFrame := by decide

/-! ### Single steps -/

/-- V-ST1. -/
theorem test_read_status : resultOf .readStatus1 (at' .readStatus .status 0 0 [] [.ok [0x00]]) =
    some (.respond, .ok (.status 0x00)) := by decide
/-- V-ST9: the failed transfer stands on the trace. -/
theorem test_read_status_fails : sends .readStatus1 (at' .readStatus .status 0 0 [] [.fail ⟨7⟩]) =
    some (.respond, [.failed [0x05] 1 ⟨7⟩]) := by decide
/-- V-ST5: bits 7:2 do not count. -/
theorem test_busy : resultOf .readStatus1 (at' .busy .status 0 0 [] [.ok [0xFE]]) =
    some (.respond, .ok (.flag false)) := by decide
/-- V-ST8. -/
theorem test_write_enabled : resultOf .readStatus1 (at' .writeEnabled .status 0 0 [] [.ok [0xFD]]) =
    some (.respond, .ok (.flag false)) := by decide
/-- V-HS1: `> 06` first. -/
theorem test_enable_sends : sends .writeEnable (at' .enableWrite .wren 0 0 [] [.ok []]) =
    some (.wrenChk, [.frame [0x06] []]) := by decide
/-- V-HS3: latch set and busy set passes. -/
theorem test_handshake_passes : resultOf .readStatus1 (at' .enableWrite .wrenChk 0 0 [] [.ok [0x03]]) =
    some (.respond, .ok .nothing) := by decide
/-- V-HS4: busy alone does not. -/
theorem test_handshake_fails : resultOf .readStatus1 (at' .eraseSector .wrenChk 0 0 [] [.ok [0x01]]) =
    some (.respond, .writeEnableFail) := by decide
/-- V-BW3: 0x03 goes round. -/
theorem test_poll_loops : phaseOf .readStatus1 (at' .eraseSector .pollPre 0 0 [] [.ok [0x03]]) = some .pollPre := by decide
/-- V-BW3: 0x02 ends the wait. -/
theorem test_poll_ends : phaseOf .readStatus1 (at' .eraseSector .pollPre 0 0 [] [.ok [0x02]]) = some .wren := by decide
/-- V-AM1. -/
theorem test_enter_mode : sends .enter4ByteMode (at' .enter4ByteAddressMode .mode 0 0 [] [.ok []]) =
    some (.respond, [.frame [0xB7] []]) := by decide
/-- V-AM2. -/
theorem test_exit_mode : sends .exit4ByteMode (at' .exit4ByteAddressMode .mode 0 0 [] [.ok []]) =
    some (.respond, [.frame [0xE9] []]) := by decide
/-- V-RD1. -/
theorem test_read_data : resultOf (.readData4b 0x012345 3) (at' .read .cmd 0x012345 3 [] [.ok [0xDE, 0xAD, 0xBE]]) =
    some (.respond, .ok (.bytes [0xDE, 0xAD, 0xBE])) := by decide
/-- V-RD6: the sum does not wrap. -/
theorem test_read_no_wrap : resultOf (.read 0xFFFFFFFF 2) (at' .read .check 0xFFFFFFFF 2 [] []) =
    some (.respond, .outOfBounds) := by decide
/-- V-RD5: equality is in bounds. -/
theorem test_read_at_capacity : phaseOf (.read 33554432 0) (at' .read .check 33554432 0 [] []) = some .cmd := by decide
/-- V-WR8. -/
theorem test_write_bounds : resultOf (.write 33554431 [0x5A, 0x5A]) (at' .write .check 33554431 2 [0x5A, 0x5A] []) =
    some (.respond, .outOfBounds) := by decide
/-- V-WR2: after the first chunk of `write(250, 20 bytes)` the next one is at 0x100, 6 bytes in. -/
theorem test_write_next_chunk :
    (after (exec .readStatus1
      { at' .write .pollPost 250 20 (List.replicate 20 1) [.ok [0x00]] with cur := 250, off := 0 })).map
        (fun t => (t.phase, t.cur, t.off, t.chunkLen)) = some (.wren, 0x100, 6, 14) := by decide
/-- V-WP5: 255 + 2 = 257. -/
theorem test_write_page_spans : resultOf (.writePage 0xFF [0xAB, 0xCD]) (at' .writePage .check 0xFF 2 [0xAB, 0xCD] []) =
    some (.respond, .outOfBounds) := by decide
/-- V-WP4: the last byte of a page. -/
theorem test_page_program : sends (.pageProgram4b 0xFF [0xAB]) (at' .writePage .cmd 0xFF 1 [0xAB] [.ok []]) =
    some (.pollPost, [.frame [0x12, 0x00, 0x00, 0x00, 0xFF, 0xAB] []]) := by decide
/-- V-ES3. -/
theorem test_erase_sector_bounds : resultOf (.eraseSector 8192) (at' .eraseSector .check 8192 0 [] []) =
    some (.respond, .outOfBounds) := by decide
/-- V-ES2. -/
theorem test_erase_sector : sends (.sectorErase4k4b 0x01FFF000) (at' .eraseSector .cmd 8191 0 [] [.ok []]) =
    some (.pollPost, [.frame [0x21, 0x01, 0xFF, 0xF0, 0x00] []]) := by decide
/-- V-E32-1: `> B7` comes right after the leading wait. -/
theorem test_erase_32k_order : phaseOf .readStatus1 (at' .eraseBlock32k .pollPre 2 0 [] [.ok [0x00]]) = some .mode := by decide
/-- V-E32-1b: with `after_handshake` it comes after the handshake. -/
theorem test_erase_32k_after :
    phaseOf .readStatus1 { at' .eraseBlock32k .wrenChk 2 0 [] [.ok [0x02]] with
      params := { Params.default with modeOrder := .afterHandshake } } = some .mode := by decide
/-- V-E32-3. -/
theorem test_erase_32k_bounds : resultOf (.eraseBlock32k 1024) (at' .eraseBlock32k .check 1024 0 [] []) =
    some (.respond, .outOfBounds) := by decide
/-- V-E32-2. -/
theorem test_erase_32k : sends (.blockErase32k 0x01FF8000) (at' .eraseBlock32k .cmd 1023 0 [] [.ok []]) =
    some (.pollPost, [.frame [0x52, 0x01, 0xFF, 0x80, 0x00] []]) := by decide
/-- V-E64-3. -/
theorem test_erase_64k_bounds : resultOf (.eraseBlock64k 512) (at' .eraseBlock64k .check 512 0 [] []) =
    some (.respond, .outOfBounds) := by decide
/-- V-E64-2. -/
theorem test_erase_64k : sends (.blockErase64k4b 0x01FF0000) (at' .eraseBlock64k .cmd 511 0 [] [.ok []]) =
    some (.pollPost, [.frame [0xDC, 0x01, 0xFF, 0x00, 0x00] []]) := by decide
/-- V-EC1: no address. -/
theorem test_erase_chip : sends .chipErase (at' .eraseChip .cmd 0 0 [] [.ok []]) =
    some (.pollPost, [.frame [0xC7] []]) := by decide
/-- V-ER10: alignment before order. -/
theorem test_erase_range_misaligned : resultOf (.eraseRange 8193 4096) (at' .eraseRange .check 8193 4096 [] []) =
    some (.respond, .notAligned) := by decide
/-- V-ER5: after sector 8191 comes the range check of sector 8192. -/
theorem test_erase_range_runs_out :
    resultOf .readStatus1 { at' .eraseRange .pollPost 0x01FFF000 0x02001000 [] [.ok [0x00]] with idx := 8191 } =
      some (.respond, .outOfBounds) := by decide
/-- V-VF3: the window differs. -/
theorem test_verify_fails :
    resultOf (.readData4b 0 2) (verifying (at' .writePage .verify 0 2 [0x01, 0x02] [.ok [0x01, 0xFF]])) =
      some (.respond, .readbackFail) := by decide
/-- V-VF2: 65 bytes have a second window of one byte. -/
theorem test_verify_second_window :
    (after (exec (.readData4b 0x100 64) { verifying (at' .writePage .verify 0x100 65 (List.replicate 65 7)
      [.ok (List.replicate 64 7)]) with vcur := 0x100 })).map (fun t => (t.phase, t.vcur, t.windowLen)) =
        some (.verify, 0x140, 1) := by decide
/-- V-RST: 0x99 is the first of the pair. -/
theorem test_reset_first : sends .resetDevice (at' .reset .rst1 0 0 [] [.ok []]) = some (.rst2, [.frame [0x99] []]) := by
  decide
/-- V-RST: 0x66 is the second. -/
theorem test_reset_second : sends .enableReset (at' .reset .rst2 0 0 [] [.ok []]) =
    some (.respond, [.frame [0x66] []]) := by decide
/-- V-IN2: a pin that cannot be raised, empty trace, never idle. -/
theorem test_init_fails :
    (after (step { State.reset with pinAnswers := [.fail ⟨3⟩ .high .low] })).map
      (fun t => (t.phase, t.result, t.trace)) = some (.init, .pinControlError ⟨3⟩, []) := by decide
/-- V-IN3: a request presented while `ACTIVE` is not accepted. -/
theorem test_not_accepted : after (exec .busy (at' .eraseChip .pollPost 0 0 [] [])) = none := by decide
/-- R190: the code of `ReadbackFail`. -/
theorem test_code : Result.readbackFail.code = 6 := by decide
/-- P4: NOR programming, 0x0F AND 0xF0. -/
theorem test_chip_program :
    Memory.read (Chip.complete { Chip.start with
      mem := [(0x200, 0x0F)], busyCnt := 1, pending := some (.program 0x200 [0xF0, 0x55]) }).mem 0x200 = 0x00 := by decide
/-- R52, R73: the byte behind the page end lands at the page start. -/
theorem test_chip_wraps :
    Memory.read (Chip.complete { Chip.start with
      mem := [], busyCnt := 1, pending := some (.program 0xFF [0x11, 0x22]) }).mem 0x00 = 0x22 := by decide
/-- R86: a table word at its call site runs as the next step from reset. -/
theorem test_fetch_word :
    (after (step ({ State.reset with answers := [.ok []] }.withFetchWord 8 0xC7))).map State.trace =
      some [.frame [0xC7] []] := by decide

/-! ### Every hypothesis can be met: a witness for each clause of each statement, at the ends of its range -/

/-- The machine between two steps of an operation, in the order of the statements. -/
def poll (op : ReqOp) (p : Phase) (b : Byte) : State := at' op p 0 0 [] [.ok [b]]

theorem witness_DecodeEncodeAgree :
    (Instr.pageProgram4b 0xFF [0xAB]).wf = true ∧ (Instr.write 0xFFFFFFFF []).wf = true ∧ Instr.chipErase.wf = true := by
  decide

theorem witness_DecodedIsWellFormed : decode (.frame [0x12, 0, 0, 0, 0xFF, 0xAB] 0) = .ok (.pageProgram4b 0xFF [0xAB]) ∧
    decode (.request ⟨8, 0, 0, []⟩) = .ok (.writePage 0 []) := by decide

theorem witness_FrameDecodingIsExact : decodeFrame [0x13, 0xFF, 0xFF, 0xFF, 0xFF] 0 = .ok (.readData4b 0xFFFFFFFF 0) := by
  decide

theorem witness_AddressFieldIsBigEndian : (0 : Nat) < 2 ^ 32 ∧ 2 ^ 32 - 1 < 2 ^ 32 := by decide

theorem witness_ReservedOrdinalRefused :
    ({ base with requests := [⟨15, 0, 0, []⟩] } : State).phase = .idle ∧ (⟨15, 0, 0, []⟩ : ReqWord).op = 15 ∧
    (⟨14, 0, 0, []⟩ : ReqWord).op ≠ 15 := by decide

theorem witness_RequestAtPortRuns : base.phase = .idle ∧ base.requests = [] ∧
    ({ base with requests := [⟨9, 8191, 0, []⟩] } : State).requests = [⟨9, 8191, 0, []⟩] ∧
    decode (.request ⟨9, 8191, 0, []⟩) = .ok (.eraseSector 8191) := by decide

theorem witness_RequestWordLatched : idle { base with requests := [⟨9, 8191, 5, [0xAA]⟩] } ∧
    decode (.request ⟨9, 8191, 5, [0xAA]⟩) = .ok (.eraseSector 8191) := ⟨⟨rfl, rfl⟩, by decide⟩

/-- R113, D2: the whole word is latched, the operands that `erase_sector` does not use among them. -/
theorem test_port_latches_the_word :
    (after (step { base with requests := [⟨9, 8191, 5, [0xAA]⟩] })).map (fun t => (t.reqOp, t.argA, t.argB, t.dataIn)) =
      some (.eraseSector, 8191, 5, [0xAA]) := by decide

theorem witness_RunningOperationRuns :
    (poll .busy .status 1).params.abandon = false ∧ (poll .busy .status 1).nextFrame = some .readStatus1 ∧
    (at' .read .check 0 0 [] []).phase = .check ∧ (at' .read .respond 0 0 [] []).phase = .respond := by decide

theorem witness_AbandonMove_taken :
    inOperation (poll .busy .status 1).phase = true ∧
    ({ poll .busy .status 1 with params := { Params.default with abandon := true }, abandons := [true] } : State).abandons =
      [true] := by decide

/-- With `P_ABANDON`, inside an operation, with these choices fixed. -/
def droppable (s : State) (choices : List Bool) : State :=
  { s with params := { Params.default with abandon := true }, abandons := choices }

theorem witness_AbandonMove_goesOn :
    (droppable (poll .busy .status 1) [false]).abandons = [false] ∧
    (droppable (poll .busy .status 1) [false]).nextFrame = some .readStatus1 ∧
    (droppable (at' .read .check 0 0 [] []) [false]).phase = .check ∧
    (droppable (at' .read .respond 0 0 [] []) []).phase = .respond ∧
    (droppable (poll .busy .status 1) []).nextFrame = some .readStatus1 ∧
    (droppable (poll .busy .status 1) []).abandons = [] := by decide

/-- R119: the choice to go on is used up by the operation's own step. -/
theorem test_abandon_goes_on :
    (after (step (droppable (poll .busy .status 1) [false, true]))).map (fun t => (t.abandons, t.phase, t.active)) =
      some ([true], .respond, true) := by decide

theorem witness_AbandonMove_never : Inv (poll .busy .status 1) ∧ (poll .busy .status 1).active = true ∧
    (poll .busy .status 1).phase ≠ .respond ∧ ∃ t, step (poll .busy .status 1) = .next t :=
  ⟨by constructor <;> decide, rfl, by decide, _, rfl⟩

theorem witness_InitRaisesPins :
    ({ State.reset with pinAnswers := [.ok] } : State).phase = .init ∧
    ({ State.reset with pinAnswers := [.ok] } : State).initFailed = false ∧
    ({ State.reset with pinAnswers := [.ok] } : State).pinAnswer = .ok := by decide

theorem witness_FailedInitStaysOut :
    ({ State.reset with pinAnswers := [.fail ⟨3⟩ .high .low] } : State).pinAnswer = .fail ⟨3⟩ .high .low ∧
    ({ State.reset with initFailed := true } : State).initFailed = true ∧ State.reset.phase = .init ∧
    isRequest .busy = true := by decide

theorem witness_InvariantKept : Inv (poll .eraseSector .pollPre 1) ∧ ∃ t, step (poll .eraseSector .pollPre 1) = .next t :=
  ⟨by constructor <;> decide, _, rfl⟩

/-- A `write` that is about to send its last chunk, on the last byte of the device. -/
def lastChunk : State :=
  { at' .write .cmd 33554431 1 [0x5A] [.ok []] with cur := 33554431, off := 0, trace := [.frame [0x06] [], sr 0x02] }

theorem witness_InvariantKept_write : Inv lastChunk ∧ ∃ t, step lastChunk = .next t :=
  ⟨by constructor <;> decide, _, rfl⟩

theorem witness_HandshakeKept : HandshakeInv lastChunk ∧ ∃ t, step lastChunk = .next t :=
  ⟨by constructor <;> decide, _, rfl⟩

theorem witness_LegalFramesOnly : Inv lastChunk ∧ legalTrace lastChunk.trace = true ∧ ∃ t, step lastChunk = .next t :=
  ⟨by constructor <;> decide, by decide, _, rfl⟩

theorem witness_StepNeverStuck : Inv base ∧ Inv { base with requests := [⟨15, 0, 0, []⟩] } :=
  ⟨by constructor <;> decide, by constructor <;> decide⟩

theorem witness_TraceGrows : ∃ t, step base = .next t := ⟨_, rfl⟩

theorem witness_ParametersAndPinsFixed : base.phase ≠ .init ∧ ∃ t, step base = .next t := ⟨by decide, _, rfl⟩

theorem witness_OneResponsePerRequest : Inv (at' .busy .respond 0 0 [] []) ∧
    (∃ t, step (at' .busy .respond 0 0 [] []) = .next t) ∧ Inv (poll .busy .status 1) ∧
    (poll .busy .status 1).active = true ∧ ∃ t, step (poll .busy .status 1) = .next t :=
  ⟨by constructor <;> decide, ⟨_, rfl⟩, by constructor <;> decide, rfl, _, rfl⟩

theorem witness_PortClosedWhileActive : idle base ∧ isRequest .busy = true ∧
    (poll .busy .status 1).active = true ∧ (poll .busy .status 1).phase ≠ .check ∧
    (poll .busy .status 1).phase ≠ .respond ∧ (poll .busy .status 1).running ≠ .reset ∧ Inv (poll .busy .status 1) ∧
    ∃ t, step (poll .busy .status 1) = .next t :=
  ⟨⟨rfl, rfl⟩, rfl, rfl, by decide, by decide, by decide, by constructor <;> decide, _, rfl⟩

theorem witness_EveryTransferIsAnswered : (∃ u, Hears [0x05] [0x03] (heard [.ok [0x03]]) u) ∧
    ∃ u, Fails [0x05] 1 ⟨7⟩ (heard [.fail ⟨7⟩]) u :=
  ⟨⟨_, rfl, rfl⟩, _, rfl, rfl⟩

theorem witness_SelectedFrameIsSent : (poll .busy .status 1).nextFrame = some .readStatus1 ∧
    encode .readStatus1 = .frame [0x05] 1 ∧ isRequest .chipErase = false ∧
    (poll .busy .status 1).nextFrame ≠ some .chipErase := by decide

theorem witness_BusFailureEnds :
    (∃ u, Fails [0x05] 1 ⟨7⟩ (at' .eraseChip .pollPost 0 0 [] [.fail ⟨7⟩]) u) ∧
    (at' .eraseChip .pollPost 0 0 [] [.fail ⟨7⟩]).nextFrame = some .readStatus1 ∧
    Inv (at' .reset .rst2 0 0 [] [.ok []]) ∧ (at' .reset .rst2 0 0 [] [.ok []]).nextFrame = some .enableReset ∧
    ∃ u, Hears [0x66] [] (at' .reset .rst2 0 0 [] [.ok []]) u :=
  ⟨⟨_, rfl, rfl⟩, rfl, by constructor <;> decide, rfl, _, rfl, rfl⟩

/-- A step of the invariant that leads to a response. -/
def Responds (s : State) (r : Result) : Prop := Inv s ∧ ∃ t, step s = .next t ∧ t.phase = .respond ∧ t.result = r

theorem witness_ErrorsHaveTheirCauses_bus :
    Responds (at' .busy .status 0 0 [] [.fail ⟨7⟩]) (.busTransportError ⟨7⟩) :=
  ⟨by constructor <;> decide, _, rfl, rfl, rfl⟩

theorem witness_ErrorsHaveTheirCauses_aligned : Responds (at' .eraseRange .check 8193 4096 [] []) .notAligned :=
  ⟨by constructor <;> decide, _, rfl, rfl, rfl⟩

/-- The two clauses about a `CHECK` that takes its step: the operation is not abandoned. -/
theorem witness_ErrorsHaveTheirCauses_span :
    Responds (at' .writePage .check 0xFF 2 [1, 2] []) .outOfBounds ∧
    (∃ t, step (at' .writePage .check 0xFF 2 [1, 2] []) = .next t ∧ t.active = true) ∧
    ∃ t, step (at' .eraseRange .check 8193 4096 [] []) = .next t ∧ t.active = true :=
  ⟨⟨by constructor <;> decide, _, rfl, rfl, rfl⟩, ⟨_, rfl, rfl⟩, _, rfl, rfl⟩

theorem witness_ErrorsHaveTheirCauses_bounds : Responds (at' .read .check 33554431 2 [] []) .outOfBounds ∧
    Responds { at' .eraseRange .pollPost 0x01FFF000 0x02001000 [] [.ok [0x00]] with idx := 8191 } .outOfBounds :=
  ⟨⟨by constructor <;> decide, _, rfl, rfl, rfl⟩, by constructor <;> decide, _, rfl, rfl, rfl⟩

theorem witness_ErrorsHaveTheirCauses_latch : Responds (poll .enableWrite .wrenChk 0x01) .writeEnableFail :=
  ⟨by constructor <;> decide, _, rfl, rfl, rfl⟩

theorem witness_ErrorsHaveTheirCauses_readback :
    Responds (verifying (at' .writePage .verify 0 2 [0x01, 0x02] [.ok [0x01, 0xFF]])) .readbackFail :=
  ⟨by constructor <;> decide, _, rfl, rfl, rfl⟩

theorem witness_RequestsAccepted : idle base := ⟨rfl, rfl⟩

theorem witness_ResponseGiven : (at' .read .respond 0 0 [] []).phase = .respond := rfl

/-- The tests at `CHECK`, each at the last operand it accepts and the first it rejects: the outcomes the rules give. -/
theorem witness_BoundsChecked :
    phaseOf (.read 33554431 1) (at' .read .check 33554431 1 [] []) = some .cmd ∧
    resultOf (.read 33554431 2) (at' .read .check 33554431 2 [] []) = some (.respond, .outOfBounds) ∧
    phaseOf (.write 33554431 [1]) (at' .write .check 33554431 1 [1] []) = some .pollPre ∧
    phaseOf (.eraseSector 8191) (at' .eraseSector .check 8191 0 [] []) = some .pollPre ∧
    phaseOf (.eraseBlock32k 1023) (at' .eraseBlock32k .check 1023 0 [] []) = some .pollPre ∧
    phaseOf (.eraseBlock64k 511) (at' .eraseBlock64k .check 511 0 [] []) = some .pollPre := by decide

theorem witness_WritePageChecked :
    phaseOf (.writePage 0xFF [1]) (at' .writePage .check 0xFF 1 [1] []) = some .wren ∧
    resultOf (.writePage 0xFF [1, 2]) (at' .writePage .check 0xFF 2 [1, 2] []) = some (.respond, .outOfBounds) ∧
    resultOf (.writePage 0x02000000 [1]) { at' .writePage .check 0x02000000 1 [1] [] with
      params := { Params.default with pageCapCheck := true } } = some (.respond, .outOfBounds) ∧
    resultOf (.writePage 0x40 []) { at' .writePage .check 0x40 0 [] [] with
      params := { Params.default with emptyXfer := .skip } } = some (.respond, .ok .nothing) := by decide

theorem witness_EraseRangeChecked :
    resultOf (.eraseRange 8192 4096) (at' .eraseRange .check 8192 4096 [] []) = some (.respond, .outOfBounds) ∧
    resultOf (.eraseRange 8192 8192) (at' .eraseRange .check 8192 8192 [] []) = some (.respond, .ok .nothing) ∧
    resultOf (.eraseRange 33554432 33558528) (at' .eraseRange .check 33554432 33558528 [] []) =
      some (.respond, .outOfBounds) ∧
    phaseOf (.eraseRange 33550336 33554432) (at' .eraseRange .check 33550336 33554432 [] []) = some .pollPre := by decide

theorem witness_StatusReadAnswers : (∃ u, Hears [0x05] [0xFF] (poll .busy .status 0xFF) u) ∧
    (∃ u, Hears [0x05] [0x02] (poll .writeEnabled .status 0x02) u) ∧
    (∃ u, Hears [0x05] [0x00] (poll .readStatus .status 0x00) u) ∧
    ∃ u, Fails [0x05] 1 ⟨7⟩ (at' .readStatus .status 0 0 [] [.fail ⟨7⟩]) u :=
  ⟨⟨_, rfl, rfl⟩, ⟨_, rfl, rfl⟩, ⟨_, rfl, rfl⟩, _, rfl, rfl⟩

theorem witness_HandshakeSteps : (∃ u, Hears [0x06] [] (at' .eraseChip .wren 0 0 [] [.ok []]) u) ∧
    (∃ u, Fails [0x06] 0 ⟨7⟩ (at' .eraseChip .wren 0 0 [] [.fail ⟨7⟩]) u) ∧
    (∃ u, Hears [0x05] [0x02] (poll .eraseChip .wrenChk 0x02) u) ∧ (0x02 : Byte).getLsbD 1 = true ∧
    (∃ u, Hears [0x05] [0xFD] (poll .eraseChip .wrenChk 0xFD) u) ∧ (0xFD : Byte).getLsbD 1 = false ∧
    ∃ u, Fails [0x05] 1 ⟨7⟩ (at' .eraseChip .wrenChk 0 0 [] [.fail ⟨7⟩]) u :=
  ⟨⟨_, rfl, rfl⟩, ⟨_, rfl, rfl⟩, ⟨_, rfl, rfl⟩, by decide, ⟨_, rfl, rfl⟩, by decide, _, rfl, rfl⟩

theorem witness_PollLoops : (∃ u, Hears [0x05] [0xFF] (poll .eraseChip .pollPost 0xFF) u) ∧
    (0xFF : Byte).getLsbD 0 = true ∧ ∃ u, Fails [0x05] 1 ⟨7⟩ (at' .eraseChip .pollPre 0 0 [] [.fail ⟨7⟩]) u :=
  ⟨⟨_, rfl, rfl⟩, by decide, _, rfl, rfl⟩

theorem witness_PollPreEnds : (∃ u, Hears [0x05] [0xFE] (poll .eraseBlock32k .pollPre 0xFE) u) ∧
    (0xFE : Byte).getLsbD 0 = false ∧ (poll .eraseBlock32k .pollPre 0xFE).reqOp ≠ .write ∧
    (∃ u, Hears [0x05] [0x00] (at' .write .pollPre 33554432 0 [] [.ok [0x00]]) u) ∧
    (at' .write .pollPre 33554432 0 [] [.ok [0x00]]).argA.toNat +
      (at' .write .pollPre 33554432 0 [] [.ok [0x00]]).dataIn.length ≤ 33554432 :=
  ⟨⟨_, rfl, rfl⟩, by decide, by decide, ⟨_, rfl, rfl⟩, by decide⟩

/-- A `write_page` at the end of its trailing wait. -/
def pageDone (d : List Byte) : State := at' .writePage .pollPost 0x100 (BitVec.ofNat 32 d.length) d [.ok [0x00]]

theorem witness_PollPostEnds : Inv (pageDone [7]) ∧ (∃ u, Hears [0x05] [0x00] (pageDone [7]) u) ∧
    (pageDone [7]).params.verifyEn = false ∧ Inv (verifying (pageDone [7])) ∧ 0 < (verifying (pageDone [7])).regionLen ∧
    (∃ u, Hears [0x05] [0x00] (verifying (pageDone [7])) u) ∧ Inv (verifying (pageDone [])) ∧
    (verifying (pageDone [])).regionLen = 0 ∧ ∃ u, Hears [0x05] [0x00] (verifying (pageDone [])) u :=
  ⟨by constructor <;> decide, ⟨_, rfl, rfl⟩, rfl, by constructor <;> decide, by decide, ⟨_, rfl, rfl⟩,
    by constructor <;> decide, by decide, _, rfl, rfl⟩

theorem witness_MutatingFramesSent :
    (∃ u, Hears [0x12, 0, 0, 1, 0, 7] [] (at' .writePage .cmd 0x100 1 [7] [.ok []]) u) ∧
    (at' .writePage .cmd 0x100 1 [7] [.ok []]).nextFrame = some (.pageProgram4b 0x100 [7]) ∧
    (∃ u, Fails [0x12, 0, 0, 1, 0, 7] 0 ⟨7⟩ (at' .writePage .cmd 0x100 1 [7] [.fail ⟨7⟩]) u) ∧
    (∃ u, Hears (0x12 :: be32 lastChunk.cur.toNat ++ lastChunk.chunk) [] lastChunk u) ∧
    (∃ u, Hears (0x21 :: be32 (8191 * 4096)) [] (at' .eraseSector .cmd 8191 0 [] [.ok []]) u) ∧
    (∃ u, Hears (0x21 :: be32 (8191 * 4096)) [] { at' .eraseRange .cmd 0 0 [] [.ok []] with idx := 8191 } u) ∧
    (∃ u, Hears (0x52 :: be32 (1023 * 32768)) [] (at' .eraseBlock32k .cmd 1023 0 [] [.ok []]) u) ∧
    (∃ u, Hears (0xDC :: be32 (511 * 65536)) [] (at' .eraseBlock64k .cmd 511 0 [] [.ok []]) u) ∧
    ∃ u, Hears [0xC7] [] (at' .eraseChip .cmd 0 0 [] [.ok []]) u :=
  ⟨⟨_, rfl, rfl⟩, rfl, ⟨_, rfl, rfl⟩, ⟨_, rfl, rfl⟩, ⟨_, rfl, rfl⟩, ⟨_, rfl, rfl⟩, ⟨_, rfl, rfl⟩, ⟨_, rfl, rfl⟩, _, rfl, rfl⟩

theorem witness_ModeAndResetFramesSent :
    (∃ u, Hears [0xB7] [] (at' .enter4ByteAddressMode .mode 0 0 [] [.ok []]) u) ∧
    (∃ u, Hears [0xB7] [] (at' .eraseBlock32k .mode 0 0 [] [.ok []]) u) ∧
    (∃ u, Hears [0xE9] [] (at' .exit4ByteAddressMode .mode 0 0 [] [.ok []]) u) ∧
    (∃ u, Hears [0x99] [] (at' .reset .rst1 0 0 [] [.ok []]) u) ∧
    ∃ u, Hears [0x66] [] (at' .reset .rst2 0 0 [] [.ok []]) u :=
  ⟨⟨_, rfl, rfl⟩, ⟨_, rfl, rfl⟩, ⟨_, rfl, rfl⟩, ⟨_, rfl, rfl⟩, _, rfl, rfl⟩

theorem witness_ReadFrameDelivers :
    (at' .read .cmd 33554432 0 [] [.ok []]).nextFrame = some (.readData4b 33554432 0) ∧
    (∃ u, Hears (0x13 :: be32 33554432) [] (at' .read .cmd 33554432 0 [] [.ok []]) u) ∧
    (∃ u, Fails (0x13 :: be32 33554432) 0 ⟨7⟩ (at' .read .cmd 33554432 0 [] [.fail ⟨7⟩]) u) ∧
    ∃ u, Hears (0x13 :: be32 33554431) [0x7F] (at' .read .cmd 33554431 1 [] [.ok [0x7F]]) u :=
  ⟨rfl, ⟨_, rfl, rfl⟩, ⟨_, rfl, rfl⟩, _, rfl, rfl⟩

/-- Verification of a 65-byte page at its window number `w`, answered with `rx`. -/
def window (w : Nat) (rx : List Byte) : State :=
  { verifying (at' .writePage .verify 0x100 65 (List.replicate 65 7) [.ok rx]) with
    vcur := BitVec.ofNat 32 (0x100 + w), voff := w }

theorem witness_VerifyWindowCompared :
    (Inv (window 64 [8]) ∧ (window 64 [8]).windowLen = 1 ∧ [8] ≠ mustRead (window 64 [8]) ∧
      ∃ u, Hears (0x13 :: be32 0x140) [8] (window 64 [8]) u) ∧
    (Inv (window 64 [7]) ∧ [7] = mustRead (window 64 [7]) ∧ (window 64 [7]).regionLen ≤ 64 + 1 ∧
      ∃ u, Hears (0x13 :: be32 0x140) [7] (window 64 [7]) u) ∧
    Inv (window 0 (List.replicate 64 7)) ∧ List.replicate 64 7 = mustRead (window 0 (List.replicate 64 7)) ∧
      0 + (window 0 (List.replicate 64 7)).windowLen < (window 0 (List.replicate 64 7)).regionLen ∧
      ∃ u, Hears (0x13 :: be32 0x100) (List.replicate 64 7) (window 0 (List.replicate 64 7)) u :=
  ⟨⟨by constructor <;> decide, by decide, by decide, _, rfl, rfl⟩,
    ⟨by constructor <;> decide, by decide, by decide, _, rfl, rfl⟩,
    by constructor <;> decide, by decide, by decide, _, rfl, rfl⟩

theorem witness_RequestsLeaveTheRest : (∃ t, exec (.eraseSector 0) base = .next t) ∧
    (∃ t, exec (.eraseRange 0 0) (at' .eraseRange .check 0 0 [] []) = .next t) ∧
    ∃ t, exec .busy (at' .busy .respond 0 0 [] []) = .next t :=
  ⟨⟨_, rfl⟩, ⟨_, rfl⟩, _, rfl⟩

/-- The reset pair under the host's duty: an idle chip with nothing in flight. -/
theorem witness_FramesLeaveTheRest_duty : ResetDuty (wired Chip.start (at' .reset .rst1 0 0 [] [])) ∧
    ∃ t, exec .resetDevice (wired Chip.start (at' .reset .rst1 0 0 [] [])) = .next t :=
  ⟨fun _ => ⟨rfl, rfl⟩, _, rfl⟩

theorem witness_FramesLeaveTheRest : (∃ t, exec .chipErase (at' .eraseChip .cmd 0 0 [] [.ok []]) = .next t) ∧
    ∃ t, exec .readStatus1 (wired { Chip.start with busyCnt := 1, pending := some (.erase 0 4096) }
      (at' .eraseSector .pollPost 0 0 [] [])) = .next t :=
  ⟨⟨_, rfl⟩, _, rfl⟩

/-- Idle, on an environment that answers with this list. -/
def Ready (s : State) (answers : List Answer) : Prop := idle s ∧ Scripted s ∧ s.answers = answers

/-- The state of every witness below. -/
theorem ready_heard (answers : List Answer) : Ready (heard answers) answers := ⟨⟨rfl, rfl⟩, ⟨rfl, rfl⟩, rfl⟩

theorem witness_StatusRequestsServed : Ready (heard [.ok [0xFF]]) [.ok [0xFF]] ∧ Ready (heard [.fail ⟨7⟩]) [.fail ⟨7⟩] :=
  ⟨ready_heard _, ready_heard _⟩

theorem witness_EnableWriteServed : Ready (heard [.ok [], .ok [0x02]]) [.ok [], .ok [0x02]] ∧
    Ready (heard [.fail ⟨7⟩]) [.fail ⟨7⟩] ∧ Ready (heard [.ok [], .fail ⟨7⟩]) [.ok [], .fail ⟨7⟩] :=
  ⟨ready_heard _, ready_heard _, ready_heard _⟩

theorem witness_ModeAndResetServed : Ready (heard [.ok []]) [.ok []] ∧ Ready (heard [.fail ⟨7⟩]) [.fail ⟨7⟩] ∧
    Ready (heard [.ok [], .ok []]) [.ok [], .ok []] ∧ Ready (heard [.ok [], .fail ⟨7⟩]) [.ok [], .fail ⟨7⟩] :=
  ⟨ready_heard _, ready_heard _, ready_heard _, ready_heard _⟩

/-- Out of bounds by one byte. -/
theorem witness_ReadServed_bounds : Ready (heard []) [] ∧ (33554431 : Addr).toNat + (2 : Addr).toNat > 33554432 :=
  ⟨ready_heard _, by decide⟩

/-- The empty read at the end of the device, skipped. -/
theorem witness_ReadServed_skip :
    Ready { heard [] with params := { Params.default with emptyXfer := .skip } } [] ∧
    (33554432 : Addr).toNat ≤ 33554432 ∧
    ({ heard [] with params := { Params.default with emptyXfer := .skip } } : State).params.emptyXfer = .skip :=
  ⟨⟨⟨rfl, rfl⟩, ⟨rfl, rfl⟩, rfl⟩, by decide, rfl⟩

/-- The last byte of the device, read and failing; and the empty read, sent. -/
theorem witness_ReadServed_sent : Ready (heard [.ok [0x7F]]) [.ok [0x7F]] ∧ Ready (heard [.fail ⟨7⟩]) [.fail ⟨7⟩] ∧
    (33554431 : Addr).toNat + (1 : Addr).toNat ≤ 33554432 ∧ [(0x7F : Byte)].length = (1 : Addr).toNat ∧
    Ready (heard [.ok []]) [.ok []] ∧ (33554432 : Addr).toNat + (0 : Addr).toNat ≤ 33554432 ∧
    (heard [.ok []]).params.emptyXfer = .literal :=
  ⟨ready_heard _, ready_heard _, by decide, by decide, ready_heard _, by decide, rfl⟩

theorem witness_BusyWaitPolls : Scripted (at' .eraseChip .pollPost 0 0 [] [.ok [0xFF], .ok [0x01], .ok [0x00]]) ∧
    (∀ b ∈ [(0xFF : Byte), 0x01], b.getLsbD 0 = true) ∧
    (at' .eraseChip .pollPost 0 0 [] [.ok [0xFF], .ok [0x01], .ok [0x00]]).answers =
      [(0xFF : Byte), 0x01].map (fun b => .ok [b]) ++ [.ok [0x00]] :=
  ⟨⟨rfl, rfl⟩, by decide, rfl⟩

theorem witness_WritePageServed_spans : Ready (heard []) [] ∧ (0xFF : Addr).toNat % 256 + [(1 : Byte), 2].length > 256 :=
  ⟨ready_heard _, by decide⟩

theorem witness_WritePageServed_latch : Ready (heard [.ok [], .ok [0xFD]]) [.ok [], .ok [0xFD]] ∧
    (0xFF : Addr).toNat % 256 + [(1 : Byte)].length ≤ 256 ∧ (heard []).params.pageCapCheck = false ∧
    (0xFD : Byte).getLsbD 1 = false :=
  ⟨ready_heard _, by decide, rfl, by decide⟩

theorem witness_WritePageServed_done :
    Ready (heard [.ok [], .ok [0x03], .ok [], .ok [0x03], .ok [0x02]])
      (.ok [] :: .ok [0x03] :: .ok [] :: ([(0x03 : Byte)].map (fun b => .ok [b]) ++ .ok [0x02] :: [])) ∧
    (heard []).params.verifyEn = false ∧ (0xFF : Addr).toNat % 256 + [(1 : Byte)].length ≤ 256 ∧
    (heard []).params.pageCapCheck = false ∧ (0x03 : Byte).getLsbD 1 = true ∧ (0x03 : Byte).getLsbD 0 = true ∧
    (0x02 : Byte).getLsbD 0 = false :=
  ⟨ready_heard _, rfl, by decide, rfl, by decide, by decide, by decide⟩

/-- 64 bytes, the whole of a window, up to the end of their page. -/
theorem witness_WritePageVerifies :
    Ready (verifying (heard [.ok [], .ok [0x02], .ok [], .ok [0x00], .ok (List.replicate 64 7)]))
      [.ok [], .ok [0x02], .ok [], .ok [0x00], .ok (List.replicate 64 7)] ∧
    (verifying (heard [])).params.verifyEn = true ∧ (verifying (heard [])).params.pageCapCheck = false ∧
    (0xC0 : Addr).toNat % 256 + (List.replicate 64 (7 : Byte)).length ≤ 256 ∧ (List.replicate 64 (7 : Byte)).length ≤ 64 ∧
    0 < (List.replicate 64 (7 : Byte)).length ∧ (0x02 : Byte).getLsbD 1 = true ∧ (0x00 : Byte).getLsbD 0 = false :=
  ⟨⟨⟨rfl, rfl⟩, ⟨rfl, rfl⟩, rfl⟩, rfl, rfl, by decide, by decide, by decide, by decide, by decide⟩

theorem witness_WriteServed_bounds : Ready (heard []) [] ∧ (33554431 : Addr).toNat + [(1 : Byte), 2].length > 33554432 :=
  ⟨ready_heard _, by decide⟩

/-- The last byte of the device, with one busy answer in each wait. -/
theorem witness_WriteServed_done :
    Ready (heard [.ok [0x01], .ok [0x00], .ok [], .ok [0x02], .ok [], .ok [0x03], .ok [0x00]])
      ([(0x01 : Byte)].map (fun x => .ok [x]) ++ .ok [0x00] :: .ok [] :: .ok [0x02] :: .ok [] ::
        ([(0x03 : Byte)].map (fun x => .ok [x]) ++ .ok [0x00] :: [])) ∧
    (heard []).params.verifyEn = false ∧ (33554431 : Addr).toNat + [(1 : Byte)].length ≤ 33554432 ∧
    0 < [(1 : Byte)].length ∧ [(1 : Byte)].length ≤ 256 - (33554431 : Addr).toNat % 256 ∧
    (∀ x ∈ [(0x01 : Byte)] ++ [0x03], x.getLsbD 0 = true) ∧ (0x00 : Byte).getLsbD 0 = false ∧
    (0x02 : Byte).getLsbD 1 = true :=
  ⟨ready_heard _, rfl, by decide, by decide, by decide, by decide, by decide, by decide⟩

theorem witness_ErasesServed_bounds : Ready (heard []) [] ∧ (8192 : Addr).toNat ≥ 8192 ∧ (1024 : Addr).toNat ≥ 1024 ∧
    (512 : Addr).toNat ≥ 512 := ⟨ready_heard _, by decide, by decide, by decide⟩

theorem witness_ErasesServed_done :
    Ready (heard [.ok [0x01], .ok [0x00], .ok [], .ok [0x02], .ok [], .ok [0x03], .ok [0x00]])
      ([(0x01 : Byte)].map (fun x => .ok [x]) ++ .ok [0x00] :: .ok [] :: .ok [0x02] :: .ok [] ::
        ([(0x03 : Byte)].map (fun x => .ok [x]) ++ .ok [0x00] :: [])) ∧
    Ready (heard [.ok [0x01], .ok [0x00], .ok [], .ok [], .ok [0x02], .ok [], .ok [0x03], .ok [0x00]])
      ([(0x01 : Byte)].map (fun x => .ok [x]) ++ .ok [0x00] :: .ok [] :: .ok [] :: .ok [0x02] :: .ok [] ::
        ([(0x03 : Byte)].map (fun x => .ok [x]) ++ .ok [0x00] :: [])) ∧
    (heard []).params.verifyEn = false ∧ (heard []).params.modeOrder = .beforeHandshake ∧
    (∀ x ∈ [(0x01 : Byte)] ++ [0x03], x.getLsbD 0 = true) ∧ (0x00 : Byte).getLsbD 0 = false ∧
    (0x02 : Byte).getLsbD 1 = true ∧ (8191 : Addr).toNat < 8192 ∧ (511 : Addr).toNat < 512 ∧ (1023 : Addr).toNat < 1024 :=
  ⟨ready_heard _, ready_heard _, rfl, rfl, by decide, by decide, by decide, by decide, by decide, by decide⟩

/-- Misaligned and reversed; aligned and reversed; empty; beyond the device. -/
theorem witness_EraseRangeServed_none : Ready (heard []) [] ∧ (8193 : Addr).toNat % 4096 ≠ 0 ∧
    (8192 : Addr).toNat % 4096 = 0 ∧ (4096 : Addr).toNat % 4096 = 0 ∧ (8192 : Addr).toNat > (4096 : Addr).toNat ∧
    33554432 ≤ (33554432 : Addr).toNat ∧ (33554432 : Addr).toNat % 4096 = 0 ∧ (33558528 : Addr).toNat % 4096 = 0 ∧
    (33554432 : Addr).toNat < (33558528 : Addr).toNat :=
  ⟨ready_heard _, by decide, by decide, by decide, by decide, by decide, by decide, by decide, by decide⟩

/-- The last sector of the device. -/
theorem witness_EraseRangeServed_sector :
    Ready (heard [.ok [0x00], .ok [], .ok [0x02], .ok [], .ok [0x00]]) [.ok [0x00], .ok [], .ok [0x02], .ok [], .ok [0x00]] ∧
    (heard []).params.verifyEn = false ∧ (33550336 : Addr).toNat % 4096 = 0 ∧
    (33554432 : Addr).toNat = (33550336 : Addr).toNat + 4096 ∧ (33550336 : Addr).toNat < 33554432 ∧
    (0x00 : Byte).getLsbD 0 = false ∧ (0x02 : Byte).getLsbD 1 = true :=
  ⟨ready_heard _, rfl, by decide, by decide, by decide, by decide, by decide⟩

theorem witness_FollowsPseudocode : Ready (heard [.ok [0x03]]) [.ok [0x03]] ∧
    flowRequest (heard [.ok [0x03]]).params .busy ⟨[], [.ok [0x03]]⟩ = some (.ok (.flag true), ⟨[sr 0x03], []⟩) :=
  ⟨ready_heard _, by decide⟩

/-- V-WR5: two chunks of one byte. -/
theorem witness_WriteTilesItsData :
    (flowRequest Params.default (.write 255 [1, 2]) ⟨[], [.ok [0x00], .ok [], .ok [0x02], .ok [], .ok [0x00], .ok [],
      .ok [0x02], .ok [], .ok [0x00]]⟩).map (fun r => (r.1, programs r.2.trace)) =
        some (.ok .nothing, [(0xFF, [1]), (0x100, [2])]) := by decide

theorem witness_WriteChunkInPlace : Inv lastChunk ∧ lastChunk.reqOp = .write ∧
    lastChunk.nextFrame = some (.pageProgram4b 33554431 [0x5A]) := ⟨by constructor <;> decide, rfl, rfl⟩

/-- The reference oracle at each call site. -/
theorem witness_ReferenceChipAnswers :
    (wired Chip.start (poll .busy .status 0)).nextFrame = some .readStatus1 ∧
    (wired Chip.start (at' .enableWrite .wren 0 0 [] [])).nextFrame = some .writeEnable ∧
    (wired Chip.start (at' .enter4ByteAddressMode .mode 0 0 [] [])).nextFrame = some .enter4ByteMode ∧
    (wired Chip.start (at' .exit4ByteAddressMode .mode 0 0 [] [])).nextFrame = some .exit4ByteMode ∧
    (wired Chip.start (at' .reset .rst1 0 0 [] [])).nextFrame = some .resetDevice ∧
    (wired Chip.start (at' .reset .rst2 0 0 [] [])).nextFrame = some .enableReset ∧
    (wired { Chip.start with busyCnt := 2 } (poll .busy .status 0)).nextFrame = some .readStatus1 ∧
    (wired { Chip.start with busyCnt := 2 } (at' .read .cmd 0 2 [] [])).nextFrame = some (.readData4b 0 2) ∧
    (wired Chip.start (at' .read .cmd 33554431 2 [] [])).nextFrame = some (.readData4b 33554431 2) ∧
    (wired Chip.start base).busEnd = .reference ∧ Chip.start.busyCnt = 0 ∧ base.holdPin = .high ∧ base.wpPin = .high := by
  decide

/-- The reference oracle's chip with the latch set, at the last address of the device, and at the call site of each erase. -/
theorem witness_ReferenceChipStarts :
    Inv (wired { Chip.start with wel := true } (at' .writePage .cmd 33554431 1 [0x5A] [])) ∧
    (wired { Chip.start with wel := true } (at' .writePage .cmd 33554431 1 [0x5A] [])).nextFrame =
      some (.pageProgram4b 33554431 [0x5A]) ∧
    (wired Chip.start (at' .eraseSector .cmd 8191 0 [] [])).nextFrame = some (.sectorErase4k4b 33550336) ∧
    (wired Chip.start (at' .eraseBlock64k .cmd 511 0 [] [])).nextFrame = some (.blockErase64k4b 33488896) ∧
    (wired Chip.start (at' .eraseBlock32k .cmd 1023 0 [] [])).nextFrame = some (.blockErase32k 33521664) ∧
    Chip.start.busyCnt = 0 ∧ Chip.start.mode4 = false ∧
    (wired Chip.start (at' .eraseChip .cmd 0 0 [] [])).nextFrame = some .chipErase :=
  ⟨by constructor <;> decide, by decide, by decide, by decide, by decide, rfl, rfl, by decide⟩

/-- 95 section 4: a page program on an idle, latched chip is in flight for `K` = 1 status reads. -/
theorem test_oracle_takes_page_program :
    (after (exec (.pageProgram4b 0x10 [0x5A]) (wired { Chip.start with wel := true }
      (at' .writePage .cmd 0x10 1 [0x5A] [])))).map (fun t => (t.chip.pending, t.chip.busyCnt)) =
      some (some (.program 0x10 [0x5A]), 1) := by decide

theorem witness_ReferenceChipCompletes :
    (wired { Chip.start with busyCnt := 1, pending := some (.program 0xFF [0x11, 0x22]) }
      (poll .writePage .pollPost 0)).nextFrame = some .readStatus1 ∧
    (wired { Chip.start with busyCnt := 1, pending := some (.erase 0x1000 4096) }
      (poll .eraseSector .pollPost 0)).chip.busyCnt = 1 ∧
    Chip.start.mem.wf = true ∧ 0xFF < 33554432 ∧ [(0x11 : Byte), 0x22].length ≤ 256 := by decide

end Sys2Proof.Tests
end

section
/-! SUPPORT. Proofs of the encoding statements (30_encoding.md). -/

namespace Sys2Proof

/-- R83's formula, byte by byte. Each byte is already reduced modulo 256, so it needs no bound on the address. -/
theorem be32_map_toNat (a : Nat) :
    (be32 a).map BitVec.toNat = [a / 2 ^ 24 % 256, a / 2 ^ 16 % 256, a / 2 ^ 8 % 256, a % 256] := by
  simp [be32]

/-- The framing function puts the opcode before the address field and adds nothing else (R83). -/
theorem frameBytes_eq_append (op : Byte) (a : Addr) : frameBytes op a = [op] ++ be32 a.toNat := rfl

/-- The five addressed frames of R86 send the opcode of their row and their address operand unchanged. -/
theorem encode_addressedFrames (a : Addr) (d : List Byte) (n : Nat) :
    encode (.readData4b a n) = .frame (frameBytes 0x13 a) n ∧
    encode (.pageProgram4b a d) = .frame (frameBytes 0x12 a ++ d) 0 ∧
    encode (.sectorErase4k4b a) = .frame (frameBytes 0x21 a) 0 ∧
    encode (.blockErase32k a) = .frame (frameBytes 0x52 a) 0 ∧
    encode (.blockErase64k4b a) = .frame (frameBytes 0xDC a) 0 :=
  ⟨rfl, rfl, rfl, rfl, rfl⟩

/-- Settles O4: the bytes of `be32` are R83's quotients modulo 256, and framing and the encoder pass the address through
as it is; the example frame of R83 is computed. -/
theorem addressFieldIsBigEndian : Obligations.AddressFieldIsBigEndian := by
  unfold Obligations.AddressFieldIsBigEndian
  exact ⟨fun a _ => be32_map_toNat a, frameBytes_eq_append, by decide, encode_addressedFrames⟩

end Sys2Proof
end

section
/-! SUPPORT. Proofs of the status and handshake statements (41_status_handshake.md). -/

namespace Sys2Proof.Safety

open Sys2Proof.Machine

/-- At `STATUS` the only frame selected is the status read (R130). -/
theorem nextFrame_of_status {s : State} (h : s.phase = .status) : s.nextFrame = some .readStatus1 := by
  simp only [State.nextFrame, h]

/-- A transfer that is answered leaves `PHASE` as it was. -/
theorem hears_phase {tx rx : List Byte} {s u : State} (h : Hears tx rx s u) : u.phase = s.phase := by
  obtain ⟨_, _, rfl⟩ := hears_state h
  rfl

/-- A transfer that is answered leaves `REQ_OP` as it was. -/
theorem hears_reqOp {tx rx : List Byte} {s u : State} (h : Hears tx rx s u) : u.reqOp = s.reqOp := by
  obtain ⟨_, _, rfl⟩ := hears_state h
  rfl

/-- A status byte at `STATUS` ends the request with the answer its operation takes from that byte (R130 to R132). -/
theorem afterStatusByte_status {b : Byte} {u : State} (h : u.phase = .status) :
    afterStatusByte b u = u.finish (statusValue u.reqOp b) := by
  simp only [afterStatusByte, h]

/-- A status read heard at `STATUS` ends the running request with that request's answer. -/
theorem exec_readStatus1_heard_at_status {s u : State} {b : Byte} (hp : s.phase = .status) (h : Hears [0x05] [b] s u) :
    exec .readStatus1 s = .next (u.finish (statusValue s.reqOp b)) := by
  have hx : exec .readStatus1 s = .next (afterStatusByte b u) := exec_hears (nextFrame_of_status hp) rfl rfl h
  rw [hx, afterStatusByte_status ((hears_phase h).trans hp), hears_reqOp h]

/-- Settles O31: the heard byte is answered as `statusValue` says for each of the three requests, bit 0 for `busy`, bit 1
for `write_enabled`; a failed status read raises the bus failure, as at every call site. -/
theorem statusReadAnswers : Obligations.StatusReadAnswers := by
  unfold Obligations.StatusReadAnswers
  constructor
  · intro s u b hp h
    have hx := exec_readStatus1_heard_at_status hp h
    refine ⟨fun hop => ?_, fun hop => ?_, fun hop => ?_⟩ <;> rw [hop] at hx <;> exact hx
  · intro s u e hp h
    exact exec_fails (nextFrame_of_status hp) rfl h

end Sys2Proof.Safety
end

section
/-! SUPPORT. Proofs of the read statements (43_read.md). -/

namespace Sys2Proof.Safety

open Sys2Proof.Machine

/-- What follows a frame's transfer puts nothing more on the trace: the transfer's event is the only one. -/
theorem frameNext_trace (i : Instr) (rx : List Byte) (s : State) : (frameNext i rx s).trace = s.trace := by
  obtain ⟨_, _, _, _, _, _, _, _, h⟩ := decides_frameNext i rx s
  rw [h]

/-- A transfer that is answered puts its one event on the trace (R111). -/
theorem hears_trace {tx rx : List Byte} {s u : State} (h : Hears tx rx s u) : u.trace = s.trace ++ [.frame tx rx] := by
  obtain ⟨_, _, rfl⟩ := hears_state h
  rfl

/-- A selected frame that is answered is one event on the trace, which holds all the bytes received (R111). -/
theorem exec_hears_trace {s u : State} {i : Instr} {tx rx : List Byte} {n : Nat} (hn : s.nextFrame = some i)
    (he : encode i = .frame tx n) (hl : rx.length = n) (h : Hears tx rx s u) :
    ∃ t, exec i s = .next t ∧ t.trace = s.trace ++ [.frame tx rx] :=
  ⟨_, exec_hears hn he hl h, (frameNext_trace i rx u).trans (hears_trace h)⟩

/-- At the command site of a `read` the frame selected reads all of the buffer (R145). -/
theorem nextFrame_of_read {s : State} (hp : s.phase = .cmd) (hop : s.reqOp = .read) :
    s.nextFrame = some (.readData4b s.argA s.argB.toNat) := by
  simp only [State.nextFrame, hp, State.commandFrame, hop]

/-- Outside verification the bytes received are delivered to the host (R145). -/
theorem afterReadData_delivers {u : State} (h : u.phase = .cmd) (rx : List Byte) :
    afterReadData rx u = ({ u with dataOut := rx }).finish (.bytes rx) := by
  simp only [afterReadData, h]

/-- Settles O38: a selected read frame is sent whole, so its transfer's answer is its one event, all `n` bytes of it, and a
failed transfer raises the bus failure; at `CMD` of a `read` what follows the transfer is the delivery. -/
theorem readFrameDelivers : Obligations.ReadFrameDelivers := by
  unfold Obligations.ReadFrameDelivers
  refine ⟨fun s u a n hn => ⟨fun rx hl h => ?heard, fun e h => ?failed⟩, fun s u rx hp hop hl h => ?delivered⟩
  case heard => exact exec_hears_trace hn rfl hl h
  case failed => exact exec_fails hn rfl h
  case delivered =>
    have hx : exec (.readData4b s.argA s.argB.toNat) s = .next (afterReadData rx u) :=
      exec_hears (nextFrame_of_read hp hop) rfl hl h
    rw [hx, afterReadData_delivers ((hears_phase h).trans hp)]
    rfl

end Sys2Proof.Safety
end

section
/-! SUPPORT. Proofs of the write and erase frame statements (44_write.md, 45_erase.md). -/

namespace Sys2Proof.Safety

open Sys2Proof.Machine

/-- At `CMD` the frame selected is the command frame of the running request (R27). -/
theorem nextFrame_of_cmd {s : State} {op : ReqOp} (hp : s.phase = .cmd) (hop : s.reqOp = op) :
    s.nextFrame = ({ s with reqOp := op }).commandFrame := by
  subst hop
  show s.nextFrame = s.commandFrame
  simp only [State.nextFrame, hp]

/-- The address of a unit is index times size where that fits the address field (R84). -/
theorem unitAddr_toNat {index size : Nat} (h : index * size < 2 ^ 32) : (unitAddr index size).toNat = index * size := by
  rw [unitAddr, BitVec.toNat_ofNat, Nat.mod_eq_of_lt h]

/-- The bytes of an addressed erase carry index times size (R83, R84). -/
theorem frameBytes_unitAddr {index size : Nat} (op : Byte) (h : index * size < 2 ^ 32) :
    frameBytes op (unitAddr index size) = op :: be32 (index * size) := by
  rw [frameBytes, unitAddr_toNat h]

/-- A mutating frame, one that the trailing busy-wait follows, receives nothing and leads to `POLL_POST` when it is answered
(R153, R160). -/
theorem exec_mutating_heard {s u : State} {i : Instr} {tx : List Byte} (hn : s.nextFrame = some i)
    (he : encode i = .frame tx 0) (hm : frameNext i [] u = u.goto .pollPost) (h : Hears tx [] s u) :
    exec i s = .next { u with phase := .pollPost } := by
  rw [exec_hears hn he rfl h, hm, State.goto]

/-- An erase of one unit is sent with index times size as its address and leads to `POLL_POST` (R84, R161 to R163). -/
theorem exec_unitErase_heard {s u : State} {i : Instr} {op : Byte} {index size : Nat} (hn : s.nextFrame = some i)
    (he : encode i = .frame (frameBytes op (unitAddr index size)) 0) (hm : frameNext i [] u = u.goto .pollPost)
    (hlt : index * size < 2 ^ 32) (h : Hears (op :: be32 (index * size)) [] s u) :
    exec i s = .next { u with phase := .pollPost } := by
  rw [frameBytes_unitAddr op hlt] at he
  exact exec_mutating_heard hn he hm h

/-- Settles O36: wherever a page program is selected its transfer is its encoding, and the trailing busy-wait or the bus
failure follows; at `CMD` each mutating request selects its own frame, a unit's address being in range of the field. -/
theorem mutatingFramesSent : Obligations.MutatingFramesSent := by
  unfold Obligations.MutatingFramesSent
  refine ⟨fun s u a d hn => ⟨fun h => ?heard, fun e h => ?failed⟩, fun s u hp hop h => ?writePage,
    fun s u hp hop h => ?write, fun s u hp hop hlt h => ?eraseSector, fun s u hp hop hlt h => ?eraseRange,
    fun s u hp hop hlt h => ?eraseBlock32k, fun s u hp hop hlt h => ?eraseBlock64k, fun s u hp hop h => ?eraseChip⟩
  case heard => exact exec_mutating_heard hn rfl rfl h
  case failed => exact exec_fails hn rfl h
  case writePage => exact exec_mutating_heard (nextFrame_of_cmd hp hop) rfl rfl h
  case write => exact exec_mutating_heard (nextFrame_of_cmd hp hop) rfl rfl h
  case eraseSector => exact exec_unitErase_heard (nextFrame_of_cmd hp hop) rfl rfl (by omega) h
  case eraseRange => exact exec_unitErase_heard (nextFrame_of_cmd hp hop) rfl rfl (by omega) h
  case eraseBlock32k => exact exec_unitErase_heard (nextFrame_of_cmd hp hop) rfl rfl (by omega) h
  case eraseBlock64k => exact exec_unitErase_heard (nextFrame_of_cmd hp hop) rfl rfl (by omega) h
  case eraseChip => exact exec_mutating_heard (nextFrame_of_cmd hp hop) rfl rfl h

end Sys2Proof.Safety
end

section
/-! SUPPORT. Proofs of the error statements (60_exceptions.md): what a frame and a check can end the running request with, and
what each error kind comes from. -/

namespace Sys2Proof.Safety

open Sys2Proof.Machine

/-! ### What a decision can end a request with -/

/-- If `t` is about to respond, its response is one that `P` admits. -/
def EndsIn (P : Result → Prop) (t : State) : Prop := t.phase = .respond → P t.result

section

variable {P : Result → Prop}

theorem endsIn_goto {p : Phase} (hp : p ≠ .respond) (s : State) : EndsIn P (s.goto p) := fun h => absurd h hp

theorem endsIn_raise {r : Result} (hr : P r) (s : State) : EndsIn P (s.raise r) := fun _ => hr

theorem endsIn_finish {v : Value} (hv : P (.ok v)) (s : State) : EndsIn P (s.finish v) := fun _ => hv

/-- A check of `write_page` can fail only as out of bounds (R152). -/
theorem endsIn_beginPage (hok : ∀ v, P (.ok v)) (hoob : P .outOfBounds) (a n : Nat) (s : State) :
    EndsIn P (beginPage a n s) := by
  unfold beginPage
  split
  · exact endsIn_raise hoob s
  · split
    · exact endsIn_raise hoob s
    · split
      · exact endsIn_finish (hok _) s
      · exact endsIn_goto (by decide) s

/-- A chunk that stays in its page and in the device passes every check of `write_page` (R152). -/
theorem endsIn_beginPage_of_fits (hok : ∀ v, P (.ok v)) {a n : Nat} (hs : spansPage a n = false)
    (hc : exceedsCapacity a n = false) (s : State) : EndsIn P (beginPage a n s) := by
  unfold beginPage
  rw [if_neg (by simp only [hs, Bool.false_eq_true, not_false_eq_true]),
    if_neg (by simp only [hc, Bool.and_false, Bool.false_eq_true, not_false_eq_true])]
  split
  · exact endsIn_finish (hok _) s
  · exact endsIn_goto (by decide) s

/-- The first chunk of a `write` in bounds raises nothing: it ends at the page end or sooner (R150). -/
theorem endsIn_beginChunks (hok : ∀ v, P (.ok v)) {s : State}
    (hc : exceedsCapacity s.argA.toNat s.dataIn.length = false) : EndsIn P (beginChunks s) := by
  rw [exceedsCapacity_eq_false] at hc
  have hlen : State.chunkLen { s with cur := s.argA, off := 0 } = firstChunk s.argA.toNat s.dataIn.length := rfl
  unfold beginChunks
  dsimp only
  rw [hlen]
  split
  · exact endsIn_finish (hok _) _
  · refine endsIn_beginPage_of_fits hok ?_ ?_ _
    · rw [spansPage_eq_false, firstChunk]; simp only [pageSize]; omega
    · rw [exceedsCapacity_eq_false, firstChunk]; omega

/-- A sector of `erase_range` can fail only as out of bounds (R166). -/
theorem endsIn_nextSector (hok : ∀ v, P (.ok v)) (hoob : P .outOfBounds) (s : State) : EndsIn P (nextSector s) := by
  unfold nextSector
  split
  · split
    · exact endsIn_raise hoob s
    · exact endsIn_goto (by decide) s
  · exact endsIn_finish (hok _) s

/-- A finished command ends with an error only where `erase_range` has a sector out of bounds ahead (R166). -/
theorem endsIn_commandDone (hok : ∀ v, P (.ok v)) {s : State} (hoob : s.reqOp = .eraseRange → P .outOfBounds)
    (hacc : operandsAccepted s = true) (hc : s.reqOp = .write → chunkCursors s = true) : EndsIn P (commandDone s) := by
  cases hop : s.reqOp
  case eraseRange =>
    have hd : commandDone s = sectorDone s := by simp only [commandDone, hop]
    rw [hd]
    exact endsIn_nextSector hok (hoob hop) _
  case write =>
    rw [commandDone_goesOn ⟨_, _, _, _, _, _, rfl⟩ hacc hc]
    simp only [goesOn, hop]
    split
    · exact nofun
    · exact fun _ => hok _
  all_goals
    have hd : commandDone s = s.finish .nothing := by simp only [commandDone, hop]
    rw [hd]
    exact endsIn_finish (hok _) s

/-- The window loop ends a request only as its finished command does. -/
theorem endsIn_nextWindow (hok : ∀ v, P (.ok v)) {s : State} (hoob : s.reqOp = .eraseRange → P .outOfBounds)
    (hacc : operandsAccepted s = true) (hc : s.reqOp = .write → chunkCursors s = true) : EndsIn P (nextWindow s) := by
  unfold nextWindow
  split
  · exact endsIn_goto (by decide) s
  · exact endsIn_commandDone hok hoob hacc hc

/-- So does the end of the trailing busy-wait. -/
theorem endsIn_afterPollPost (hok : ∀ v, P (.ok v)) {s : State} (hoob : s.reqOp = .eraseRange → P .outOfBounds)
    (hacc : operandsAccepted s = true) (hc : s.reqOp = .write → chunkCursors s = true) : EndsIn P (afterPollPost s) := by
  unfold afterPollPost
  split
  · exact endsIn_nextWindow (s := { s with vcur := s.regionAddr, voff := 0 }) hok hoob hacc hc
  · exact endsIn_commandDone hok hoob hacc hc

/-- A window that differs is the one further error of verification (R176 to R178). -/
theorem endsIn_afterWindow (hok : ∀ v, P (.ok v)) {s : State} {rx : List Byte}
    (hoob : s.reqOp = .eraseRange → P .outOfBounds) (hrb : rx ≠ s.expectedWindow → P .readbackFail)
    (hacc : operandsAccepted s = true) (hc : s.reqOp = .write → chunkCursors s = true) : EndsIn P (afterWindow rx s) := by
  unfold afterWindow
  split
  · exact endsIn_nextWindow (s := { s with vcur := s.vcur + BitVec.ofNat 32 s.windowLen, voff := s.voff + s.windowLen })
      hok hoob hacc hc
  · next hne => exact endsIn_raise (hrb hne) s

/-- The end of the leading busy-wait raises nothing: `write` has passed its bounds test. -/
theorem endsIn_afterPollPre (hok : ∀ v, P (.ok v)) {s : State} (hacc : operandsAccepted s = true) :
    EndsIn P (afterPollPre s) := by
  unfold afterPollPre
  split
  · next hop =>
    simp only [operandsAccepted, hop, Bool.not_eq_true'] at hacc
    exact endsIn_beginChunks hok hacc
  · exact endsIn_goto (by split <;> decide) s
  · exact endsIn_goto (by decide) s

/-- A passed handshake raises nothing (R133). -/
theorem endsIn_afterHandshake (hok : ∀ v, P (.ok v)) (s : State) : EndsIn P (afterHandshake s) := by
  unfold afterHandshake
  split
  · exact endsIn_finish (hok _) s
  · exact endsIn_goto (by split <;> decide) s
  · exact endsIn_goto (by decide) s

/-- A mode frame that is answered raises nothing (R140, R141). -/
theorem endsIn_afterMode (hok : ∀ v, P (.ok v)) (s : State) : EndsIn P (afterMode s) := by
  unfold afterMode
  split
  · exact endsIn_goto (by split <;> decide) s
  · exact endsIn_finish (hok _) s

end

/-! ### What a frame that is answered can end a request with -/

/-- What a request can end with at a frame that `s` selects and that is answered with `rx` (R190 to R196). -/
def HeardEnd (rx : List Byte) (s : State) : Result → Prop
  | .ok _ => True
  | .outOfBounds => s.reqOp = .eraseRange ∧ (s.phase = .pollPost ∨ s.phase = .verify)
  | .writeEnableFail => s.phase = .wrenChk ∧ (rx.headD 0).getLsbD 1 = false
  | .readbackFail => s.phase = .verify ∧ rx ≠ s.expectedWindow
  | .busTransportError _ | .pinControlError _ | .notAligned => False

/-- The status read, at each of its four call sites (R130 to R136). -/
theorem endsIn_afterStatusByte {s : State} {rx : List Byte} (hI : Inv s) (hs : frameSite s .readStatus1) :
    EndsIn (HeardEnd rx s) (afterStatusByte (rx.headD 0) s) := by
  have hok : ∀ v, HeardEnd rx s (.ok v) := fun _ => trivial
  rcases hs with hp | hp | hp | hp
  · rw [afterStatusByte_status hp]
    exact endsIn_finish (hok _) s
  · cases hb : (rx.headD 0).getLsbD 0
    · rw [afterStatusByte_pre hp hb]
      exact endsIn_afterPollPre hok (hI.accepted (by rw [hp]; rfl))
    · rw [afterStatusByte_busy (.inl hp) hb]
      exact fun h => by rw [hp] at h; cases h
  · cases hb : (rx.headD 0).getLsbD 1
    · rw [afterStatusByte_notLatched hp hb]
      exact endsIn_raise (r := .writeEnableFail) ⟨hp, hb⟩ s
    · rw [afterStatusByte_latched hp hb]
      exact endsIn_afterHandshake hok s
  · cases hb : (rx.headD 0).getLsbD 0
    · rw [afterStatusByte_post hp hb]
      obtain ⟨-, -, hacc, hc⟩ := inv_pre hI (by rw [hp]; rfl)
      exact endsIn_afterPollPost hok (fun hop => ⟨hop, .inl hp⟩) hacc hc
    · rw [afterStatusByte_busy (.inr hp) hb]
      exact fun h => by rw [hp] at h; cases h

/-- At `VERIFY` the bytes received are compared with the window (R176, R177). -/
theorem afterReadData_verify {s : State} (h : s.phase = .verify) (rx : List Byte) :
    afterReadData rx s = afterWindow rx s := by
  simp only [afterReadData, h]

/-- The read frame, at its two call sites (R145, R176). -/
theorem endsIn_afterReadData {s : State} {rx : List Byte} (hI : Inv s) (hp : s.phase = .cmd ∨ s.phase = .verify) :
    EndsIn (HeardEnd rx s) (afterReadData rx s) := by
  have hok : ∀ v, HeardEnd rx s (.ok v) := fun _ => trivial
  rcases hp with hp | hp
  · rw [afterReadData_delivers hp]
    exact endsIn_finish (hok _) _
  · rw [afterReadData_verify hp]
    obtain ⟨-, -, hacc, hc⟩ := inv_pre hI (by rw [hp]; rfl)
    exact endsIn_afterWindow hok (fun hop => ⟨hop, .inr hp⟩) (fun hne => ⟨hp, hne⟩) hacc hc

/-- Every frame that is selected and answered ends a request, if it does, as `HeardEnd` says. -/
theorem endsIn_frameNext {s : State} {i : Instr} (hI : Inv s) (hn : s.nextFrame = some i) (rx : List Byte) :
    EndsIn (HeardEnd rx s) (frameNext i rx s) := by
  have hok : ∀ v, HeardEnd rx s (.ok v) := fun _ => trivial
  have hs := nextFrame_site hn
  cases i
  case readStatus1 => exact endsIn_afterStatusByte hI hs
  case readData4b a n => exact endsIn_afterReadData hI (hs.imp And.left And.left)
  case enter4ByteMode => exact endsIn_afterMode hok s
  case exit4ByteMode => exact endsIn_afterMode hok s
  case enableReset => exact endsIn_finish (hok _) s
  case writeEnable => exact endsIn_goto (by decide) s
  case resetDevice => exact endsIn_goto (by decide) s
  case pageProgram4b => exact endsIn_goto (by decide) s
  case sectorErase4k4b => exact endsIn_goto (by decide) s
  case blockErase32k => exact endsIn_goto (by decide) s
  case blockErase64k4b => exact endsIn_goto (by decide) s
  case chipErase => exact endsIn_goto (by decide) s
  all_goals exact hs.elim

/-- A request that sends no mutating command, no handshake and no window can end only with success once it is answered. -/
theorem HeardEnd.succeeds {s : State} {rx : List Byte} {r : Result} (h : HeardEnd rx s r) (hI : Inv s)
    (hm : mutates s.reqOp = false) (he : s.reqOp ≠ .enableWrite) : ∃ v, r = .ok v := by
  have hu := hI.phaseFits
  cases r with
  | ok v => exact ⟨v, rfl⟩
  | outOfBounds =>
    obtain ⟨hop, -⟩ := h
    rw [hop] at hm; cases hm
  | writeEnableFail =>
    obtain ⟨hp, -⟩ := h
    simp [usesPhase, hp, hm, he] at hu
  | readbackFail =>
    obtain ⟨hp, -⟩ := h
    simp [usesPhase, hp, hm] at hu
  | busTransportError e => exact h.elim
  | pinControlError p => exact h.elim
  | notAligned => exact h.elim

/-- An answered transfer keeps the invariant: it can move the chip, which stays in form. -/
theorem Inv.heard {s u : State} {tx rx : List Byte} (h : Inv s) (hh : Hears tx rx s u) : Inv u := by
  obtain ⟨answers, chip, hs⟩ := busAnswer_state tx rx.length s
  have hc := busAnswer_chip tx rx.length s
  obtain ⟨-, rfl⟩ := hh
  rw [hs] at hc ⊢
  have hfit : chipFits chip = true := by
    rcases hc with rfl | ⟨_, hc⟩
    · exact h.chip
    · exact chip_answer h.chip hc
  exact ⟨h.activeFits, h.inService, h.phaseFits, h.lengthFits, h.accepted, h.chunk, h.window, hfit⟩

/-- Settles O24: a failed transfer is raised whatever frame is selected; an answered frame can raise only what a handshake, a
window or a later sector raises, and the six requests have none of them. -/
theorem busFailureEnds : Obligations.BusFailureEnds := by
  unfold Obligations.BusFailureEnds
  refine ⟨fun s u i tx n e hn he h => exec_fails hn he h, fun s u i tx rx hI hn he h hop => ?_⟩
  have hIu : Inv u := hI.heard h
  have hnu : u.nextFrame = some i := by
    obtain ⟨_, _, rfl⟩ := hears_state h
    exact hn
  have hm : mutates u.reqOp = false ∧ u.reqOp ≠ .enableWrite := by
    rw [hears_reqOp h]
    rcases hop with hop | hop | hop | hop | hop | hop <;> rw [hop] <;> decide
  exact ⟨_, exec_hears hn he rfl h, fun ht => (endsIn_frameNext hIu hnu rx ht).succeeds hIu hm.1 hm.2⟩

end Sys2Proof.Safety
end

section
/-! SUPPORT. Proof of the statement on the causes of the errors (60_exceptions.md section 1): what ends a step with a response,
and where each cause leads. -/

namespace Sys2Proof.Safety

open Sys2Proof.Machine

/-! ### What a check can end a request with -/

/-- What a request can end with at its `CHECK`: an error of its own test on the operands, or success where nothing is to be
sent (R121, R152, R165). -/
def CheckEnd (s : State) : Result → Prop
  | .ok _ | .outOfBounds => True
  | .notAligned => s.reqOp = .eraseRange ∧ (s.argA.toNat % 4096 ≠ 0 ∨ s.argB.toNat % 4096 ≠ 0)
  | .busTransportError _ | .pinControlError _ | .writeEnableFail | .readbackFail => False

/-- The alignment test of `erase_range` as an inequality on either operand (R124, R165). -/
theorem misaligned_or_misaligned (a b : Nat) :
    (misaligned a || misaligned b) = true ↔ a % 4096 ≠ 0 ∨ b % 4096 ≠ 0 := by
  rw [Bool.or_eq_true, misaligned_eq_true, misaligned_eq_true, sectorSize]

/-- The check of `erase_range` raises `NotAligned` where an operand is misaligned (R165). -/
theorem checkRange_misaligned {s : State} (h : s.argA.toNat % 4096 ≠ 0 ∨ s.argB.toNat % 4096 ≠ 0) :
    checkRange s = s.raise .notAligned := by
  unfold checkRange
  rw [if_pos ((misaligned_or_misaligned _ _).mpr h)]

/-- An aligned `erase_range` can fail its check only as out of bounds (R165, R166). -/
theorem endsIn_checkRange_of_aligned {P : Result → Prop} (hok : ∀ v, P (.ok v)) (hoob : P .outOfBounds) {s : State}
    (h : ¬ (s.argA.toNat % 4096 ≠ 0 ∨ s.argB.toNat % 4096 ≠ 0)) : EndsIn P (checkRange s) := by
  unfold checkRange
  rw [if_neg (mt (misaligned_or_misaligned _ _).mp h)]
  split
  · exact endsIn_raise hoob s
  · exact endsIn_nextSector hok hoob _

/-- Every check ends a request, if it does, as `CheckEnd` says. -/
theorem endsIn_checkedBy {s : State} {f : State → State} (hf : checkedBy s.running = some f) :
    EndsIn (CheckEnd s) (f s) := by
  have hok : ∀ v, CheckEnd s (.ok v) := fun _ => trivial
  have hoob : CheckEnd s .outOfBounds := trivial
  have index : ∀ n, EndsIn (CheckEnd s) (checkIndex n s) := by
    intro n
    unfold checkIndex
    split
    · exact endsIn_raise hoob s
    · exact endsIn_goto (by decide) s
  cases hop : s.reqOp <;> simp only [State.running, hop, checkedBy, reduceCtorEq, Option.some.injEq] at hf <;> subst hf
  case read =>
    unfold checkRead
    split
    · exact endsIn_raise hoob s
    · split
      · exact endsIn_finish (hok _) s
      · exact endsIn_goto (by decide) s
  case write =>
    unfold checkWrite
    split
    · exact endsIn_raise hoob s
    · exact endsIn_goto (by decide) s
  case writePage => exact endsIn_beginPage hok hoob _ _ s
  case eraseSector => exact index _
  case eraseBlock32k => exact index _
  case eraseBlock64k => exact index _
  case eraseRange =>
    by_cases ha : s.argA.toNat % 4096 ≠ 0 ∨ s.argB.toNat % 4096 ≠ 0
    · rw [checkRange_misaligned ha]
      exact endsIn_raise (r := .notAligned) ⟨hop, ha⟩ s
    · exact endsIn_checkRange_of_aligned hok hoob ha

/-- The requests that have a `CHECK` (R27). -/
theorem reqOp_of_usesPhase_check {op : ReqOp} (h : usesPhase op .check = true) :
    op = .read ∨ op = .write ∨ op = .writePage ∨ op = .eraseSector ∨ op = .eraseBlock32k ∨ op = .eraseBlock64k ∨
      op = .eraseRange := by
  cases op <;> simp [usesPhase, mutates] at h ⊢

/-! ### What ends a step with a response -/

/-- `u` is `s` with the abandon choice of its next step drawn (R119). -/
def Draws (s u : State) : Prop := ∃ l n, u = { s with abandons := l, draws := n }

/-- Drawing it keeps the invariant. -/
theorem Inv.draws {s u : State} (h : Inv s) (hd : Draws s u) : Inv u := by
  obtain ⟨_, _, rfl⟩ := hd
  exact ⟨h.activeFits, h.inService, h.phaseFits, h.lengthFits, h.accepted, h.chunk, h.window, h.chip⟩

/-- A check sends nothing (R110 kind a). -/
theorem checkedBy_trace {i : Instr} {f : State → State} (hf : checkedBy i = some f) (s : State) :
    (f s).trace = s.trace := by
  obtain ⟨_, _, _, _, _, _, _, _, h⟩ := decides_checkedBy hf s
  rw [h]

/-- `INIT` sends nothing (R231). -/
theorem initStep_trace (s : State) : s.initStep.trace = s.trace := by
  unfold State.initStep
  split
  · rfl
  · dsimp only
    split <;> rfl

/-- `INIT` gives no response, not even when it fails (R231). -/
theorem initStep_phase {s : State} (h : s.phase = .init) : s.initStep.phase ≠ .respond := by
  unfold State.initStep
  split
  · rw [h]; decide
  · dsimp only
    split
    · exact (by decide : Phase.idle ≠ .respond)
    · rw [State.pinsFailed_phase]
      exact fun hr => by rw [h] at hr; cases hr

/-- Acceptance sends nothing (R113). -/
theorem acceptedBy_trace (i : Instr) (s : State) : (acceptedBy i s).trace = s.trace := by cases i <;> rfl

/-- No rule begins at its response (R113). -/
theorem acceptedBy_phase {i : Instr} (h : isRequest i = true) (s : State) : (acceptedBy i s).phase ≠ .respond := by
  cases i <;> cases h <;> exact nofun

/-- A step in the terms of what can end a request: a step that does not, a check, a frame that is answered, a frame that
fails. -/
theorem step_ends {s t : State} (h : step s = .next t) :
    (t.trace = s.trace ∧ t.phase ≠ .respond ∧ (s.phase = .check → t.active = false)) ∨
    (s.phase = .check ∧ ∃ u f, Draws s u ∧ checkedBy u.running = some f ∧ t = f u) ∨
    (∃ u i rx v, Draws s u ∧ u.nextFrame = some i ∧ rx.length = frameRx i ∧ Hears (frameTx i) rx u v ∧
      t = frameNext i rx v) ∨
    (∃ u i e v, Draws s u ∧ u.nextFrame = some i ∧ Fails (frameTx i) (frameRx i) e u v ∧
      t = v.raise (.busTransportError e)) := by
  rcases step_cases h with ⟨hp, rfl⟩ | ⟨hp, -, rfl⟩ | ⟨hp, -, w, r, i, -, -, hi, rfl⟩ | ⟨-, -, l, n, rfl⟩ |
    ⟨l, n, f, hp, hf, rfl⟩ | ⟨l, n, hp, rfl⟩ | ⟨l, n, i, -, hn, rfl⟩
  · exact .inl ⟨initStep_trace s, initStep_phase hp, fun hc => by rw [hp] at hc; cases hc⟩
  · exact .inl ⟨rfl, by rw [hp]; decide, fun hc => by rw [hp] at hc; cases hc⟩
  · exact .inl ⟨acceptedBy_trace i _, acceptedBy_phase hi _, fun hc => by rw [hp] at hc; cases hc⟩
  · exact .inl ⟨rfl, nofun, fun _ => rfl⟩
  · exact .inr (.inl ⟨hp, _, f, ⟨l, n, rfl⟩, hf, rfl⟩)
  · exact .inl ⟨rfl, nofun, fun _ => rfl⟩
  · refine .inr (.inr ?_)
    have hd : Draws s { s with abandons := l, draws := n } := ⟨l, n, rfl⟩
    rcases transfers (frameTx i) (frameRx i) { s with abandons := l, draws := n } with ⟨rx, v, hl, hh⟩ | ⟨e, v, hf⟩
    · exact .inl ⟨_, i, rx, v, hd, hn, hl, hh, by rw [← hl, transfer_hears _ hh]⟩
    · exact .inr ⟨_, i, e, v, hd, hn, hf, transfer_fails _ hf⟩

/-! ### The cause of each error -/

/-- What the result `r` of a step from `s` to `t` comes from (R190 to R196). -/
def Cause (s t : State) : Result → Prop
  | .ok _ => True
  | .busTransportError e => ∃ tx n, t.trace = s.trace ++ [.failed tx n e]
  | .pinControlError _ => False
  | .notAligned =>
    s.phase = .check ∧ s.reqOp = .eraseRange ∧ (s.argA.toNat % 4096 ≠ 0 ∨ s.argB.toNat % 4096 ≠ 0)
  | .outOfBounds =>
    s.phase = .check ∧ (s.reqOp = .read ∨ s.reqOp = .write ∨ s.reqOp = .writePage ∨ s.reqOp = .eraseSector ∨
      s.reqOp = .eraseBlock32k ∨ s.reqOp = .eraseBlock64k ∨ s.reqOp = .eraseRange) ∨
    s.reqOp = .eraseRange ∧ (s.phase = .pollPost ∨ s.phase = .verify)
  | .writeEnableFail => s.phase = .wrenChk ∧ ∃ b, t.trace = s.trace ++ [sr b] ∧ b.getLsbD 1 = false
  | .readbackFail =>
    s.phase = .verify ∧ ∃ rx, t.trace = s.trace ++ [.frame (0x13 :: be32 s.vcur.toNat) rx] ∧ rx ≠ mustRead s

/-- What the model compares a window with is what the claims say it must hold (R176, R177). -/
theorem expectedWindow_eq_mustRead (s : State) : s.expectedWindow = mustRead s := by
  cases h : s.reqOp <;> simp [State.expectedWindow, mustRead, h, erasedByte]

/-- At the confirming status read the frame selected is the status read (R133). -/
theorem nextFrame_of_wrenChk {s : State} (h : s.phase = .wrenChk) : s.nextFrame = some .readStatus1 := by
  simp only [State.nextFrame, h]

/-- At `VERIFY` the frame selected reads the window (R176, R177). -/
theorem nextFrame_of_verify {s : State} (h : s.phase = .verify) : s.nextFrame = some (.readData4b s.vcur s.windowLen) := by
  simp only [State.nextFrame, h]

/-- What a check ends with has its cause in the operands. -/
theorem CheckEnd.cause {s : State} {r : Result} (h : CheckEnd s r) (hI : Inv s) (hp : s.phase = .check) (t : State) :
    Cause s t r := by
  cases r with
  | ok v => trivial
  | notAligned => exact ⟨hp, h⟩
  | outOfBounds =>
    have hu := hI.phaseFits
    rw [hp] at hu
    exact .inl ⟨hp, reqOp_of_usesPhase_check hu⟩
  | busTransportError e => exact h.elim
  | pinControlError p => exact h.elim
  | writeEnableFail => exact h.elim
  | readbackFail => exact h.elim

/-- What an answered frame ends with has its cause in that frame's event. -/
theorem HeardEnd.cause {s t : State} {i : Instr} {rx : List Byte} {r : Result} (h : HeardEnd rx s r)
    (hn : s.nextFrame = some i) (hl : rx.length = frameRx i) (ht : t.trace = s.trace ++ [.frame (frameTx i) rx]) :
    Cause s t r := by
  cases r with
  | ok v => trivial
  | outOfBounds => exact .inr h
  | writeEnableFail =>
    obtain ⟨hp, hb⟩ := h
    obtain rfl := Option.some.inj (hn.symm.trans (nextFrame_of_wrenChk hp))
    obtain ⟨b, rfl⟩ := List.length_eq_one_iff.mp hl
    exact ⟨hp, b, ht, hb⟩
  | readbackFail =>
    obtain ⟨hp, hne⟩ := h
    obtain rfl := Option.some.inj (hn.symm.trans (nextFrame_of_verify hp))
    exact ⟨hp, rx, ht, expectedWindow_eq_mustRead s ▸ hne⟩
  | busTransportError e => exact h.elim
  | pinControlError p => exact h.elim
  | notAligned => exact h.elim

/-- A step of the invariant that leads to the response carries a result that has its cause in that step. -/
theorem step_endsIn_cause {s t : State} (hI : Inv s) (h : step s = .next t) : EndsIn (Cause s t) t := by
  intro hr
  rcases step_ends h with ⟨-, hnr, -⟩ | ⟨hp, u, f, hd, hf, rfl⟩ | ⟨u, i, rx, v, hd, hn, hl, hh, rfl⟩ |
    ⟨u, i, e, v, hd, hn, hf, rfl⟩
  · exact absurd hr hnr
  · have hc := endsIn_checkedBy hf hr
    have hIu := hI.draws hd
    obtain ⟨_, _, rfl⟩ := hd
    exact hc.cause hIu hp _
  · have ht := (frameNext_trace i rx v).trans (hears_trace hh)
    have hnv : v.nextFrame = some i := by
      obtain ⟨_, _, rfl⟩ := hears_state hh
      exact hn
    have he : HeardEnd rx u (frameNext i rx v).result := by
      have he := endsIn_frameNext ((hI.draws hd).heard hh) hnv rx hr
      obtain ⟨_, _, rfl⟩ := hears_state hh
      exact he
    obtain ⟨_, _, rfl⟩ := hd
    exact he.cause hn hl ht
  · obtain ⟨_, _, rfl⟩ := hd
    obtain ⟨_, _, rfl⟩ := fails_state hf
    exact ⟨_, _, rfl⟩

/-! ### Where each cause leads -/

/-- A step that puts an event on the trace sends the frame selected: the event is its transfer's, answered or failed. -/
theorem step_event {s t : State} {ev : BusEvent} (h : step s = .next t) (ht : t.trace = s.trace ++ [ev]) :
    (∃ u i rx v, Draws s u ∧ u.nextFrame = some i ∧ Hears (frameTx i) rx u v ∧ t = frameNext i rx v ∧
      ev = .frame (frameTx i) rx) ∨
    ∃ i e, ∃ v : State, t = v.raise (.busTransportError e) ∧ ev = .failed (frameTx i) (frameRx i) e := by
  rcases step_ends h with ⟨hq, -⟩ | ⟨-, u, f, hd, hf, rfl⟩ | ⟨u, i, rx, v, hd, hn, hl, hh, rfl⟩ |
    ⟨u, i, e, v, hd, hn, hf, rfl⟩
  · simp [hq] at ht
  · rw [checkedBy_trace hf] at ht
    obtain ⟨_, _, rfl⟩ := hd
    simp at ht
  · refine .inl ⟨u, i, rx, v, hd, hn, hh, rfl, ?_⟩
    rw [frameNext_trace, hears_trace hh] at ht
    obtain ⟨_, _, rfl⟩ := hd
    simpa using ht.symm
  · refine .inr ⟨i, e, v, rfl, ?_⟩
    obtain ⟨_, _, rfl⟩ := hd
    obtain ⟨_, _, rfl⟩ := fails_state hf
    simpa using ht.symm

/-- A failed transfer leads to `BusTransportError` (R191). -/
theorem step_failed {s t : State} {tx : List Byte} {n : Nat} {e : BusErr} (h : step s = .next t)
    (ht : t.trace = s.trace ++ [.failed tx n e]) : t.phase = .respond ∧ t.result = .busTransportError e := by
  rcases step_event h ht with ⟨_, _, _, _, _, _, _, _, hev⟩ | ⟨i, e', v, rfl, hev⟩
  · cases hev
  · cases hev
    exact ⟨rfl, rfl⟩

/-- A confirming status byte with bit 1 clear leads to `WriteEnableFail` (R133). -/
theorem step_notLatched {s t : State} {b : Byte} (h : step s = .next t) (hp : s.phase = .wrenChk)
    (ht : t.trace = s.trace ++ [sr b]) (hb : b.getLsbD 1 = false) : t.phase = .respond ∧ t.result = .writeEnableFail := by
  rcases step_event h ht with ⟨u, i, rx, v, ⟨_, _, rfl⟩, hn, hh, rfl, hev⟩ | ⟨_, _, _, _, hev⟩
  · obtain rfl := Option.some.inj (hn.symm.trans (nextFrame_of_wrenChk hp))
    cases hev
    have hx : frameNext .readStatus1 [b] v = v.raise .writeEnableFail :=
      afterStatusByte_notLatched ((hears_phase hh).trans hp) hb
    rw [hx]
    exact ⟨rfl, rfl⟩
  · cases hev

/-- A verification window that differs leads to `ReadbackFail` (R176, R177). -/
theorem step_windowDiffers {s t : State} {rx : List Byte} (h : step s = .next t) (hp : s.phase = .verify)
    (ht : t.trace = s.trace ++ [.frame (0x13 :: be32 s.vcur.toNat) rx]) (hne : rx ≠ mustRead s) :
    t.phase = .respond ∧ t.result = .readbackFail := by
  rcases step_event h ht with ⟨u, i, rx', v, ⟨_, _, rfl⟩, hn, hh, rfl, hev⟩ | ⟨_, _, _, _, hev⟩
  · obtain rfl := Option.some.inj (hn.symm.trans (nextFrame_of_verify hp))
    obtain rfl := (BusEvent.frame.inj hev).2
    have hw : rx ≠ v.expectedWindow := by
      obtain ⟨_, _, rfl⟩ := hears_state hh
      exact (expectedWindow_eq_mustRead s).symm ▸ hne
    have hx : frameNext (.readData4b s.vcur s.windowLen) rx v = v.raise .readbackFail := by
      rw [frameNext, afterReadData_verify ((hears_phase hh).trans hp), afterWindow, if_neg hw]
    exact hx ▸ ⟨rfl, rfl⟩
  · cases hev

/-- A step at `CHECK` abandons the operation or takes the running request's check. -/
theorem step_check {s t : State} {f : State → State} (h : step s = .next t) (hp : s.phase = .check)
    (hf : checkedBy s.running = some f) :
    (t.active = false ∧ t.phase ≠ .respond) ∨ ∃ u, Draws s u ∧ t = f u := by
  have noFrame : ∀ u i, Draws s u → u.nextFrame ≠ some i := by
    rintro _ i ⟨_, _, rfl⟩ hn
    simp [State.nextFrame, hp] at hn
  rcases step_ends h with ⟨-, hr, ha⟩ | ⟨-, u, g, hd, hg, rfl⟩ | ⟨u, i, rx, v, hd, hn, -⟩ | ⟨u, i, e, v, hd, hn, -⟩
  · exact .inl ⟨ha hp, hr⟩
  · refine .inr ⟨u, hd, ?_⟩
    have hu : checkedBy u.running = some f := by
      obtain ⟨_, _, rfl⟩ := hd
      exact hf
    rw [Option.some.inj (hg.symm.trans hu)]
  · exact absurd hn (noFrame u i hd)
  · exact absurd hn (noFrame u i hd)

/-- The check of a misaligned `erase_range` leads to `NotAligned`, if the operation is not abandoned (R165). -/
theorem step_misaligned {s t : State} (h : step s = .next t) (hp : s.phase = .check) (hop : s.reqOp = .eraseRange)
    (ha : s.argA.toNat % 4096 ≠ 0 ∨ s.argB.toNat % 4096 ≠ 0) :
    (t.active = false ∧ t.phase ≠ .respond) ∨ (t.phase = .respond ∧ t.result = .notAligned) := by
  refine (step_check (f := checkRange) h hp (by simp only [State.running, hop, checkedBy])).imp_right ?_
  rintro ⟨u, hd, rfl⟩
  have hu : u.argA.toNat % 4096 ≠ 0 ∨ u.argB.toNat % 4096 ≠ 0 := by
    obtain ⟨_, _, rfl⟩ := hd
    exact ha
  rw [checkRange_misaligned hu]
  exact ⟨rfl, rfl⟩

/-- The check of a `write_page` over a page end leads to `OutOfBounds`, if the operation is not abandoned (R152). -/
theorem step_spansPage {s t : State} (h : step s = .next t) (hp : s.phase = .check) (hop : s.reqOp = .writePage)
    (hs : s.argA.toNat % 256 + s.dataIn.length > 256) :
    (t.active = false ∧ t.phase ≠ .respond) ∨ (t.phase = .respond ∧ t.result = .outOfBounds) := by
  refine (step_check (f := fun s => beginPage s.argA.toNat s.dataIn.length s) h hp
    (by simp only [State.running, hop, checkedBy])).imp_right ?_
  rintro ⟨u, ⟨_, _, rfl⟩, rfl⟩
  have hx := (spansPage_eq_true s.argA.toNat s.dataIn.length).mpr hs
  unfold beginPage
  rw [if_pos hx]
  exact ⟨rfl, rfl⟩

/-- Settles O25: the response of a step has a cause (`step_endsIn_cause`), and each cause leads to its own response. -/
theorem errorsHaveTheirCauses : Obligations.ErrorsHaveTheirCauses := by
  unfold Obligations.ErrorsHaveTheirCauses
  intro s t hI h
  refine ⟨fun hr => ?causes, fun ha hp hop hm => ?misaligned, fun ha hp hop hs => ?spans,
    fun b hp ht hb => (step_notLatched h hp ht hb).1, fun tx n e ht => (step_failed h ht).1,
    fun rx hp ht hne => (step_windowDiffers h hp ht hne).1⟩
  case causes =>
    have cause : ∀ {r}, t.result = r → Cause s t r := fun he => he ▸ step_endsIn_cause hI h hr
    refine ⟨fun e => ⟨cause, fun ⟨_, _, ht⟩ => (step_failed h ht).2⟩, fun p => cause, ⟨cause, ?_⟩, cause,
      ⟨cause, fun ⟨hp, b, ht, hb⟩ => (step_notLatched h hp ht hb).2⟩,
      ⟨cause, fun ⟨hp, rx, ht, hne⟩ => (step_windowDiffers h hp ht hne).2⟩⟩
    rintro ⟨hp, hop, hm⟩
    exact (step_misaligned h hp hop hm).elim (fun hq => absurd hr hq.2) And.right
  case misaligned => exact (step_misaligned h hp hop hm).elim (fun hq => by rw [hq.1] at ha; cases ha) And.left
  case spans => exact (step_spansPage h hp hop hs).elim (fun hq => by rw [hq.1] at ha; cases ha) id

end Sys2Proof.Safety
end

section
/-! SUPPORT. Proofs of the encoding statements (30_encoding.md): each format's decoder answers exactly the bytes its encoder
writes. -/

namespace Sys2Proof

open Sys2Proof.Safety

/-! ### What each format's decoder answers -/

theorem decodeOpA4_be32 (op : Byte) (i : Addr → Instr) (a : Addr) : decodeOpA4 op i (be32 a.toNat) 0 = .ok (i a) := by
  simp only [decodeOpA4, be32, if_true, fromBe32_be32]

theorem decodeOpA4Rn_be32 (op : Byte) (i : Addr → Nat → Instr) (a : Addr) (n : Nat) :
    decodeOpA4Rn op i (be32 a.toNat) n = .ok (i a n) := by
  simp only [decodeOpA4Rn, be32, fromBe32_be32]

/-- Data that stay in their page are read back (R98). -/
theorem decodeOpA4Dn_be32 (op : Byte) (i : Addr → List Byte → Instr) {a : Addr} {d : List Byte}
    (h : pageFits a d = true) : decodeOpA4Dn op i (be32 a.toNat ++ d) 0 = .ok (i a d) := by
  simp only [decodeOpA4Dn, be32, List.cons_append, List.nil_append, if_true, fromBe32_be32, h]

/-- A data length that fits `ARG_B` is read back from it (R23). -/
theorem decodeWithData_reqWordData (op : BitVec 4) (i : Addr → List Byte → Instr) (a : Addr) {d : List Byte}
    (h : lengthFits d = true) : decodeWithData (reqWordData op a d) i = .ok (i a d) := by
  have hl : d.length < 2 ^ 32 := of_decide_eq_true h
  have hm : d.length = (BitVec.ofNat 32 d.length).toNat := by rw [BitVec.toNat_ofNat, Nat.mod_eq_of_lt hl]
  exact if_pos hm

/-- Settles O1: a frame's format reads its own fields back, the address by `fromBe32_be32`; a request word's ordinal selects
its own request. -/
theorem decodeEncodeAgree : Obligations.DecodeEncodeAgree := by
  unfold Obligations.DecodeEncodeAgree
  intro i hw
  cases i
  case pageProgram4b a d => exact decodeOpA4Dn_be32 0x12 .pageProgram4b hw
  case readData4b a n => exact decodeOpA4Rn_be32 0x13 .readData4b a n
  case sectorErase4k4b a => exact decodeOpA4_be32 0x21 .sectorErase4k4b a
  case blockErase32k a => exact decodeOpA4_be32 0x52 .blockErase32k a
  case blockErase64k4b a => exact decodeOpA4_be32 0xDC .blockErase64k4b a
  case write a d => exact decodeWithData_reqWordData 7 .write a hw
  case writePage a d => exact decodeWithData_reqWordData 8 .writePage a hw
  all_goals rfl

/-! ### What a format's decoder accepts -/

theorem decodeOp_ok {op : Byte} {i j : Instr} {rest : List Byte} {n : Nat} (h : decodeOp op i rest n = .ok j) :
    rest = [] ∧ n = 0 ∧ j = i := by
  unfold decodeOp at h
  split at h
  · split at h
    · next hn => exact ⟨rfl, hn, (Except.ok.inj h).symm⟩
    · cases h
  · cases h

theorem decodeOpR1_ok {op : Byte} {i j : Instr} {rest : List Byte} {n : Nat} (h : decodeOpR1 op i rest n = .ok j) :
    rest = [] ∧ n = 1 ∧ j = i := by
  unfold decodeOpR1 at h
  split at h
  · split at h
    · next hn => exact ⟨rfl, hn, (Except.ok.inj h).symm⟩
    · cases h
  · cases h

theorem decodeOpA4_ok {op : Byte} {i : Addr → Instr} {j : Instr} {rest : List Byte} {n : Nat}
    (h : decodeOpA4 op i rest n = .ok j) : ∃ a : Addr, rest = be32 a.toNat ∧ n = 0 ∧ j = i a := by
  unfold decodeOpA4 at h
  split at h
  · next b3 b2 b1 b0 =>
    split at h
    · next hn => exact ⟨fromBe32 b3 b2 b1 b0, (be32_fromBe32 ..).symm, hn, (Except.ok.inj h).symm⟩
    · cases h
  · cases h

theorem decodeOpA4Rn_ok {op : Byte} {i : Addr → Nat → Instr} {j : Instr} {rest : List Byte} {n : Nat}
    (h : decodeOpA4Rn op i rest n = .ok j) : ∃ a : Addr, rest = be32 a.toNat ∧ j = i a n := by
  unfold decodeOpA4Rn at h
  split at h
  · next b3 b2 b1 b0 => exact ⟨fromBe32 b3 b2 b1 b0, (be32_fromBe32 ..).symm, (Except.ok.inj h).symm⟩
  · cases h

theorem decodeOpA4Dn_ok {op : Byte} {i : Addr → List Byte → Instr} {j : Instr} {rest : List Byte} {n : Nat}
    (h : decodeOpA4Dn op i rest n = .ok j) :
    ∃ (a : Addr) (d : List Byte), rest = be32 a.toNat ++ d ∧ n = 0 ∧ pageFits a d = true ∧ j = i a d := by
  unfold decodeOpA4Dn at h
  split at h
  · next b3 b2 b1 b0 d =>
    split at h
    · next hn =>
      split at h
      · next hf => exact ⟨fromBe32 b3 b2 b1 b0, d, by rw [be32_fromBe32]; rfl, hn, hf, (Except.ok.inj h).symm⟩
      · cases h
    · cases h
  · cases h

/-- A frame that is accepted is the encoding of a well-formed frame: byte 0 selects the format, which fixes all other bytes
(R80, R82, R86). -/
theorem decodeFrame_ok {tx : List Byte} {n : Nat} {i : Instr} (h : decodeFrame tx n = .ok i) :
    encode i = .frame tx n ∧ isRequest i = false ∧ i.wf = true := by
  have op : ∀ {o : Byte} {rest : List Byte} {f : Instr}, encode f = .frame [o] 0 → isRequest f = false → f.wf = true →
      decodeOp o f rest n = .ok i → encode i = .frame (o :: rest) n ∧ isRequest i = false ∧ i.wf = true := by
    intro o rest f he hr hw hd
    obtain ⟨rfl, rfl, rfl⟩ := decodeOp_ok hd
    exact ⟨he, hr, hw⟩
  have opA4 : ∀ {o : Byte} {rest : List Byte} {f : Addr → Instr}, (∀ a, encode (f a) = .frame (frameBytes o a) 0) →
      (∀ a, isRequest (f a) = false) → (∀ a, (f a).wf = true) →
      decodeOpA4 o f rest n = .ok i → encode i = .frame (o :: rest) n ∧ isRequest i = false ∧ i.wf = true := by
    intro o rest f he hr hw hd
    obtain ⟨a, rfl, rfl, rfl⟩ := decodeOpA4_ok hd
    exact ⟨he a, hr a, hw a⟩
  cases tx with
  | nil => cases h
  | cons o rest =>
    rw [decodeFrame] at h
    rcases ite_eq_iff.mp h with ⟨rfl, h⟩ | ⟨-, h⟩
    · obtain ⟨rfl, rfl, rfl⟩ := decodeOpR1_ok h
      exact ⟨rfl, rfl, rfl⟩
    rcases ite_eq_iff.mp h with ⟨rfl, h⟩ | ⟨-, h⟩
    · exact op rfl rfl rfl h
    rcases ite_eq_iff.mp h with ⟨rfl, h⟩ | ⟨-, h⟩
    · obtain ⟨a, d, rfl, rfl, hf, rfl⟩ := decodeOpA4Dn_ok h
      exact ⟨rfl, rfl, hf⟩
    rcases ite_eq_iff.mp h with ⟨rfl, h⟩ | ⟨-, h⟩
    · obtain ⟨a, rfl, rfl⟩ := decodeOpA4Rn_ok h
      exact ⟨rfl, rfl, rfl⟩
    rcases ite_eq_iff.mp h with ⟨rfl, h⟩ | ⟨-, h⟩
    · exact opA4 (fun _ => rfl) (fun _ => rfl) (fun _ => rfl) h
    rcases ite_eq_iff.mp h with ⟨rfl, h⟩ | ⟨-, h⟩
    · exact opA4 (fun _ => rfl) (fun _ => rfl) (fun _ => rfl) h
    rcases ite_eq_iff.mp h with ⟨rfl, h⟩ | ⟨-, h⟩
    · exact opA4 (fun _ => rfl) (fun _ => rfl) (fun _ => rfl) h
    rcases ite_eq_iff.mp h with ⟨rfl, h⟩ | ⟨-, h⟩
    · exact op rfl rfl rfl h
    rcases ite_eq_iff.mp h with ⟨rfl, h⟩ | ⟨-, h⟩
    · exact op rfl rfl rfl h
    rcases ite_eq_iff.mp h with ⟨rfl, h⟩ | ⟨-, h⟩
    · exact op rfl rfl rfl h
    rcases ite_eq_iff.mp h with ⟨rfl, h⟩ | ⟨-, h⟩
    · exact op rfl rfl rfl h
    rcases ite_eq_iff.mp h with ⟨rfl, h⟩ | ⟨-, h⟩
    · exact op rfl rfl rfl h
    cases h

/-- Settles O2: of a frame by `decodeFrame_ok`, of a request word by `decodeRequest_wf`. -/
theorem decodedIsWellFormed : Obligations.DecodedIsWellFormed := by
  unfold Obligations.DecodedIsWellFormed
  intro c i h
  cases c with
  | frame tx n => exact (decodeFrame_ok h).2.2
  | request w => exact decodeRequest_wf h

/-- Settles O3: what `decodeFrame_ok` says of an accepted frame. -/
theorem frameDecodingIsExact : Obligations.FrameDecodingIsExact := by
  unfold Obligations.FrameDecodingIsExact
  intro tx n i h
  obtain ⟨he, hr, -⟩ := decodeFrame_ok h
  exact ⟨he, hr⟩

/-- Settles O5: the words are closed, so the decoder is computed on each of them. -/
theorem sampleWordsDecode : Obligations.SampleWordsDecode := by
  unfold Obligations.SampleWordsDecode
  decide

/-- Below 15 every ordinal names a request; its word can still be refused for its length, but not as reserved (R95, R97). -/
theorem decodeRequest_ne_reservedOrdinal {w : ReqWord} (h : w.op ≠ 15) : decodeRequest w ≠ .error .reservedOrdinal := by
  have hd : ∀ i, decodeWithData w i ≠ .error .reservedOrdinal := by
    intro i
    unfold decodeWithData
    split <;> exact nofun
  have hop : w.op.toNat < 15 := by
    have hlt := w.op.isLt
    have hne : w.op.toNat ≠ 15 := fun he => h (BitVec.eq_of_toNat_eq he)
    omega
  unfold decodeRequest
  split
  case h_8 => exact hd _
  case h_9 => exact hd _
  case h_16 => grind
  all_goals exact nofun

theorem decodeRequest_of_op_fifteen {w : ReqWord} (h : w.op = 15) : decodeRequest w = .error .reservedOrdinal := by
  simp only [decodeRequest, h]
  rfl

end Sys2Proof
end

section
/-! SUPPORT. Proofs of the statements on what a step runs (40_sequencing_common.md sections 1 and 2) and on `INIT`
(70_reset_and_hazards.md section 1). -/

namespace Sys2Proof.Safety

open Sys2Proof.Machine

/-! ### At the port of an idle block -/

/-- A request word that decodes runs as its instruction, taken off the port and latched (R113). -/
theorem step_of_decoded {s : State} {w : ReqWord} {rest : List ReqWord} {i : Instr} (hp : s.phase = .idle)
    (hr : s.requests = w :: rest) (hd : decode (.request w) = .ok i) :
    step s = exec i ({ s with requests := rest }.latch w) := by
  simp only [step, State.fetch, hp, State.fetchRequest, hr, hd]

/-- A request word that does not decode is refused (R97, U11). -/
theorem step_of_undecoded {s : State} {w : ReqWord} {rest : List ReqWord} {e : DecodeError} (hp : s.phase = .idle)
    (hr : s.requests = w :: rest) (hd : decode (.request w) = .error e) : step s = .refused (.badRequest e) := by
  simp only [step, State.fetch, hp, State.fetchRequest, hr, hd]

/-- With no request presented an idle block waits. -/
theorem step_of_no_request {s : State} (hp : s.phase = .idle) (hr : s.requests = []) : step s = .next s := by
  simp only [step, State.fetch, hp, State.fetchRequest, hr]

/-- Settles O6: the ordinal 15 is the one that `decodeRequest` calls reserved, and a word that does not decode is refused. -/
theorem reservedOrdinalRefused : Obligations.ReservedOrdinalRefused := by
  unfold Obligations.ReservedOrdinalRefused
  exact ⟨fun s w rest hp hr hop => step_of_undecoded hp hr (decodeRequest_of_op_fifteen hop),
    fun w hop => decodeRequest_ne_reservedOrdinal hop⟩

/-- Settles O7: what `fetch` finds at the port of an idle block. -/
theorem requestAtPortRuns : Obligations.RequestAtPortRuns := by
  unfold Obligations.RequestAtPortRuns
  exact ⟨fun s w rest i hp hr hd => step_of_decoded hp hr hd, fun s hp hr => step_of_no_request hp hr⟩

/-- A request presented to an idle block is accepted (R113, R205). -/
theorem exec_accepted {i : Instr} {s : State} (hi : isRequest i = true) (h : idle s) :
    exec i s = .next (acceptedBy i s) := by
  rw [exec_request hi]
  simp only [serve, h.1, h.2, Bool.false_eq_true, if_false]

/-- Settles O26: acceptance is `acceptedBy`, written out for each request. -/
theorem requestsAccepted : Obligations.RequestsAccepted := by
  unfold Obligations.RequestsAccepted
  intro s a b d h
  refine ⟨?_, ?_, ?_, ?_, ?_, ?_, ?_, ?_, ?_, ?_, ?_, ?_, ?_, ?_, ?_⟩ <;> exact exec_accepted rfl h

/-! ### What is latched at the port -/

/-- Acceptance of `i` latches `w`: the running request is `i`, and beside `ACTIVE`, `REQ_OP`, `PHASE` only the operands of `w`
have been written. -/
def Latches (w : ReqWord) (i : Instr) : Prop :=
  isRequest i = true ∧ ∀ s : State, (acceptedBy i (s.latch w)).running = i ∧
    acceptedBy i (s.latch w) =
      { s with active := true, reqOp := (acceptedBy i (s.latch w)).reqOp, argA := w.argA, argB := w.argB,
               dataIn := w.dataIn, phase := (acceptedBy i (s.latch w)).phase }

/-- A request with data latches its word: `ARG_B` is the length of the data (R23). -/
theorem decodeWithData_latches {w : ReqWord} {i : Instr} {f : Addr → List Byte → Instr} (hf : f = .write ∨ f = .writePage)
    (h : decodeWithData w f = .ok i) : Latches w i := by
  unfold decodeWithData at h
  split at h
  · next hl =>
    obtain rfl := Except.ok.inj h
    have hb : BitVec.ofNat 32 w.dataIn.length = w.argB := by rw [hl, BitVec.ofNat_toNat, BitVec.setWidth_eq]
    rcases hf with rfl | rfl <;> refine ⟨rfl, fun s => ⟨rfl, ?_⟩⟩ <;> simp only [acceptedBy, hb] <;> rfl
  · cases h

/-- Every decoded request word is latched as it is (R113, D2): its ordinal fixes which operands the request writes again. -/
theorem decodeRequest_latches {w : ReqWord} {i : Instr} (h : decodeRequest w = .ok i) : Latches w i := by
  unfold decodeRequest at h
  split at h
  case h_8 => exact decodeWithData_latches (.inl rfl) h
  case h_9 => exact decodeWithData_latches (.inr rfl) h
  case h_16 => cases h
  all_goals
    obtain rfl := Except.ok.inj h
    exact ⟨rfl, fun s => ⟨rfl, rfl⟩⟩

/-- Settles O58: the step takes the word off the port and accepts its request, whose acceptance latches the word
(`decodeRequest_latches`). -/
theorem requestWordLatched : Obligations.RequestWordLatched := by
  unfold Obligations.RequestWordLatched
  intro s w rest i h hr hd
  obtain ⟨hi, hl⟩ := decodeRequest_latches hd
  obtain ⟨hrun, hst⟩ := hl { s with requests := rest }
  have hx : step s = .next (acceptedBy i ({ s with requests := rest }.latch w)) := by
    rw [step_of_decoded h.1 hr hd]
    exact exec_accepted hi h
  exact ⟨_, hx, hrun, hst⟩

/-! ### Inside an operation, and the abandon choice before a step of it -/

/-- A frame is selected only inside an operation (R27). -/
theorem nextFrame_inOperation {s : State} {i : Instr} (h : s.nextFrame = some i) : inOperation s.phase = true := by
  cases hp : s.phase <;> simp [State.nextFrame, inOperation, hp] at h ⊢

theorem check_or_respond_inOperation {s : State} (h : s.phase = .check ∨ s.phase = .respond) :
    inOperation s.phase = true := by
  rcases h with h | h <;> rw [h] <;> rfl

/-- The choice that is fixed is the first of the list, which is used up (R119). -/
theorem abandonChoice_fixed {s : State} {b : Bool} {rest : List Bool} (ha : s.params.abandon = true)
    (hl : s.abandons = b :: rest) : s.abandonChoice = (b, { s with abandons := rest }) := by
  simp only [State.abandonChoice, ha, if_true, hl]

/-- Where none is fixed the choice is free, and it is counted (R119). -/
theorem abandonChoice_free {s : State} (ha : s.params.abandon = true) (hl : s.abandons = []) :
    s.abandonChoice = (Config.abandons s.draws, { s with draws := s.draws + 1 }) := by
  simp only [State.abandonChoice, ha, if_true, hl]

/-- A choice to abandon stops the operation (R119). -/
theorem step_of_abandons {s u : State} (hp : inOperation s.phase = true) (h : s.abandonChoice = (true, u)) :
    step s = .next u.abandonOp := by
  have hf : s.fetch = .quiet u.abandonOp := by
    unfold State.fetch
    split
    · next hs => rw [hs] at hp; cases hp
    · next hs => rw [hs] at hp; cases hp
    · rw [h]
  rw [step, hf]

/-- After a choice to go on, `fetch` looks at the operation itself. -/
theorem fetch_of_goes_on {s u : State} (hp : inOperation s.phase = true) (h : s.abandonChoice = (false, u)) :
    s.fetch = u.fetchActive := by
  unfold State.fetch
  split
  · next hs => rw [hs] at hp; cases hp
  · next hs => rw [hs] at hp; cases hp
  · rw [h]

/-- A choice to go on at a call site runs the frame selected there. -/
theorem step_frame_of_goes_on {s u : State} {i : Instr} (hp : inOperation s.phase = true)
    (h : s.abandonChoice = (false, u)) (hn : u.nextFrame = some i) : step s = exec i u := by
  have hf : u.fetchActive = .run i u := by
    unfold State.fetchActive
    split
    · next hs => simp [State.nextFrame, hs] at hn
    · next hs => simp [State.nextFrame, hs] at hn
    · rw [hn]
  rw [step, fetch_of_goes_on hp h, hf]

/-- A choice to go on at `CHECK` or `RESPOND` runs the request's own step. -/
theorem step_running_of_goes_on {s u : State} (hp : inOperation s.phase = true) (h : s.abandonChoice = (false, u))
    (hu : u.phase = .check ∨ u.phase = .respond) : step s = exec u.running u := by
  have hf : u.fetchActive = .run u.running u := by
    rcases hu with hu | hu <;> simp only [State.fetchActive, hu]
  rw [step, fetch_of_goes_on hp h, hf]

/-- Settles O8: `step_frame` and `step_running`. -/
theorem runningOperationRuns : Obligations.RunningOperationRuns := by
  unfold Obligations.RunningOperationRuns
  exact ⟨fun s i ha hn => step_frame ha hn, fun s ha hp => step_running ha hp⟩

/-- The requests that use `MODE` have a mode frame (R27). -/
theorem modeFrame_of_usesPhase {s : State} (h : usesPhase s.reqOp .mode = true) : ∃ i, s.modeFrame = some i := by
  cases ho : s.reqOp <;> simp [State.modeFrame, ho, usesPhase] at h ⊢

/-- The requests that use `CMD` have a command frame (R27). -/
theorem commandFrame_of_usesPhase {s : State} (h : usesPhase s.reqOp .cmd = true) : ∃ i, s.commandFrame = some i := by
  cases ho : s.reqOp <;> simp [State.commandFrame, ho, usesPhase, mutates] at h ⊢

/-- An operation in a state of the invariant is at a step of its request or at a call site of its rule (R27). -/
theorem Inv.runs_or_sends {s : State} (h : Inv s) (hp : inOperation s.phase = true) :
    (s.phase = .check ∨ s.phase = .respond) ∨ ∃ i, s.nextFrame = some i := by
  have hu := h.phaseFits
  unfold State.nextFrame
  cases hph : s.phase <;> rw [hph] at hu hp
  case init => cases hp
  case idle => cases hp
  case check => exact .inl (.inl rfl)
  case respond => exact .inl (.inr rfl)
  case mode => exact .inr (modeFrame_of_usesPhase hu)
  case cmd => exact .inr (commandFrame_of_usesPhase hu)
  all_goals exact .inr ⟨_, rfl⟩

/-- A step of an operation that cannot be abandoned is the step of one instruction from the state itself. -/
theorem step_unabandoned {s t : State} (hI : Inv s) (ha : s.params.abandon = false) (hp : inOperation s.phase = true)
    (h : step s = .next t) : ∃ i, exec i s = .next t := by
  rcases hI.runs_or_sends hp with hc | ⟨i, hn⟩
  · exact ⟨_, step_running ha hc ▸ h⟩
  · exact ⟨i, step_frame ha hn ▸ h⟩

/-- An instruction's step inside an operation: a decision, the response, or a transfer and a decision. -/
theorem exec_in_operation {i : Instr} {s t : State} (hp : inOperation s.phase = true) (h : exec i s = .next t) :
    (s.phase = .respond ∧ t = s.respond) ∨ (s.phase ≠ .respond ∧
      ∃ answers chip trace, Decides { s with answers := answers, chip := chip, trace := trace } t) := by
  rcases exec_cases h with ⟨-, hi, -⟩ | ⟨-, hc, -, f, hf, rfl⟩ | ⟨-, hr, -, rfl⟩ | ⟨-, hn, rfl⟩
  · rw [hi] at hp; cases hp
  · exact .inr ⟨by rw [hc]; decide, s.answers, s.chip, s.trace, decides_checkedBy hf s⟩
  · exact .inl ⟨hr, rfl⟩
  · obtain ⟨a, c, e, hd⟩ := transfer_decides i (frameTx i) (frameRx i) s
    exact .inr ⟨fun hr => by simp [State.nextFrame, hr] at hn, a, c, _, hd⟩

/-- Settles O9: the choice is the one fixed or the free one; it stops the operation or is used up before the operation's own
step; without the parameter the step is the operation's own, which leaves `ACTIVE` set short of the response. -/
theorem abandonMove : Obligations.AbandonMove := by
  unfold Obligations.AbandonMove
  refine ⟨fun s rest hp ha hl => ?stops, fun s rest ha hl => ⟨fun i hn => ?frame, fun hc => ?running⟩,
    fun s ha hl => ⟨fun i hn => ?freeFrame, fun hc => ?freeRunning⟩, fun s t hI ha hact hr h => ?never⟩
  case stops => exact step_of_abandons hp (abandonChoice_fixed ha hl)
  case frame => exact step_frame_of_goes_on (nextFrame_inOperation hn) (abandonChoice_fixed ha hl) hn
  case running => exact step_running_of_goes_on (check_or_respond_inOperation hc) (abandonChoice_fixed ha hl) hc
  case freeFrame =>
    have hp := nextFrame_inOperation hn
    have hc := abandonChoice_free ha hl
    cases hb : Config.abandons s.draws <;> rw [hb] at hc
    · exact step_frame_of_goes_on hp hc hn
    · exact step_of_abandons hp hc
  case freeRunning =>
    have hp := check_or_respond_inOperation hc
    have hf := abandonChoice_free ha hl
    cases hb : Config.abandons s.draws <;> rw [hb] at hf
    · exact step_running_of_goes_on hp hf hc
    · exact step_of_abandons hp hf
  case never =>
    have hp : inOperation s.phase = true := hI.activeFits ▸ hact
    obtain ⟨i, hx⟩ := step_unabandoned hI ha hp h
    rcases exec_in_operation hp hx with ⟨hr', -⟩ | ⟨-, _, _, _, _, _, _, _, _, _, _, _, rfl⟩
    · exact absurd hr' hr
    · exact ⟨hact, rfl, rfl⟩

/-! ### Reset and `INIT` -/

/-- Settles O10: the fields of `State.reset`. -/
theorem resetState : Obligations.ResetState := by
  unfold Obligations.ResetState
  exact ⟨rfl, rfl, rfl, rfl, rfl, rfl, rfl⟩

/-- At `INIT` the step is `INIT`'s own (R231). -/
theorem step_of_init {s : State} (h : s.phase = .init) : step s = .next s.initStep := by
  simp only [step, State.fetch, h]

/-- Settles O11: the step at `INIT`, its pins being raised. -/
theorem initRaisesPins : Obligations.InitRaisesPins := by
  unfold Obligations.InitRaisesPins
  intro s hp hf ha
  rw [step_of_init hp]
  simp only [State.initStep, hf, ha, Bool.false_eq_true, if_false, State.pinsRaised]

/-- After a failed `INIT` the block does nothing, for any number of steps (R231). -/
theorem run_of_init_failed {s : State} (hp : s.phase = .init) (hf : s.initFailed = true) (k : Nat) :
    Host.Core.run core k s = .next s := by
  induction k with
  | zero => rfl
  | succ k ih =>
    have hs : core.step s = .next s := by
      show step s = .next s
      rw [step_of_init hp, State.initStep, if_pos hf]
    simp only [Host.Core.run, hs]
    exact ih

/-- Settles O12: the step at `INIT`, a pin not being raised; the later steps; and what any request finds there. -/
theorem failedInitStaysOut : Obligations.FailedInitStaysOut := by
  unfold Obligations.FailedInitStaysOut
  refine ⟨fun s p hold wp hp hf ha => ?_, fun s k hp hf => run_of_init_failed hp hf k, fun s i hp hi => ?_⟩
  · rw [step_of_init hp]
    simp only [State.initStep, hf, ha, Bool.false_eq_true, if_false, State.pinsFailed]
  · rw [exec_request hi]
    simp only [serve, hp]

end Sys2Proof.Safety
end

section
/-! SUPPORT. Proof that every step keeps the invariant: acceptance, the checks and what follows each frame, one lemma each. -/

namespace Sys2Proof.Safety

open Sys2Proof.Machine

/-- Acceptance at an idle block keeps the invariant. -/
theorem inv_acceptedBy {s : State} {i : Instr} (h : Inv s) (hp : s.phase = .idle) (hi : isRequest i = true)
    (hw : i.wf = true) : Inv (acceptedBy i s) := by
  have len : ∀ {d : List Byte}, Sys2Proof.lengthFits d = true → (BitVec.ofNat 32 d.length).toNat = d.length := by
    intro d hd
    rw [BitVec.toNat_ofNat, Nat.mod_eq_of_lt (of_decide_eq_true hd)]
  -- most rules begin outside the command phases
  have begins : ∀ {u : State} {op : ReqOp} {p : Phase}, u.holdPin = s.holdPin → u.wpPin = s.wpPin →
      u.initFailed = s.initFailed → u.chip = s.chip → inOperation p = true → pastCheck p = false → usesPhase op p = true →
      (op = .write ∨ op = .writePage → u.argB.toNat = u.dataIn.length) → Inv (u.accept op p) := by
    intro u op p e1 e2 e3 e4 ho hpc hu hl
    have hc : commandPhase p = false := by
      cases p <;> cases hpc <;> rfl
    exact inv_accept h hp e1 e2 e3 e4 hl ho (.inl hc) hu (fun hq => by rw [hpc] at hq; cases hq)
  cases i
  case write a d => exact begins rfl rfl rfl rfl rfl rfl rfl (fun _ => len hw)
  case writePage a d => exact begins rfl rfl rfl rfl rfl rfl rfl (fun _ => len hw)
  case enableWrite => exact inv_accept h hp rfl rfl rfl rfl nofun rfl (.inr (.inr rfl)) rfl (by simp)
  case enter4ByteAddressMode => exact inv_accept h hp rfl rfl rfl rfl nofun rfl (.inr (.inl rfl)) rfl (by simp)
  case exit4ByteAddressMode => exact inv_accept h hp rfl rfl rfl rfl nofun rfl (.inr (.inl rfl)) rfl (by simp)
  case eraseChip => exact inv_accept h hp rfl rfl rfl rfl nofun rfl (.inl rfl) rfl (by simp)
  case readStatus => exact begins rfl rfl rfl rfl rfl rfl rfl nofun
  case busy => exact begins rfl rfl rfl rfl rfl rfl rfl nofun
  case writeEnabled => exact begins rfl rfl rfl rfl rfl rfl rfl nofun
  case read a n => exact begins rfl rfl rfl rfl rfl rfl rfl nofun
  case eraseSector k => exact begins rfl rfl rfl rfl rfl rfl rfl nofun
  case eraseBlock32k k => exact begins rfl rfl rfl rfl rfl rfl rfl nofun
  case eraseBlock64k k => exact begins rfl rfl rfl rfl rfl rfl rfl nofun
  case eraseRange a b => exact begins rfl rfl rfl rfl rfl rfl rfl nofun
  case reset => exact begins rfl rfl rfl rfl rfl rfl rfl nofun
  all_goals cases hi

/-- The check of `read` establishes its bounds (R145). -/
theorem inv_checkRead {s : State} (b : Base s) (hop : s.reqOp = .read) : Inv (checkRead s) := by
  unfold checkRead
  split
  · exact b.raise _
  · next hx =>
    split
    · exact b.finish _
    · exact b.goto rfl (by rw [hop]; rfl) (fun _ => by simpa [operandsAccepted, hop] using hx)
        (fun _ hw => by rw [hop] at hw; cases hw) nofun

/-- The check of `write` establishes its bounds (R150). -/
theorem inv_checkWrite {s : State} (b : Base s) (hop : s.reqOp = .write) : Inv (checkWrite s) := by
  unfold checkWrite
  split
  · exact b.raise _
  · next hx => exact b.goto rfl (by rw [hop]; rfl) (fun _ => by simpa [operandsAccepted, hop] using hx) nofun nofun

/-- The check of `erase_range` establishes alignment and order (R165). -/
theorem inv_checkRange {s : State} (b : Base s) (hop : s.reqOp = .eraseRange) : Inv (checkRange s) := by
  unfold checkRange
  split
  · exact b.raise _
  · next hm =>
    split
    · exact b.raise _
    · next hle =>
      rw [Bool.not_eq_true, Bool.or_eq_false_iff] at hm
      exact inv_nextSector (s := { s with idx := _ }) ⟨b.act, b.pins, b.len, b.chip⟩ hop hm.1 hm.2 (Nat.le_of_not_lt hle)

/-- The check of the running request keeps the invariant. -/
theorem inv_checkedBy {s : State} {f : State → State} (b : Base s) (hf : checkedBy s.running = some f) : Inv (f s) := by
  cases hop : s.reqOp <;> simp only [State.running, hop, checkedBy, reduceCtorEq, Option.some.injEq] at hf <;> subst hf
  case read => exact inv_checkRead b hop
  case write => exact inv_checkWrite b hop
  case writePage =>
    exact inv_beginPage b (.inr hop) (fun h => by simp [operandsAccepted, hop, h]) (fun h => by rw [hop] at h; cases h)
  case eraseSector => exact inv_index b hop rfl (fun h => by simpa [operandsAccepted, hop] using h)
  case eraseBlock32k => exact inv_index b hop rfl (fun h => by simpa [operandsAccepted, hop] using h)
  case eraseBlock64k => exact inv_index b hop rfl (fun h => by simpa [operandsAccepted, hop] using h)
  case eraseRange => exact inv_checkRange b hop

/-- The requests that poll after a command are the mutating ones (R27). -/
theorem Inv.mutates_of_pollPost {s : State} (h : Inv s) (hp : s.phase = .pollPost ∨ s.phase = .verify) :
    mutates s.reqOp = true := by
  have hu := h.phaseFits
  rcases hp with hp | hp <;> rw [hp] at hu <;> exact hu

/-- A status byte keeps the invariant at each of its call sites. -/
theorem inv_afterStatusByte {u : State} (h : Inv u) (hs : frameSite u .readStatus1) (b : Byte) :
    Inv (afterStatusByte b u) := by
  rcases hs with hp | hp | hp | hp
  · rw [afterStatusByte_status hp]
    exact (h.base (by rw [hp]; rfl)).finish _
  · cases hb : b.getLsbD 0
    · rw [afterStatusByte_pre hp hb]
      exact inv_afterPollPre h hp
    · rw [afterStatusByte_busy (.inl hp) hb]
      exact h
  · cases hb : b.getLsbD 1
    · rw [afterStatusByte_notLatched hp hb]
      exact (h.base (by rw [hp]; rfl)).raise _
    · rw [afterStatusByte_latched hp hb]
      exact inv_afterHandshake h hp
  · cases hb : b.getLsbD 0
    · rw [afterStatusByte_post hp hb]
      obtain ⟨base, -, hacc, hc⟩ := inv_pre h (by rw [hp]; rfl)
      exact inv_afterPollPost base (h.mutates_of_pollPost (.inl hp)) hacc hc
    · rw [afterStatusByte_busy (.inr hp) hb]
      exact h

/-- A read frame keeps the invariant at both of its call sites. -/
theorem inv_afterReadData {u : State} (h : Inv u) (hp : u.phase = .cmd ∨ u.phase = .verify) (rx : List Byte) :
    Inv (afterReadData rx u) := by
  rcases hp with hp | hp
  · rw [afterReadData_delivers hp]
    have b := h.base (by rw [hp]; rfl)
    exact Base.finish (s := { u with dataOut := rx }) ⟨b.act, b.pins, b.len, b.chip⟩ _
  · rw [afterReadData_verify hp]
    obtain ⟨base, -, hacc, hc⟩ := inv_pre h (by rw [hp]; rfl)
    exact inv_afterWindow base (h.mutates_of_pollPost (.inr hp)) hacc hc (h.window hp)

/-- What follows a selected frame keeps the invariant. -/
theorem inv_frameNext {u : State} {i : Instr} (h : Inv u) (hn : u.nextFrame = some i) (rx : List Byte) :
    Inv (frameNext i rx u) := by
  have hs := nextFrame_site hn
  have post : u.phase = .cmd → ∀ op, u.reqOp = op → op ≠ .read → Inv (u.goto .pollPost) :=
    fun hp op hop hne => inv_toPost (hop ▸ hne) h hp
  have b := h.base (nextFrame_inOperation hn)
  cases i
  case readStatus1 => exact inv_afterStatusByte h hs _
  case writeEnable =>
    obtain ⟨-, hu, hacc, hc⟩ := inv_pre h (by rw [show u.phase = .wren from hs]; rfl)
    rw [show u.phase = .wren from hs] at hu
    exact b.goto rfl hu (fun _ => hacc) (fun _ => hc) nofun
  case pageProgram4b a d =>
    obtain ⟨hp, ⟨hop, -⟩ | ⟨hop, -⟩⟩ := hs
    · exact post hp _ hop nofun
    · exact post hp _ hop nofun
  case readData4b a n => exact inv_afterReadData h (hs.imp And.left And.left) rx
  case sectorErase4k4b a =>
    obtain ⟨hp, hop | hop, -⟩ := hs
    · exact post hp _ hop nofun
    · exact post hp _ hop nofun
  case blockErase32k a => exact post hs.1 _ hs.2.1 nofun
  case blockErase64k4b a => exact post hs.1 _ hs.2.1 nofun
  case chipErase => exact post hs.1 _ hs.2 nofun
  case enableReset => exact b.finish _
  case resetDevice =>
    have hu := h.phaseFits
    rw [show u.phase = .rst1 from hs] at hu
    exact b.goto rfl hu nofun nofun nofun
  case enter4ByteMode => exact inv_afterMode h hs.1
  case exit4ByteMode => exact inv_afterMode h hs.1
  all_goals exact hs.elim

/-- An operation that ends, answered or abandoned, leaves an idle block in the invariant. -/
theorem Base.ended {s t : State} (b : Base s) (hp : t.phase = .idle) (ha : t.active = false)
    (h1 : t.holdPin = s.holdPin) (h2 : t.wpPin = s.wpPin) (h3 : t.initFailed = s.initFailed) (hc : t.chip = s.chip) :
    Inv t := by
  refine ⟨by rw [hp, ha]; rfl, fun _ => by rw [h1, h2, h3]; exact b.pins, by rw [hp]; rfl, ?_, ?_, ?_, ?_, hc ▸ b.chip⟩ <;>
    rw [hp] <;> exact nofun

/-- Settles O14: each thing a step can do (`step_cases`) keeps the invariant. -/
theorem invariantKept : Obligations.InvariantKept := by
  unfold Obligations.InvariantKept
  intro s t h hst
  rcases step_cases hst with ⟨hp, rfl⟩ | ⟨-, -, rfl⟩ | ⟨hp, -, w, r, i, -, hd, hi, rfl⟩ | ⟨hp, -, l, n, rfl⟩ |
    ⟨l, n, f, hp, hf, rfl⟩ | ⟨l, n, hp, rfl⟩ | ⟨l, n, i, hp, hn, rfl⟩
  · exact inv_initStep h hp
  · exact h
  · exact inv_acceptedBy (inv_latch h hp w r) hp hi (decodeRequest_wf hd)
  · exact (h.base hp).ended rfl rfl rfl rfl rfl rfl
  · exact inv_checkedBy ((h.draws ⟨l, n, rfl⟩).base (by rw [show _ = s.phase from rfl, hp]; rfl)) hf
  · exact (h.base (by rw [hp]; rfl)).ended rfl rfl rfl rfl rfl rfl
  · exact inv_transfer (h.draws ⟨l, n, rfl⟩) hp (fun rx _ _ _ hu => inv_frameNext hu hn rx)

end Sys2Proof.Safety
end

section
/-! SUPPORT. Proofs of the statements every step keeps (10_state.md, 40_sequencing_common.md section 1, 60_exceptions.md
sections 5 and 6): progress, legal frames, the growth of the trace, what no step writes, responses and the request port. -/

namespace Sys2Proof.Safety

open Sys2Proof.Machine

/-- Settles O13: the reset state is outside any operation and its trace is empty. -/
theorem invariantsAtReset : Obligations.InvariantsAtReset := by
  unfold Obligations.InvariantsAtReset
  exact ⟨by constructor <;> decide, ⟨rfl, nofun, nofun, nofun⟩, rfl⟩

/-! ### Progress -/

/-- The requests that use `CHECK` have a check (R27). -/
theorem checkedBy_of_usesPhase {s : State} (h : usesPhase s.reqOp .check = true) : ∃ f, checkedBy s.running = some f := by
  cases ho : s.reqOp <;> simp [State.running, checkedBy, ho, usesPhase, mutates] at h ⊢

/-- At `CHECK` the running request takes its check (R110 kind a). -/
theorem exec_running_check {s : State} {f : State → State} (hp : s.phase = .check) (hf : checkedBy s.running = some f) :
    exec s.running s = .next (f s) := by
  rw [exec_request (running_isRequest s)]
  simp only [serve, hp, hf, if_true]

/-- At `RESPOND` the running request gives its response (R113). -/
theorem exec_running_respond {s : State} (hp : s.phase = .respond) : exec s.running s = .next s.respond := by
  rw [exec_request (running_isRequest s)]
  simp only [serve, hp, if_true]

/-- Settles O27: `State.respond`, written out. -/
theorem responseGiven : Obligations.ResponseGiven := by
  unfold Obligations.ResponseGiven
  exact fun s hp => exec_running_respond hp

/-- The choice drawn before a step of an operation, and the state with it drawn. -/
theorem abandonChoice_draws (s : State) : Draws s s.abandonChoice.2 := abandonChoice_state s

/-- An operation in a state of the invariant always has a next step. -/
theorem step_in_operation {s : State} (h : Inv s) (hp : inOperation s.phase = true) : ∃ t, step s = .next t := by
  rcases hc : s.abandonChoice with ⟨b, u⟩
  have hd : Draws s u := by
    have hd := abandonChoice_draws s
    rwa [hc] at hd
  cases b
  case true => exact ⟨_, step_of_abandons hp hc⟩
  case false =>
    have hIu := h.draws hd
    have hpu : inOperation u.phase = true := by
      obtain ⟨_, _, rfl⟩ := hd
      exact hp
    rcases hIu.runs_or_sends hpu with hru | ⟨i, hn⟩
    · rw [step_running_of_goes_on hp hc hru]
      rcases hru with hck | hrs
      · obtain ⟨f, hf⟩ := checkedBy_of_usesPhase (hck ▸ hIu.phaseFits)
        exact ⟨_, exec_running_check hck hf⟩
      · exact ⟨_, exec_running_respond hrs⟩
    · exact ⟨_, (step_frame_of_goes_on hp hc hn).trans (exec_selected hn)⟩

/-- Settles O15: `INIT` and an operation always step on; an idle block waits, accepts the decoded request, or refuses the
word. -/
theorem stepNeverStuck : Obligations.StepNeverStuck := by
  unfold Obligations.StepNeverStuck
  intro s h
  by_cases hinit : s.phase = .init
  · exact .inl ⟨_, step_of_init hinit⟩
  by_cases hidle : s.phase = .idle
  · have hact : s.active = false := by rw [h.activeFits, hidle]; rfl
    cases hr : s.requests with
    | nil => exact .inl ⟨_, step_of_no_request hidle hr⟩
    | cons w rest =>
      cases hd : decode (.request w) with
      | ok i =>
        have hx := exec_accepted (s := { s with requests := rest }.latch w) (decodeRequest_latches hd).1 ⟨hidle, hact⟩
        exact .inl ⟨_, (step_of_decoded hidle hr hd).trans hx⟩
      | error e => exact .inr ⟨hidle, w, rest, e, rfl, hd, step_of_undecoded hidle hr hd⟩
  · refine .inl (step_in_operation h ?_)
    revert hinit hidle
    cases s.phase <;> decide

/-! ### The trace -/

/-- Settles O18: a step sends nothing or makes one transfer (`step_ends`), which is one event. -/
theorem traceGrows : Obligations.TraceGrows := by
  unfold Obligations.TraceGrows
  intro s t h
  rcases step_ends h with ⟨ht, -⟩ | ⟨-, u, f, ⟨_, _, rfl⟩, hf, rfl⟩ | ⟨u, i, rx, v, ⟨_, _, rfl⟩, -, -, hh, rfl⟩ |
    ⟨u, i, e, v, ⟨_, _, rfl⟩, -, hf, rfl⟩
  · exact .inl ht
  · exact .inl (checkedBy_trace hf _)
  · have ht := (frameNext_trace i rx v).trans (hears_trace hh)
    exact .inr ⟨_, ht⟩
  · obtain ⟨_, _, rfl⟩ := fails_state hf
    exact .inr ⟨_, rfl⟩

/-- A frame's encoding is what it sends and the number of bytes it receives (R81). -/
theorem encode_frame {i : Instr} (h : isRequest i = false) : encode i = .frame (frameTx i) (frameRx i) := by
  cases i <;> cases h <;> rfl

/-- The bytes of a well-formed frame decode as that frame. -/
theorem decodeFrame_frameTx {i : Instr} (h : isRequest i = false) (hw : i.wf = true) :
    decodeFrame (frameTx i) (frameRx i) = .ok i := by
  have hd := decodeEncodeAgree i hw
  rwa [encode_frame h] at hd

theorem legalTrace_snoc {tr : List BusEvent} {e : BusEvent} (h : legalTrace tr = true) (he : legalEvent e = true) :
    legalTrace (tr ++ [e]) = true := by
  simp [legalTrace, List.all_append, he] at h ⊢
  exact h

/-- Settles O17: the one event a step can add is that of the frame selected, which is well formed under the invariant
(`nextFrame_wf`) and so decodes. -/
theorem legalFramesOnly : Obligations.LegalFramesOnly := by
  unfold Obligations.LegalFramesOnly
  intro s t h hl hst
  have decodes : ∀ {u i}, Draws s u → u.nextFrame = some i → decodeFrame (frameTx i) (frameRx i) = .ok i :=
    fun hd hn => decodeFrame_frameTx (nextFrame_isRequest hn) (nextFrame_wf (h.draws hd) hn)
  rcases step_ends hst with ⟨ht, -⟩ | ⟨-, u, f, ⟨_, _, rfl⟩, hf, rfl⟩ | ⟨u, i, rx, v, hd, hn, hrx, hh, rfl⟩ |
    ⟨u, i, e, v, hd, hn, hf, rfl⟩
  · rwa [ht]
  · rwa [checkedBy_trace hf]
  · have he : legalEvent (.frame (frameTx i) rx) = true := by
      rw [legalEvent, hrx, decodes hd hn]
      rfl
    rw [frameNext_trace, hears_trace hh]
    obtain ⟨_, _, rfl⟩ := hd
    exact legalTrace_snoc hl he
  · have he : legalEvent (.failed (frameTx i) (frameRx i) e) = true := by
      rw [legalEvent, decodes hd hn]
      rfl
    obtain ⟨_, _, rfl⟩ := hd
    obtain ⟨_, _, rfl⟩ := fails_state hf
    exact legalTrace_snoc hl he

/-! ### What a step writes -/

/-- Acceptance writes `ACTIVE`, `REQ_OP`, the operands and `PHASE`, and nothing else (R113). -/
theorem acceptedBy_writes (i : Instr) (s : State) :
    ∃ act op a b d p,
      acceptedBy i s = { s with active := act, reqOp := op, argA := a, argB := b, dataIn := d, phase := p } := by
  cases i <;> exact ⟨_, _, _, _, _, _, rfl⟩

/-- A step of an operation: it is abandoned, gives its response, or makes a decision, with or without a transfer before it. -/
theorem step_operation {s t : State} (hp : inOperation s.phase = true) (h : step s = .next t) :
    ∃ u, Draws s u ∧ ((s.params.abandon = true ∧ t = u.abandonOp) ∨ (s.phase = .respond ∧ t = u.respond) ∨
      (s.phase ≠ .respond ∧
        ∃ answers chip trace, Decides { u with answers := answers, chip := chip, trace := trace } t)) := by
  rcases step_cases h with ⟨hi, -⟩ | ⟨hi, -⟩ | ⟨hi, -⟩ | ⟨-, ha, l, n, rfl⟩ | ⟨l, n, f, hc, hf, rfl⟩ | ⟨l, n, hr, rfl⟩ |
    ⟨l, n, i, -, hn, rfl⟩
  · rw [hi] at hp; cases hp
  · rw [hi] at hp; cases hp
  · rw [hi] at hp; cases hp
  · exact ⟨_, ⟨l, n, rfl⟩, .inl ⟨ha, rfl⟩⟩
  · exact ⟨_, ⟨l, n, rfl⟩, .inr (.inr ⟨by rw [hc]; decide, s.answers, s.chip, s.trace, decides_checkedBy hf _⟩)⟩
  · exact ⟨_, ⟨l, n, rfl⟩, .inr (.inl ⟨hr, rfl⟩)⟩
  · obtain ⟨a, c, e, hd⟩ := transfer_decides i (frameTx i) (frameRx i) { s with abandons := l, draws := n }
    exact ⟨_, ⟨l, n, rfl⟩, .inr (.inr ⟨fun hr => by simp [State.nextFrame, hr] at hn, a, c, _, hd⟩)⟩

/-- A step outside any operation: `INIT`, waiting, or acceptance of the request at the port. -/
theorem step_outside {s t : State} (hp : inOperation s.phase = false) (h : step s = .next t) :
    (s.phase = .init ∧ t = s.initStep) ∨ (s.phase = .idle ∧ t = s) ∨
      (s.phase = .idle ∧ ∃ w r i, isRequest i = true ∧ t = acceptedBy i ({ s with requests := r }.latch w)) := by
  rcases step_cases h with hi | ⟨hi, -, ht⟩ | ⟨hi, -, w, r, i, -, -, hr, ht⟩ | ⟨ho, -⟩ | ⟨_, _, _, hc, -⟩ | ⟨_, _, hr, -⟩ |
    ⟨_, _, _, ho, -⟩
  · exact .inl hi
  · exact .inr (.inl ⟨hi, ht⟩)
  · exact .inr (.inr ⟨hi, w, r, i, hr, ht⟩)
  · rw [ho] at hp; cases hp
  · rw [hc] at hp; cases hp
  · rw [hr] at hp; cases hp
  · rw [ho] at hp; cases hp

/-- `INIT` writes the pins, `PHASE`, `RESULT` and that it failed; its answer is used up (R231). -/
theorem initStep_writes (s : State) :
    ∃ pa h w p r f,
      s.initStep = { s with pinAnswers := pa, holdPin := h, wpPin := w, phase := p, result := r, initFailed := f } := by
  unfold State.initStep
  split
  · exact ⟨_, _, _, _, _, _, rfl⟩
  · dsimp only
    split <;> exact ⟨_, _, _, _, _, _, rfl⟩

/-- Settles O19: of what a step can do only `INIT` writes a pin, and nothing writes a parameter. -/
theorem parametersAndPinsFixed : Obligations.ParametersAndPinsFixed := by
  unfold Obligations.ParametersAndPinsFixed
  intro s t h
  cases hp : inOperation s.phase
  case false =>
    rcases step_outside hp h with ⟨hi, rfl⟩ | ⟨-, rfl⟩ | ⟨-, w, r, i, -, rfl⟩
    · obtain ⟨_, _, _, _, _, _, hs⟩ := initStep_writes s
      exact ⟨by rw [hs], fun hn => absurd hi hn⟩
    · exact ⟨rfl, fun _ => ⟨rfl, rfl⟩⟩
    · obtain ⟨_, _, _, _, _, _, hs⟩ := acceptedBy_writes i ({ s with requests := r }.latch w)
      rw [hs]
      exact ⟨rfl, fun _ => ⟨rfl, rfl⟩⟩
  case true =>
    obtain ⟨u, ⟨_, _, rfl⟩, ⟨-, rfl⟩ | ⟨-, rfl⟩ | ⟨-, _, _, _, _, _, _, _, _, _, _, _, rfl⟩⟩ := step_operation hp h <;>
      exact ⟨rfl, fun _ => ⟨rfl, rfl⟩⟩

/-- Settles O20: of what a step can do only `State.respond` appends a response, and it alone ends an operation that cannot be
abandoned. -/
theorem oneResponsePerRequest : Obligations.OneResponsePerRequest := by
  unfold Obligations.OneResponsePerRequest
  intro s t hI ha h
  cases hp : inOperation s.phase
  case false =>
    have hr : s.phase ≠ .respond := fun hr => by rw [hr] at hp; cases hp
    have hact : s.active ≠ true := by rw [hI.activeFits, hp]; decide
    refine ⟨fun h => absurd h hr, fun _ => ⟨?_, fun h => absurd h hact⟩⟩
    rcases step_outside hp h with ⟨-, rfl⟩ | ⟨-, rfl⟩ | ⟨-, w, r, i, -, rfl⟩
    · obtain ⟨_, _, _, _, _, _, hs⟩ := initStep_writes s
      rw [hs]
    · rfl
    · obtain ⟨_, _, _, _, _, _, hs⟩ := acceptedBy_writes i ({ s with requests := r }.latch w)
      rw [hs]
      rfl
  case true =>
    obtain ⟨u, ⟨_, _, rfl⟩, ⟨hab, -⟩ | ⟨hr, rfl⟩ | ⟨hr, _, _, _, _, _, _, _, _, _, _, _, rfl⟩⟩ := step_operation hp h
    · rw [ha] at hab; cases hab
    · exact ⟨fun _ => ⟨rfl, rfl, rfl, rfl⟩, fun hn => absurd hr hn⟩
    · exact ⟨fun h => absurd h hr, fun _ => ⟨rfl, id⟩⟩

/-! ### The request port -/

/-- While `ACTIVE`, a request outside `CHECK` and `RESPOND` is refused (R205, U12). -/
theorem exec_refused_of_phase {i : Instr} {s : State} (hi : isRequest i = true) (ha : s.active = true)
    (hc : s.phase ≠ .check) (hr : s.phase ≠ .respond) : exec i s = .refused .portNotReady := by
  rw [exec_request hi]
  unfold serve
  split
  · simp only [ha, if_true]
  · next h => exact absurd h hc
  · next h => exact absurd h hr
  · rfl

/-- While `ACTIVE`, a request that is not the running one is refused (R205, U12). -/
theorem exec_refused_of_other {i : Instr} {s : State} (hi : isRequest i = true) (ha : s.active = true)
    (hne : s.running ≠ i) : exec i s = .refused .portNotReady := by
  rw [exec_request hi]
  unfold serve
  split
  · simp only [ha, if_true]
  · rw [if_neg hne]
  · rw [if_neg hne]
  · rfl

/-- Settles O21: acceptance is total in an idle block and `serve` refuses all else; a step of an operation takes no word off
the port. -/
theorem portClosedWhileActive : Obligations.PortClosedWhileActive := by
  unfold Obligations.PortClosedWhileActive
  refine ⟨fun i s hi h => ⟨_, exec_accepted hi h, ?_⟩, fun i s hi ha hc hr => exec_refused_of_phase hi ha hc hr,
    fun i s hi ha hne => exec_refused_of_other hi ha hne, fun s t hI ha h => ?_⟩
  · cases i <;> cases hi <;> rfl
  · have hp : inOperation s.phase = true := hI.activeFits ▸ ha
    obtain ⟨u, ⟨_, _, rfl⟩, ⟨-, rfl⟩ | ⟨-, rfl⟩ | ⟨-, _, _, _, _, _, _, _, _, _, _, _, rfl⟩⟩ := step_operation hp h <;> rfl

end Sys2Proof.Safety
end

section
/-! SUPPORT. Proof that every step keeps the handshake discipline (41_status_handshake.md section 2, 70_reset_and_hazards.md
section 3). -/

namespace Sys2Proof.Safety

open Sys2Proof.Machine

/-- The phases of which `HandshakeInv` says what the trace ends with. -/
def awaitsCommand : Phase → Bool
  | .wrenChk | .mode | .cmd => true
  | _ => false

theorem awaitsCommand_of_restarts {p : Phase} (h : restarts p = true) : awaitsCommand p = false := by
  cases p <;> cases h <;> rfl

/-- At any other phase only the trace matters. -/
theorem HandshakeInv.of_trace {t : State} (ht : handshaken t.params.modeOrder t.trace.reverse = true)
    (hp : awaitsCommand t.phase = false) : HandshakeInv t := by
  refine ⟨ht, fun h => ?_, fun h => ?_, fun h => ?_⟩ <;> rw [h] at hp <;> cases hp

/-- A decision that leads to such a phase leaves the trace as it is. -/
theorem HandshakeInv.of_decides {u t : State} (hd : Decides u t)
    (ht : handshaken u.params.modeOrder u.trace.reverse = true) (hp : awaitsCommand t.phase = false) :
    HandshakeInv t := by
  obtain ⟨_, _, _, _, _, _, _, _, rfl⟩ := hd
  exact HandshakeInv.of_trace ht hp

/-- An event keeps the discipline if the trace was ready for it, should it be a mutating one (R236). -/
theorem handshaken_snoc {order : ModeOrder} {tr : List BusEvent} {e : BusEvent} (h : handshaken order tr.reverse = true)
    (he : mutatingEvent e = true → readyForCommand order ((eventTx e).head? = some 0x52) tr.reverse = true) :
    handshaken order (tr ++ [e]).reverse = true := by
  rw [List.reverse_append, List.reverse_singleton, List.singleton_append, handshaken, h, Bool.and_true, Bool.or_eq_true,
    Bool.not_eq_true']
  cases hm : mutatingEvent e
  · exact .inl rfl
  · exact .inr (he hm)

/-- Where a mutating frame is selected the trace is ready for it: it is the command frame of a mutating request, the 0x52 that of
`erase_block_32k` (R86, R152, R160). -/
theorem HandshakeInv.ready {s : State} {i : Instr} {e : BusEvent} (h : HandshakeInv s) (hn : s.nextFrame = some i)
    (he : eventTx e = frameTx i) (hm : mutatingEvent e = true) :
    readyForCommand s.params.modeOrder ((eventTx e).head? = some 0x52) s.trace.reverse = true := by
  have command : ∀ op, s.phase = .cmd → s.reqOp = op → mutates op = true →
      readyForCommand s.params.modeOrder (op = .eraseBlock32k) s.trace.reverse = true := by
    intro op hp hop hmu
    have hc := h.command hp (hop ▸ hmu)
    rwa [hop] at hc
  have hs := nextFrame_site hn
  unfold mutatingEvent at hm
  rw [he] at hm ⊢
  cases i
  case pageProgram4b a d =>
    obtain ⟨hp, ⟨hop, -⟩ | ⟨hop, -⟩⟩ := hs
    · exact command _ hp hop rfl
    · exact command _ hp hop rfl
  case sectorErase4k4b a =>
    obtain ⟨hp, hop | hop, -⟩ := hs
    · exact command _ hp hop rfl
    · exact command _ hp hop rfl
  case blockErase32k a => exact command _ hs.1 hs.2.1 rfl
  case blockErase64k4b a => exact command _ hs.1 hs.2.1 rfl
  case chipErase => exact command _ hs.1 hs.2 rfl
  case readStatus1 => cases hm
  case writeEnable => cases hm
  case readData4b => cases hm
  case enableReset => cases hm
  case resetDevice => cases hm
  case enter4ByteMode => cases hm
  case exit4ByteMode => cases hm
  all_goals exact hs.elim

/-- The event of a selected frame keeps the discipline of the trace. -/
theorem HandshakeInv.event {s : State} {i : Instr} {e : BusEvent} (h : HandshakeInv s) (hn : s.nextFrame = some i)
    (he : eventTx e = frameTx i) : handshaken s.params.modeOrder (s.trace ++ [e]).reverse = true :=
  handshaken_snoc h.trace (h.ready hn he)

/-- The end of the leading busy-wait never skips the handshake (R160, R162). -/
theorem handshakeInv_afterPollPre {u : State} (ht : handshaken u.params.modeOrder u.trace.reverse = true) :
    HandshakeInv (afterPollPre u) := by
  have hd := decides_afterPollPre u
  unfold afterPollPre at hd ⊢
  split
  · exact .of_decides (decides_beginChunks u) ht (awaitsCommand_of_restarts (beginChunks_phase u))
  · cases hm : u.params.modeOrder
    · exact ⟨ht, nofun, fun _ _ ho => by simp [hm] at ho, nofun⟩
    · exact .of_trace ht rfl
  · exact .of_trace ht rfl

/-- A passed handshake is what its command needs, `> B7` still to be sent where it goes to `MODE` (R133, R162). -/
theorem handshakeInv_afterHandshake {u : State} (ht : handshaken u.params.modeOrder u.trace.reverse = true)
    (hp : handshakePassed u.trace.reverse = true) : HandshakeInv (afterHandshake u) := by
  have ready : ∀ b32, ¬ (u.params.modeOrder = .afterHandshake ∧ b32 = true) →
      readyForCommand u.params.modeOrder b32 u.trace.reverse = true := fun b32 hn => by rwa [readyForCommand, if_neg hn]
  unfold afterHandshake
  split
  · exact .of_trace ht rfl
  · cases hm : u.params.modeOrder
    · exact ⟨ht, nofun, nofun, fun _ _ => ready _ (by simp [hm])⟩
    · exact ⟨ht, nofun, fun _ _ _ => hp, nofun⟩
  · next hne => exact ⟨ht, nofun, nofun, fun _ _ => ready _ (fun hb => hne (of_decide_eq_true hb.2))⟩

/-- After a mode frame in the order `after_handshake` the handshake and `> B7` stand before the command (R162). -/
theorem handshakeInv_afterMode {u : State} (ht : handshaken u.params.modeOrder u.trace.reverse = true)
    (hr : u.reqOp = .eraseBlock32k → u.params.modeOrder = .afterHandshake →
      readyForCommand .afterHandshake true u.trace.reverse = true) : HandshakeInv (afterMode u) := by
  unfold afterMode
  split
  · next hop =>
    cases hm : u.params.modeOrder
    · exact .of_trace ht rfl
    · refine ⟨ht, nofun, nofun, fun _ _ => ?_⟩
      simpa [hm, hop] using hr hop hm
  · exact .of_trace ht rfl

/-- A status read heard right after `> 06`, with WEL set, is a passed handshake (R133). -/
theorem handshakePassed_of_confirmed {tr : List BusEvent} {b : Byte} (h : tr.reverse.head? = some (.frame [0x06] []))
    (hb : b.getLsbD 1 = true) : handshakePassed (tr ++ [sr b]).reverse = true := by
  obtain ⟨older, hr⟩ := List.head?_eq_some_iff.mp h
  rw [List.reverse_append, hr]
  simpa [handshakePassed, sr, statusWel] using hb

/-- `> B7` sent on a passed handshake is what a 32 KiB erase in the order `after_handshake` needs (R162). -/
theorem readyForCommand_of_mode {tr : List BusEvent} (h : handshakePassed tr.reverse = true) :
    readyForCommand .afterHandshake true (tr ++ [sent [0xB7]]).reverse = true := by
  rw [List.reverse_append]
  simpa [readyForCommand, sent] using h

/-- What follows a frame that is answered keeps the discipline, its event being on the trace. -/
theorem handshakeInv_frameNext {s u : State} {i : Instr} {rx : List Byte} (h : HandshakeInv s)
    (hn : s.nextFrame = some i) (hl : rx.length = frameRx i) (hh : Hears (frameTx i) rx s u) :
    HandshakeInv (frameNext i rx u) := by
  obtain ⟨answers, chip, rfl⟩ := hears_state hh
  generalize hu : ({ s with answers := answers, chip := chip, trace := s.trace ++ [.frame (frameTx i) rx] } : State) = u
  have htr : u.trace = s.trace ++ [.frame (frameTx i) rx] := hu ▸ rfl
  have hph : u.phase = s.phase := hu ▸ rfl
  have hop : u.reqOp = s.reqOp := hu ▸ rfl
  have hpar : u.params = s.params := hu ▸ rfl
  have ht : handshaken u.params.modeOrder u.trace.reverse = true := by
    rw [hpar, htr]
    exact h.event hn rfl
  have hs := nextFrame_site hn
  clear hu hh
  cases i
  case readStatus1 =>
    obtain ⟨b, rfl⟩ := List.length_eq_one_iff.mp hl
    show HandshakeInv (afterStatusByte b u)
    rcases hs with hp | hp | hp | hp <;> rw [← hph] at hp
    · rw [afterStatusByte_status hp]
      exact .of_trace ht rfl
    · cases hb : b.getLsbD 0
      · rw [afterStatusByte_pre hp hb]
        exact handshakeInv_afterPollPre ht
      · rw [afterStatusByte_busy (.inl hp) hb]
        exact .of_trace ht (by rw [hp]; rfl)
    · cases hb : b.getLsbD 1
      · rw [afterStatusByte_notLatched hp hb]
        exact .of_trace ht rfl
      · rw [afterStatusByte_latched hp hb]
        refine handshakeInv_afterHandshake ht ?_
        rw [htr]
        exact handshakePassed_of_confirmed (h.enabled (hph ▸ hp)) hb
    · cases hb : b.getLsbD 0
      · rw [afterStatusByte_post hp hb]
        exact .of_decides (decides_afterPollPost u) ht (awaitsCommand_of_restarts (afterPollPost_phase u))
      · rw [afterStatusByte_busy (.inr hp) hb]
        exact .of_trace ht (by rw [hp]; rfl)
  case writeEnable =>
    obtain rfl := List.length_eq_zero_iff.mp hl
    refine ⟨ht, fun _ => ?_, nofun, nofun⟩
    show u.trace.reverse.head? = _
    rw [htr, List.reverse_append]
    rfl
  case readData4b a n =>
    rcases hs with ⟨hp, -⟩ | ⟨hp, -⟩ <;> rw [← hph] at hp
    · show HandshakeInv (afterReadData rx u)
      rw [afterReadData_delivers hp]
      exact .of_trace ht rfl
    · show HandshakeInv (afterReadData rx u)
      rw [afterReadData_verify hp]
      exact .of_decides (decides_afterWindow rx u) ht (awaitsCommand_of_restarts (afterWindow_phase rx u))
  case enter4ByteMode =>
    obtain rfl := List.length_eq_zero_iff.mp hl
    refine handshakeInv_afterMode ht fun ho hm => ?_
    rw [htr]
    exact readyForCommand_of_mode (h.mode hs.1 (hop ▸ ho) (hpar ▸ hm))
  case exit4ByteMode =>
    refine handshakeInv_afterMode ht fun ho _ => ?_
    rw [hop, hs.2] at ho
    cases ho
  case pageProgram4b => exact .of_trace ht rfl
  case sectorErase4k4b => exact .of_trace ht rfl
  case blockErase32k => exact .of_trace ht rfl
  case blockErase64k4b => exact .of_trace ht rfl
  case chipErase => exact .of_trace ht rfl
  case enableReset => exact .of_trace ht rfl
  case resetDevice => exact .of_trace ht rfl
  all_goals exact hs.elim

/-- A check leads to a command frame only in `read`, which mutates nothing (R145). -/
theorem handshakeInv_checkedBy {u : State} {f : State → State} (hf : checkedBy u.running = some f)
    (ht : handshaken u.params.modeOrder u.trace.reverse = true) : HandshakeInv (f u) := by
  have index : ∀ n, HandshakeInv (checkIndex n u) := by
    intro n
    unfold checkIndex
    split <;> exact .of_trace ht rfl
  cases hop : u.reqOp <;> simp only [State.running, hop, checkedBy, reduceCtorEq, Option.some.injEq] at hf <;> subst hf
  case read =>
    unfold checkRead
    split
    · exact .of_trace ht rfl
    · split
      · exact .of_trace ht rfl
      · exact ⟨ht, nofun, nofun, fun _ hm => by rw [State.goto_reqOp, hop] at hm; cases hm⟩
  case write =>
    unfold checkWrite
    split <;> exact .of_trace ht rfl
  case writePage =>
    exact .of_decides (decides_beginPage _ _ u) ht (awaitsCommand_of_restarts (beginPage_phase _ _ u))
  case eraseRange => exact .of_decides (decides_checkRange u) ht (awaitsCommand_of_restarts (checkRange_phase u))
  case eraseSector => exact index _
  case eraseBlock32k => exact index _
  case eraseBlock64k => exact index _

/-- No rule begins between a handshake and its command, but for the two mode requests, which have none (R113). -/
theorem handshakeInv_acceptedBy {i : Instr} {s : State} (hi : isRequest i = true)
    (ht : handshaken s.params.modeOrder s.trace.reverse = true) : HandshakeInv (acceptedBy i s) := by
  cases i
  case enter4ByteAddressMode => exact ⟨ht, nofun, nofun, nofun⟩
  case exit4ByteAddressMode => exact ⟨ht, nofun, nofun, nofun⟩
  all_goals cases hi <;> exact .of_trace ht rfl

/-- `INIT` ends at `INIT` or `IDLE` (R231). -/
theorem initStep_outside {s : State} (h : s.phase = .init) : awaitsCommand s.initStep.phase = false := by
  unfold State.initStep
  split
  · rw [h]; rfl
  · dsimp only
    split
    · rfl
    · rw [State.pinsFailed_phase, h]; rfl

/-- Drawing the abandon choice keeps the discipline. -/
theorem HandshakeInv.draws {s u : State} (h : HandshakeInv s) (hd : Draws s u) : HandshakeInv u := by
  obtain ⟨_, _, rfl⟩ := hd
  exact ⟨h.trace, h.enabled, h.mode, h.command⟩

/-- Settles O16: each thing a step can do (`step_cases`) keeps the discipline; only a selected frame adds an event. -/
theorem handshakeKept : Obligations.HandshakeKept := by
  unfold Obligations.HandshakeKept
  intro s t h hst
  rcases step_cases hst with ⟨hp, rfl⟩ | ⟨-, -, rfl⟩ | ⟨-, -, w, r, i, -, -, hi, rfl⟩ | ⟨-, -, l, n, rfl⟩ |
    ⟨l, n, f, -, hf, rfl⟩ | ⟨l, n, -, rfl⟩ | ⟨l, n, i, -, hn, rfl⟩
  · refine .of_trace ?_ (initStep_outside hp)
    obtain ⟨_, _, _, _, _, _, hs⟩ := initStep_writes s
    rw [hs]
    exact h.trace
  · exact h
  · exact handshakeInv_acceptedBy hi h.trace
  · exact .of_trace h.trace rfl
  · exact handshakeInv_checkedBy hf h.trace
  · exact .of_trace h.trace rfl
  · have hu : HandshakeInv { s with abandons := l, draws := n } := h.draws ⟨l, n, rfl⟩
    rcases transfers (frameTx i) (frameRx i) { s with abandons := l, draws := n } with ⟨rx, v, hl, hh⟩ | ⟨e, v, hf⟩
    · rw [← hl, transfer_hears _ hh]
      exact handshakeInv_frameNext hu hn hl hh
    · rw [transfer_fails _ hf]
      obtain ⟨_, _, rfl⟩ := fails_state hf
      exact .of_trace (hu.event (e := .failed (frameTx i) (frameRx i) e) hn rfl) rfl

end Sys2Proof.Safety
end

section
/-! SUPPORT. Proofs of the statements on transfers and on what follows each frame (40_sequencing_common.md section 1,
41_status_handshake.md, 42_address_mode.md, 44_write.md to 47_reset_cmd.md). -/

namespace Sys2Proof.Safety

open Sys2Proof.Machine

/-! ### Transfers -/

/-- Settles O22: `transfers` says that a transfer is answered or fails, `hears_state` and `fails_state` what it leaves. -/
theorem everyTransferIsAnswered : Obligations.EveryTransferIsAnswered := by
  unfold Obligations.EveryTransferIsAnswered
  refine ⟨fun tx n s => ?_, fun tx rx s u h => hears_state h, fun tx n e s u h => fails_state h⟩
  rcases transfers tx n s with ⟨rx, u, hl, h⟩ | ⟨e, u, h⟩
  · exact ⟨u, .inl ⟨rx, hl, h⟩⟩
  · exact ⟨u, .inr ⟨e, h⟩⟩

/-- Settles O23: a selected frame's step is its transfer, answered or failed, and what follows sends nothing more; `sendFrame`
refuses every other frame. -/
theorem selectedFrameIsSent : Obligations.SelectedFrameIsSent := by
  unfold Obligations.SelectedFrameIsSent
  refine ⟨fun s i tx n hn he => ?_, fun s i hi hn => ?_⟩
  · rcases transfers tx n s with ⟨rx, u, hl, h⟩ | ⟨e, u, h⟩
    · exact ⟨_, u, exec_hears hn he hl h, .inl ⟨rx, hl, h⟩, frameNext_trace i rx u⟩
    · exact ⟨_, u, exec_fails hn he h, .inr ⟨e, h⟩, rfl⟩
  · rw [exec_frame hi, sendFrame, if_neg hn]

/-! ### What an answered transfer leaves -/

section

variable {tx rx : List Byte} {s u : State}

theorem hears_params (h : Hears tx rx s u) : u.params = s.params := by
  obtain ⟨_, _, rfl⟩ := hears_state h
  rfl

theorem hears_argA (h : Hears tx rx s u) : u.argA = s.argA := by
  obtain ⟨_, _, rfl⟩ := hears_state h
  rfl

theorem hears_dataIn (h : Hears tx rx s u) : u.dataIn = s.dataIn := by
  obtain ⟨_, _, rfl⟩ := hears_state h
  rfl

/-- The region under verification, its first byte and its length. -/
theorem hears_region (h : Hears tx rx s u) : u.regionAddr = s.regionAddr ∧ u.regionLen = s.regionLen := by
  obtain ⟨_, _, rfl⟩ := hears_state h
  exact ⟨rfl, rfl⟩

/-- The window of verification: its cursors, its length and what it must hold. -/
theorem hears_window (h : Hears tx rx s u) :
    u.vcur = s.vcur ∧ u.voff = s.voff ∧ u.windowLen = s.windowLen ∧ u.expectedWindow = mustRead s := by
  obtain ⟨_, _, rfl⟩ := hears_state h
  exact ⟨rfl, rfl, rfl, expectedWindow_eq_mustRead s⟩

/-- The end of a command that the transfer left running: it goes on as its own operands and cursors say. -/
theorem hears_commandDone (h : Hears tx rx s u) (hacc : operandsAccepted s = true)
    (hc : s.reqOp = .write → chunkCursors s = true) (a : Addr) (o : Nat) :
    commandDone { u with vcur := a, voff := o } = goesOn s { u with vcur := a, voff := o } := by
  refine commandDone_goesOn ?_ hacc hc
  obtain ⟨_, _, rfl⟩ := hears_state h
  exact ⟨_, _, _, _, _, _, rfl⟩

end

/-! ### The status read and the write enable at their call sites -/

theorem nextFrame_of_wren {s : State} (h : s.phase = .wren) : s.nextFrame = some .writeEnable := by
  simp only [State.nextFrame, h]

theorem nextFrame_of_poll {s : State} (h : s.phase = .pollPre ∨ s.phase = .pollPost) :
    s.nextFrame = some .readStatus1 := by
  rcases h with h | h <;> simp only [State.nextFrame, h]

/-- A status read that is answered goes on with the byte. -/
theorem exec_readStatus1_heard {s u : State} {b : Byte} (hn : s.nextFrame = some .readStatus1)
    (h : Hears [0x05] [b] s u) : exec .readStatus1 s = .next (afterStatusByte b u) :=
  exec_hears hn rfl rfl h

/-- Where a passed handshake leads (R133, R136, R162). -/
theorem afterHandshake_eq {u : State} {op : ReqOp} {p : Params} (hop : u.reqOp = op) (hp : u.params = p) :
    afterHandshake u =
      if op = .enableWrite then u.finish .nothing
      else if op = .eraseBlock32k ∧ p.modeOrder = .afterHandshake then u.goto .mode
      else u.goto .cmd := by
  subst hop hp
  unfold afterHandshake
  split
  · next h => rw [if_pos h]
  · next h =>
    rw [if_neg (by rw [h]; exact nofun)]
    cases hm : u.params.modeOrder <;> simp [h]
  · next h1 h2 => rw [if_neg h1, if_neg (fun hc => h2 hc.1)]

/-- Settles O32: the two frames of the handshake at their call sites, each answered or failed. -/
theorem handshakeSteps : Obligations.HandshakeSteps := by
  unfold Obligations.HandshakeSteps
  refine ⟨fun s u hp h => ?enable, fun s u e hp h => ?enableFailed, fun s u b hp h hb => ?latched,
    fun s u b hp h hb => ?notLatched, fun s u e hp h => ?confirmFailed⟩
  case enable => exact exec_hears (nextFrame_of_wren hp) rfl rfl h
  case enableFailed => exact exec_fails (nextFrame_of_wren hp) rfl h
  case latched =>
    rw [exec_readStatus1_heard (nextFrame_of_wrenChk hp) h, afterStatusByte_latched ((hears_phase h).trans hp) hb,
      afterHandshake_eq (hears_reqOp h) (hears_params h)]
    rfl
  case notLatched =>
    rw [exec_readStatus1_heard (nextFrame_of_wrenChk hp) h, afterStatusByte_notLatched ((hears_phase h).trans hp) hb]
    rfl
  case confirmFailed => exact exec_fails (nextFrame_of_wrenChk hp) rfl h

/-- Settles O33: a busy byte changes nothing at either poll (`afterStatusByte_busy`), a failed status read is raised. -/
theorem pollLoops : Obligations.PollLoops := by
  unfold Obligations.PollLoops
  refine ⟨fun s u b hp h hb => ?_, fun s u e hp h => exec_fails (nextFrame_of_poll hp) rfl h⟩
  have hpu : u.phase = .pollPre ∨ u.phase = .pollPost := (hears_phase h).symm ▸ hp
  rw [exec_readStatus1_heard (nextFrame_of_poll hp) h, afterStatusByte_busy hpu hb]

/-! ### The end of the leading busy-wait -/

/-- A chunk that passes every test of `write_page` goes to its handshake (R152). -/
theorem beginPage_of_fits {a n : Nat} {s : State} (hs : a % 256 + n ≤ 256) (hc : a + n ≤ 33554432)
    (hn : ¬ (n = 0 ∧ s.params.emptyXfer = .skip)) : beginPage a n s = s.goto .wren := by
  have hspan : spansPage a n = false := (spansPage_eq_false a n).mpr hs
  have hcap : exceedsCapacity a n = false := (exceedsCapacity_eq_false a n).mpr hc
  simp only [beginPage, hspan, hcap, Bool.and_false, Bool.false_eq_true, if_false, if_neg hn]

/-- The first chunk of a `write` is empty only if it has no data (R122). -/
theorem firstChunk_eq_zero (a n : Nat) : firstChunk a n = 0 ↔ n = 0 := by
  simp only [firstChunk, pageSize]; omega

/-- A `write` in bounds begins its first chunk, unless it has no data and `P_EMPTY_XFER = skip` (R150). -/
theorem beginChunks_of_fits {u : State} {a : Addr} {d : List Byte} {p : Params} (ha : u.argA = a) (hd : u.dataIn = d)
    (hp : u.params = p) (hb : a.toNat + d.length ≤ 33554432) : beginChunks u =
      if d.length = 0 ∧ p.emptyXfer = .skip then ({ u with cur := a, off := 0 }).finish .nothing
      else ({ u with cur := a, off := 0 }).goto .wren := by
  subst ha hd hp
  have hskip : firstChunk u.argA.toNat u.dataIn.length = 0 ∧ u.params.emptyXfer = .skip ↔
      u.dataIn.length = 0 ∧ u.params.emptyXfer = .skip := and_congr_left fun _ => firstChunk_eq_zero _ _
  by_cases hs : u.dataIn.length = 0 ∧ u.params.emptyXfer = .skip
  · rw [if_pos hs]
    exact if_pos (hskip.mpr hs)
  · rw [if_neg hs]
    refine (if_neg (mt hskip.mp hs)).trans (beginPage_of_fits ?_ ?_ (mt hskip.mp hs)) <;>
      show _ + firstChunk u.argA.toNat u.dataIn.length ≤ _ <;> simp only [firstChunk, pageSize] <;> omega

/-- Where the erases go after the leading busy-wait (R160, R162). -/
theorem afterPollPre_of_erase {u : State} {op : ReqOp} {p : Params} (hop : u.reqOp = op) (hp : u.params = p)
    (h : op ≠ .write) : afterPollPre u =
      u.goto (if op = .eraseBlock32k ∧ p.modeOrder = .beforeHandshake then .mode else .wren) := by
  subst hop hp
  unfold afterPollPre
  split
  · next hw => exact absurd hw h
  · next ho => cases hm : u.params.modeOrder <;> simp [ho]
  · next ho => rw [if_neg (fun hc => ho hc.1)]

theorem afterPollPre_of_write {u : State} (h : u.reqOp = .write) : afterPollPre u = beginChunks u := by
  simp only [afterPollPre, h]

/-- Settles O34: the byte that ends the leading wait leads to the handshake or, for `write`, to its first chunk. -/
theorem pollPreEnds : Obligations.PollPreEnds := by
  unfold Obligations.PollPreEnds
  intro s u b hp h hb
  rw [exec_readStatus1_heard (nextFrame_of_poll (.inl hp)) h, afterStatusByte_pre ((hears_phase h).trans hp) hb]
  refine ⟨fun hop => ?_, fun hop hfit => ?_⟩
  · rw [afterPollPre_of_erase (hears_reqOp h) (hears_params h) hop]
    rfl
  · rw [afterPollPre_of_write ((hears_reqOp h).trans hop),
      beginChunks_of_fits (hears_argA h) (hears_dataIn h) (hears_params h) hfit]
    rfl

/-! ### The end of the trailing busy-wait, and verification -/

theorem nextWindow_of_more {u : State} (h : u.voff < u.regionLen) : nextWindow u = u.goto .verify := if_pos h

theorem nextWindow_of_done {u : State} (h : u.regionLen ≤ u.voff) : nextWindow u = commandDone u :=
  if_neg (Nat.not_lt.mpr h)

/-- A region that is not empty is verified from its first byte on (R176, R177). -/
theorem afterPollPost_verifies {u : State} (hv : u.params.verifyEn = true) (hl : 0 < u.regionLen) :
    afterPollPost u = { u with vcur := u.regionAddr, voff := 0, phase := .verify } :=
  (if_pos hv).trans (nextWindow_of_more (u := { u with vcur := u.regionAddr, voff := 0 }) hl)

/-- An empty region has no window: the command is over. -/
theorem afterPollPost_of_empty {u : State} (hv : u.params.verifyEn = true) (hl : u.regionLen = 0) :
    afterPollPost u = commandDone { u with vcur := u.regionAddr, voff := 0 } :=
  (if_pos hv).trans (nextWindow_of_done (u := { u with vcur := u.regionAddr, voff := 0 }) (Nat.le_of_eq hl))

theorem afterPollPost_unverified {u : State} (hv : u.params.verifyEn = false) : afterPollPost u = commandDone u := by
  rw [afterPollPost, if_neg (by rw [hv]; decide)]

/-- Settles O35: the byte that ends the trailing wait leads to the first window or, with nothing to verify, on as `goesOn`
says. -/
theorem pollPostEnds : Obligations.PollPostEnds := by
  unfold Obligations.PollPostEnds
  intro s u b hI hp h hb
  obtain ⟨-, -, hacc, hc⟩ := inv_pre hI (by rw [hp]; rfl)
  rw [exec_readStatus1_heard (nextFrame_of_poll (.inr hp)) h, afterStatusByte_post ((hears_phase h).trans hp) hb]
  obtain ⟨hra, hrl⟩ := hears_region h
  refine ⟨fun hv hl => ?_, fun hv hl => ?_, fun hv => ?_⟩ <;> rw [← hears_params h] at hv
  · rw [afterPollPost_verifies hv (hrl ▸ hl), hra]
  · rw [afterPollPost_of_empty hv (hrl ▸ hl), hra, hears_commandDone h hacc hc]
  · rw [afterPollPost_unverified hv]
    exact congrArg _ (hears_commandDone h hacc hc u.vcur u.voff)

/-- Settles O39: `afterWindow` compares the window with `mustRead`, then takes the next window or goes on as `goesOn` says. -/
theorem verifyWindowCompared : Obligations.VerifyWindowCompared := by
  unfold Obligations.VerifyWindowCompared
  intro s u rx hI hp hl h
  obtain ⟨-, -, hacc, hc⟩ := inv_pre hI (by rw [hp]; rfl)
  have hx : exec (.readData4b s.vcur s.windowLen) s = .next (afterWindow rx u) := by
    rw [exec_hears (nextFrame_of_verify hp) rfl hl h, frameNext, afterReadData_verify ((hears_phase h).trans hp)]
  obtain ⟨hvc, hvo, hwl, hew⟩ := hears_window h
  have hrl := (hears_region h).2
  rw [hx, afterWindow, hew]
  refine ⟨fun hne => ?_, fun he hlt => ?_, fun he hge => ?_⟩
  · rw [if_neg hne]
    rfl
  · rw [if_pos he, hvc, hvo, hwl, nextWindow_of_more, State.goto, ← hp, ← hears_phase h]
    exact hrl ▸ hlt
  · rw [if_pos he, hvc, hvo, hwl, nextWindow_of_done, hears_commandDone h hacc hc]
    exact hrl ▸ hge

/-! ### The mode frames and the reset pair -/

/-- At `MODE` the frame selected is the mode frame of the running request (R140, R141, R162). -/
theorem nextFrame_of_mode {s : State} {op : ReqOp} (hp : s.phase = .mode) (hop : s.reqOp = op) :
    s.nextFrame = ({ s with reqOp := op }).modeFrame := by
  subst hop
  show s.nextFrame = s.modeFrame
  simp only [State.nextFrame, hp]

/-- A mode frame that is answered ends its own request (R140, R141) and leads the 32 KiB erase on (R162). -/
theorem afterMode_eq {u : State} {op : ReqOp} {p : Params} (hop : u.reqOp = op) (hp : u.params = p) : afterMode u =
    if op = .eraseBlock32k then u.goto (if p.modeOrder = .beforeHandshake then .wren else .cmd)
    else u.finish .nothing := by
  subst hop hp
  unfold afterMode
  split
  · next h => rw [if_pos h]; cases u.params.modeOrder <;> rfl
  · next h => rw [if_neg h]

/-- Settles O37: each frame at its one call site or, of `> B7`, at its two. -/
theorem modeAndResetFramesSent : Obligations.ModeAndResetFramesSent := by
  unfold Obligations.ModeAndResetFramesSent
  refine ⟨fun s u hp hop h => ?enter, fun s u hp hop h => ?erase, fun s u hp hop h => ?exit, fun s u hp h => ?reset,
    fun s u hp h => ?enableReset⟩
  case enter =>
    have hx : exec .enter4ByteMode s = .next (afterMode u) := exec_hears (nextFrame_of_mode hp hop) rfl rfl h
    rw [hx, afterMode_eq ((hears_reqOp h).trans hop) rfl]
    rfl
  case erase =>
    have hx : exec .enter4ByteMode s = .next (afterMode u) := exec_hears (nextFrame_of_mode hp hop) rfl rfl h
    rw [hx, afterMode_eq ((hears_reqOp h).trans hop) (hears_params h)]
    rfl
  case exit =>
    have hx : exec .exit4ByteMode s = .next (afterMode u) := exec_hears (nextFrame_of_mode hp hop) rfl rfl h
    rw [hx, afterMode_eq ((hears_reqOp h).trans hop) rfl]
    rfl
  case reset => exact exec_hears (by simp only [State.nextFrame, hp]) rfl rfl h
  case enableReset => exact exec_hears (by simp only [State.nextFrame, hp]) rfl rfl h

end Sys2Proof.Safety
end

section
/-! SUPPORT. Proofs of the statements on the checks (40_sequencing_common.md section 3, 43_read.md, 44_write.md, 45_erase.md):
each check is its rule's chain of tests. -/

namespace Sys2Proof.Safety

open Sys2Proof.Machine

/-- The running request is that of the latched operation. -/
theorem running_of_reqOp {s : State} {op : ReqOp} (h : s.reqOp = op) : s.running = ({ s with reqOp := op }).running := by
  subst h
  rfl

/-- At `CHECK` the request of the latched operation takes that operation's check. -/
theorem exec_check {s : State} {i : Instr} {f : State → State} (hp : s.phase = .check) (hr : s.running = i)
    (hf : checkedBy i = some f) : exec i s = .next (f s) := by
  subst hr
  exact exec_running_check hp hf

/-- The check of `read` (R121, R145). -/
theorem checkRead_eq (s : State) : checkRead s =
    if s.argA.toNat + s.argB.toNat > 33554432 then { s with result := .outOfBounds, phase := .respond }
    else if s.argB.toNat = 0 ∧ s.params.emptyXfer = .skip then { s with result := .ok (.bytes []), phase := .respond }
    else { s with phase := .cmd } :=
  if_congr (exceedsCapacity_eq_true _ _) rfl rfl

/-- The check of `write` (R121, R150). -/
theorem checkWrite_eq (s : State) : checkWrite s =
    if s.argA.toNat + s.dataIn.length > 33554432 then { s with result := .outOfBounds, phase := .respond }
    else { s with phase := .pollPre } :=
  if_congr (exceedsCapacity_eq_true _ _) rfl rfl

/-- Settles O28: the checks of `read` and `write`, and the index test with each erase's number of units. -/
theorem boundsChecked : Obligations.BoundsChecked := by
  unfold Obligations.BoundsChecked
  refine ⟨fun s hp hop => ?read, fun s hp hop => ?write, fun s hp hop => ?sector, fun s hp hop => ?block32k,
    fun s hp hop => ?block64k⟩
  case read => exact (exec_check hp (running_of_reqOp hop) rfl).trans (congrArg _ (checkRead_eq s))
  case write => exact (exec_check hp (running_of_reqOp hop) rfl).trans (congrArg _ (checkWrite_eq s))
  case sector => exact exec_check hp (running_of_reqOp hop) rfl
  case block32k => exact exec_check hp (running_of_reqOp hop) rfl
  case block64k => exact exec_check hp (running_of_reqOp hop) rfl

/-- The tests of `write_page` (R122, R152). -/
theorem beginPage_eq (a n : Nat) (s : State) : beginPage a n s =
    if a % 256 + n > 256 then { s with result := .outOfBounds, phase := .respond }
    else if s.params.pageCapCheck = true ∧ a + n > 33554432 then { s with result := .outOfBounds, phase := .respond }
    else if n = 0 ∧ s.params.emptyXfer = .skip then { s with result := .ok .nothing, phase := .respond }
    else { s with phase := .wren } :=
  if_congr (spansPage_eq_true _ _) rfl
    (if_congr ((Bool.and_eq_true _ _).to_iff.trans (and_congr_right fun _ => exceedsCapacity_eq_true _ _)) rfl rfl)

/-- Settles O29: `beginPage` on the operands of the request. -/
theorem writePageChecked : Obligations.WritePageChecked := by
  unfold Obligations.WritePageChecked
  intro s hp hop
  exact (exec_check hp (running_of_reqOp hop) rfl).trans (congrArg _ (beginPage_eq _ _ s))

/-- An aligned range in order has a first sector unless it is empty (R165). -/
theorem firstSector_lt {a b : Nat} (ha : a % 4096 = 0) (hb : b % 4096 = 0) (hle : a ≤ b) :
    a / 4096 < b / 4096 ↔ a ≠ b := by
  omega

/-- Settles O30: of an aligned range in order the first sector is below the last unless the range is empty. -/
theorem eraseRangeChecked : Obligations.EraseRangeChecked := by
  unfold Obligations.EraseRangeChecked
  intro s hp hop
  refine (exec_check hp (running_of_reqOp hop) rfl).trans (congrArg _ ?_)
  unfold checkRange
  by_cases hm : s.argA.toNat % 4096 ≠ 0 ∨ s.argB.toNat % 4096 ≠ 0
  · rw [if_pos hm, if_pos ((misaligned_or_misaligned _ _).mpr hm)]
    rfl
  rw [if_neg hm, if_neg (mt (misaligned_or_misaligned _ _).mp hm)]
  by_cases hlt : s.argB.toNat < s.argA.toNat
  · rw [if_pos hlt, if_pos hlt]
    rfl
  rw [if_neg hlt, if_neg hlt]
  have hfirst : s.argA.toNat / sectorSize < s.argB.toNat / sectorSize ↔ s.argA.toNat ≠ s.argB.toNat :=
    firstSector_lt (by omega) (by omega) (by omega)
  by_cases he : s.argA.toNat = s.argB.toNat
  · rw [if_pos he]
    exact if_neg (fun h => hfirst.mp h he)
  · rw [if_neg he]
    exact if_pos (hfirst.mpr he)

end Sys2Proof.Safety
end

section
/-! SUPPORT. Proofs of the statements on what an instruction leaves unchanged (10_state.md sections 2 to 4, 20_memory.md sections 4
and 8, 40_sequencing_common.md section 1). -/

namespace Sys2Proof.Safety

open Sys2Proof.Machine

/-! ### Requests -/

/-- `t` is `s` but for `PHASE`, `RESULT` and, in `erase_range` alone, `IDX`: what a check writes (R110 kind a, R165). -/
def Checks (s t : State) : Prop :=
  ∃ p ix r, t = { s with phase := p, idx := ix, result := r } ∧ (s.reqOp ≠ .eraseRange → ix = s.idx)

theorem checks_goto (s : State) (p : Phase) : Checks s (s.goto p) := ⟨p, s.idx, s.result, rfl, fun _ => rfl⟩

theorem checks_raise (s : State) (r : Result) : Checks s (s.raise r) := ⟨.respond, s.idx, r, rfl, fun _ => rfl⟩

theorem checks_finish (s : State) (v : Value) : Checks s (s.finish v) := ⟨.respond, s.idx, .ok v, rfl, fun _ => rfl⟩

theorem checks_checkIndex (n : Nat) (s : State) : Checks s (checkIndex n s) := by
  unfold checkIndex
  split
  · exact checks_raise s _
  · exact checks_goto s _

theorem checks_checkRead (s : State) : Checks s (checkRead s) := by
  unfold checkRead
  split
  · exact checks_raise s _
  · split
    · exact checks_finish s _
    · exact checks_goto s _

theorem checks_checkWrite (s : State) : Checks s (checkWrite s) := by
  unfold checkWrite
  split
  · exact checks_raise s _
  · exact checks_goto s _

theorem checks_beginPage (a n : Nat) (s : State) : Checks s (beginPage a n s) := by
  unfold beginPage
  split
  · exact checks_raise s _
  · split
    · exact checks_raise s _
    · split
      · exact checks_finish s _
      · exact checks_goto s _

theorem checks_checkRange {s : State} (hop : s.reqOp = .eraseRange) : Checks s (checkRange s) := by
  unfold checkRange nextSector
  split
  · exact checks_raise s _
  · split
    · exact checks_raise s _
    · split
      · split <;> exact ⟨_, _, _, rfl, fun h => absurd hop h⟩
      · exact ⟨_, _, _, rfl, fun h => absurd hop h⟩

/-- The check of the running request. -/
theorem checks_checkedBy {s : State} {f : State → State} (hf : checkedBy s.running = some f) : Checks s (f s) := by
  cases hop : s.reqOp <;> simp only [State.running, hop, checkedBy, reduceCtorEq, Option.some.injEq] at hf <;> subst hf
  case read => exact checks_checkRead s
  case write => exact checks_checkWrite s
  case writePage => exact checks_beginPage _ _ s
  case eraseSector => exact checks_checkIndex _ s
  case eraseBlock32k => exact checks_checkIndex _ s
  case eraseBlock64k => exact checks_checkIndex _ s
  case eraseRange => exact checks_checkRange hop

/-- Settles O40: acceptance, check and response each write their own fields (`acceptedBy_writes`, `checks_checkedBy`,
`State.respond`). -/
theorem requestsLeaveTheRest : Obligations.RequestsLeaveTheRest := by
  unfold Obligations.RequestsLeaveTheRest
  intro i s t hi h
  rcases exec_cases h with ⟨-, hp, -, rfl⟩ | ⟨-, hp, rfl, f, hf, rfl⟩ | ⟨-, hp, -, rfl⟩ | ⟨hf, -⟩
  · obtain ⟨_, _, _, _, _, _, hs⟩ := acceptedBy_writes i s
    rw [hs, hp]
    simp
  · obtain ⟨_, _, _, hs, hidx⟩ := checks_checkedBy hf
    rw [hs, hp]
    simpa using hidx
  · rw [hp]
    simp
  · rw [hi] at hf; cases hf

/-! ### Frames: `DATA_OUT` and `RESULT` -/

/-- From `s` to `t` `DATA_OUT` is kept, and `RESULT` unless the request ends. -/
def Proceeds (s t : State) : Prop := t.dataOut = s.dataOut ∧ (t.phase ≠ .respond → t.result = s.result)

theorem proceeds_goto (s : State) (p : Phase) : Proceeds s (s.goto p) := ⟨rfl, fun _ => rfl⟩

theorem proceeds_raise (s : State) (r : Result) : Proceeds s (s.raise r) := ⟨rfl, fun h => absurd rfl h⟩

theorem proceeds_finish (s : State) (v : Value) : Proceeds s (s.finish v) := ⟨rfl, fun h => absurd rfl h⟩

theorem proceeds_beginPage (a n : Nat) (s : State) : Proceeds s (beginPage a n s) := by
  unfold beginPage
  split
  · exact proceeds_raise s _
  · split
    · exact proceeds_raise s _
    · split
      · exact proceeds_finish s _
      · exact proceeds_goto s _

theorem proceeds_beginChunks (s : State) : Proceeds s (beginChunks s) := by
  unfold beginChunks
  dsimp only
  split
  · exact proceeds_finish { s with cur := s.argA, off := 0 } _
  · exact proceeds_beginPage _ _ { s with cur := s.argA, off := 0 }

theorem proceeds_nextChunk (s : State) : Proceeds s (nextChunk s) := by
  unfold nextChunk
  split
  · exact proceeds_beginPage _ _ s
  · exact proceeds_finish s _

theorem proceeds_nextSector (s : State) : Proceeds s (nextSector s) := by
  unfold nextSector
  split
  · split
    · exact proceeds_raise s _
    · exact proceeds_goto s _
  · exact proceeds_finish s _

theorem proceeds_commandDone (s : State) : Proceeds s (commandDone s) := by
  unfold commandDone
  split
  · exact proceeds_nextChunk { s with cur := s.cur + BitVec.ofNat 32 s.chunkLen, off := s.off + s.chunkLen }
  · exact proceeds_nextSector { s with idx := s.idx + 1 }
  · exact proceeds_finish s _

theorem proceeds_nextWindow (s : State) : Proceeds s (nextWindow s) := by
  unfold nextWindow
  split
  · exact proceeds_goto s _
  · exact proceeds_commandDone s

theorem proceeds_afterPollPost (s : State) : Proceeds s (afterPollPost s) := by
  unfold afterPollPost
  split
  · exact proceeds_nextWindow { s with vcur := s.regionAddr, voff := 0 }
  · exact proceeds_commandDone s

theorem proceeds_afterWindow (rx : List Byte) (s : State) : Proceeds s (afterWindow rx s) := by
  unfold afterWindow
  split
  · exact proceeds_nextWindow { s with vcur := s.vcur + BitVec.ofNat 32 s.windowLen, voff := s.voff + s.windowLen }
  · exact proceeds_raise s _

theorem proceeds_afterPollPre (s : State) : Proceeds s (afterPollPre s) := by
  unfold afterPollPre
  split
  · exact proceeds_beginChunks s
  · exact proceeds_goto s _
  · exact proceeds_goto s _

theorem proceeds_afterHandshake (s : State) : Proceeds s (afterHandshake s) := by
  unfold afterHandshake
  split
  · exact proceeds_finish s _
  · exact proceeds_goto s _
  · exact proceeds_goto s _

theorem proceeds_afterMode (s : State) : Proceeds s (afterMode s) := by
  unfold afterMode
  split
  · exact proceeds_goto s _
  · exact proceeds_finish s _

theorem proceeds_afterStatusByte (b : Byte) (s : State) : Proceeds s (afterStatusByte b s) := by
  unfold afterStatusByte
  split
  · split
    · exact proceeds_afterHandshake s
    · exact proceeds_raise s _
  · split
    · exact ⟨rfl, fun _ => rfl⟩
    · exact proceeds_afterPollPre s
  · split
    · exact ⟨rfl, fun _ => rfl⟩
    · exact proceeds_afterPollPost s
  · exact proceeds_finish s _

/-- A read frame writes `DATA_OUT` only outside verification, and `RESULT` only on the way to the response (R145, R176). -/
theorem afterReadData_keeps (rx : List Byte) (s : State) :
    (s.phase = .verify → (afterReadData rx s).dataOut = s.dataOut) ∧
      ((afterReadData rx s).phase ≠ .respond → (afterReadData rx s).result = s.result) := by
  unfold afterReadData
  split
  · exact ⟨fun _ => (proceeds_afterWindow rx s).1, (proceeds_afterWindow rx s).2⟩
  · next hv => exact ⟨fun h => absurd h hv, fun h => absurd rfl h⟩

/-- What follows a selected frame keeps `DATA_OUT`, but at `CMD` of `read`, and `RESULT`, but on the way to the response. -/
theorem frameNext_keeps {i : Instr} {u : State} (hn : u.nextFrame = some i) (rx : List Byte) :
    (u.phase ≠ .cmd ∨ u.reqOp ≠ .read → (frameNext i rx u).dataOut = u.dataOut) ∧
      ((frameNext i rx u).phase ≠ .respond → (frameNext i rx u).result = u.result) := by
  have keeps : ∀ {t}, Proceeds u t →
      (u.phase ≠ .cmd ∨ u.reqOp ≠ .read → t.dataOut = u.dataOut) ∧ (t.phase ≠ .respond → t.result = u.result) :=
    fun h => ⟨fun _ => h.1, h.2⟩
  have hs := nextFrame_site hn
  cases i
  case readData4b a n =>
    refine ⟨fun hr => (afterReadData_keeps rx u).1 ?_, (afterReadData_keeps rx u).2⟩
    rcases hs with ⟨hp, hop, -⟩ | ⟨hp, -⟩
    · exact absurd hop (hr.resolve_left (not_not_intro hp))
    · exact hp
  case readStatus1 => exact keeps (proceeds_afterStatusByte _ u)
  case enter4ByteMode => exact keeps (proceeds_afterMode u)
  case exit4ByteMode => exact keeps (proceeds_afterMode u)
  case enableReset => exact keeps (proceeds_finish u _)
  case resetDevice => exact keeps (proceeds_goto u _)
  case writeEnable => exact keeps (proceeds_goto u _)
  case pageProgram4b => exact keeps (proceeds_goto u _)
  case sectorErase4k4b => exact keeps (proceeds_goto u _)
  case blockErase32k => exact keeps (proceeds_goto u _)
  case blockErase64k4b => exact keeps (proceeds_goto u _)
  case chipErase => exact keeps (proceeds_goto u _)
  all_goals exact hs.elim

/-! ### Frames: the cursors -/

/-- `t` is `s` but for `PHASE`, `DATA_OUT` and `RESULT`: no cursor has moved. -/
def KeepsCursors (s t : State) : Prop := ∃ p d r, t = { s with phase := p, dataOut := d, result := r }

/-- A status byte moves a cursor only where it ends a busy-wait. -/
theorem afterStatusByte_keepsCursors {s : State} (h1 : s.phase ≠ .pollPre) (h2 : s.phase ≠ .pollPost) (b : Byte) :
    KeepsCursors s (afterStatusByte b s) := by
  unfold afterStatusByte
  split
  · split
    · rw [afterHandshake_eq rfl rfl]
      split
      · exact ⟨_, _, _, rfl⟩
      · split <;> exact ⟨_, _, _, rfl⟩
    · exact ⟨_, _, _, rfl⟩
  · next h => exact absurd h h1
  · next h => exact absurd h h2
  · exact ⟨_, _, _, rfl⟩

theorem afterMode_keepsCursors (s : State) : KeepsCursors s (afterMode s) := by
  unfold afterMode
  split <;> exact ⟨_, _, _, rfl⟩

/-- Outside the busy-waits and verification no frame moves a cursor. -/
theorem frameNext_keepsCursors {i : Instr} {u : State} (hn : u.nextFrame = some i) (rx : List Byte)
    (h1 : u.phase ≠ .pollPre) (h2 : u.phase ≠ .pollPost) (h3 : u.phase ≠ .verify) :
    KeepsCursors u (frameNext i rx u) := by
  have hs := nextFrame_site hn
  cases i
  case readStatus1 => exact afterStatusByte_keepsCursors h1 h2 _
  case readData4b a n =>
    rcases hs with ⟨hp, -⟩ | ⟨hp, -⟩
    · exact ⟨_, _, _, afterReadData_delivers hp rx⟩
    · exact absurd hp h3
  case enter4ByteMode => exact afterMode_keepsCursors u
  case exit4ByteMode => exact afterMode_keepsCursors u
  case enableReset => exact ⟨_, _, _, rfl⟩
  case resetDevice => exact ⟨_, _, _, rfl⟩
  case writeEnable => exact ⟨_, _, _, rfl⟩
  case pageProgram4b => exact ⟨_, _, _, rfl⟩
  case sectorErase4k4b => exact ⟨_, _, _, rfl⟩
  case blockErase32k => exact ⟨_, _, _, rfl⟩
  case blockErase64k4b => exact ⟨_, _, _, rfl⟩
  case chipErase => exact ⟨_, _, _, rfl⟩
  all_goals exact hs.elim

/-! ### Frames: the flash of the reference oracle -/

theorem startEffect_mem (c : Chip) (e : Effect) : (c.startEffect e).mem = c.mem := by
  unfold Chip.startEffect
  split <;> rfl

theorem ifIdle_mem {c d : Chip} (h : d.mem = c.mem) : (c.ifIdle d).mem = c.mem := by
  unfold Chip.ifIdle
  split
  · exact h
  · rfl

theorem addressed_mem {c c' : Chip} {a : Nat} {e : Effect} {rx : List Byte} (h : c.addressed a e = some (rx, c')) :
    c'.mem = c.mem := by
  unfold Chip.addressed at h
  split at h
  · split at h
    · cases h
      exact startEffect_mem c e
    · cases h
  · cases h
    rfl

/-- The status read that ends the effect in flight changes only the bytes that effect touches (R70, R72 to R74). -/
theorem afterStatus_read {c : Chip} {a : Nat} (h : ∀ e, c.pending = some e → ¬ touches e a) :
    c.afterStatus.mem.read a = c.mem.read a := by
  have applied : c.applyPending.read a = c.mem.read a := by
    unfold Chip.applyPending
    split
    · rfl
    · next base d hp =>
      exact Memory.read_program_other 0 a d fun j hj he => h _ hp ⟨j, hj, by rw [he, Nat.zero_add]⟩
    · next base len hp =>
      have hn : ¬ (base ≤ a ∧ a < base + len) := h _ hp
      exact Memory.read_erase_outside (by omega)
  unfold Chip.afterStatus
  split
  · rfl
  · split
    · exact applied
    · rfl

/-- A frame the chip answers changes a flash byte only if it is a status read, and then only one that the effect in flight
touches. -/
theorem take_read {c c' : Chip} {i : Instr} {rx : List Byte} {a : Nat} (h : c.take i = some (rx, c'))
    (hp : i = .readStatus1 → ∀ e, c.pending = some e → ¬ touches e a) : c'.mem.read a = c.mem.read a := by
  cases i <;> simp only [Chip.take, reduceCtorEq] at h
  case readStatus1 =>
    cases h
    exact afterStatus_read (hp rfl)
  case pageProgram4b => rw [addressed_mem h]
  case sectorErase4k4b => rw [addressed_mem h]
  case blockErase32k =>
    split at h
    · cases h
    · rw [addressed_mem h]
  case blockErase64k4b => rw [addressed_mem h]
  case chipErase =>
    cases h
    rw [ifIdle_mem (startEffect_mem c _)]
  case writeEnable =>
    cases h
    rw [ifIdle_mem (by rfl)]
  case enter4ByteMode =>
    cases h
    rw [ifIdle_mem (by rfl)]
  case exit4ByteMode =>
    cases h
    rw [ifIdle_mem (by rfl)]
  all_goals
    cases h
    rfl

/-- The same through the decoder: what the chip sees as a status read is the encoding of one (R82). -/
theorem answer_read {c c' : Chip} {i : Instr} {rx : List Byte} {a : Nat} (hi : isRequest i = false)
    (h : c.answer (frameTx i) (frameRx i) = some (rx, c'))
    (hp : i = .readStatus1 → ∀ e, c.pending = some e → ¬ touches e a) : c'.mem.read a = c.mem.read a := by
  unfold Chip.answer at h
  split at h
  · next j hj =>
    refine take_read h fun hs => hp ?_
    obtain ⟨he, -⟩ := decodeFrame_ok hj
    rw [hs, ← encode_frame hi] at he
    cases i <;> simp [encode, frameBytes] at he ⊢
  · cases h

/-! ### Frames: the whole frame condition -/

/-- A frame's step: an answer is used up or the chip answers, one event is added, and then the rule goes on or raises the bus
failure. -/
theorem exec_frame_cases {i : Instr} {s t : State} (hi : isRequest i = false) (h : exec i s = .next t) :
    s.nextFrame = some i ∧ ∃ answers chip trace,
      (chip = s.chip ∨ ∃ rx, s.chip.answer (frameTx i) (frameRx i) = some (rx, chip)) ∧
      ((∃ rx, t = frameNext i rx { s with answers := answers, chip := chip, trace := trace }) ∨
        ∃ e, t = State.raise (.busTransportError e) { s with answers := answers, chip := chip, trace := trace }) := by
  rcases exec_cases h with ⟨hr, -⟩ | ⟨hr, -⟩ | ⟨hr, -⟩ | ⟨-, hn, rfl⟩
  · rw [hi] at hr; cases hr
  · rw [hi] at hr; cases hr
  · rw [hi] at hr; cases hr
  · obtain ⟨answers, chip, hc, ⟨rx, -, ht⟩ | ⟨e, ht⟩⟩ := transfer_cases (frameTx i) (frameRx i) (frameNext i) s
    · exact ⟨hn, answers, chip, _, hc, .inl ⟨rx, ht⟩⟩
    · exact ⟨hn, answers, chip, _, hc, .inr ⟨e, ht⟩⟩

/-- Settles O41: a frame's step is a transfer, which touches only the environment and the trace, and a decision; what the decision
keeps is `frameNext_keeps` and `frameNext_keepsCursors`, what the chip keeps `answer_read`. The chip does nothing on the reset
pair, so the host's duty is not needed for it. -/
theorem framesLeaveTheRest : Obligations.FramesLeaveTheRest := by
  unfold Obligations.FramesLeaveTheRest
  intro i s t hi h
  obtain ⟨hn, answers, chip, trace, hc, hgo⟩ := exec_frame_cases hi h
  have flash : ∀ a, (i = .readStatus1 → ∀ e, s.chip.pending = some e → ¬ touches e a) →
      chip.mem.read a = s.chip.mem.read a := by
    intro a hp
    rcases hc with rfl | ⟨rx, hc⟩
    · rfl
    · exact answer_read hi hc hp
  rcases hgo with ⟨rx, ht⟩ | ⟨e, rfl⟩
  · generalize hu : ({ s with answers := answers, chip := chip, trace := trace } : State) = u at ht
    have hnu : u.nextFrame = some i := by rw [← hu]; exact hn
    obtain ⟨hout, hres⟩ := frameNext_keeps hnu rx
    have hcur := fun h1 h2 h3 => frameNext_keepsCursors hnu rx (h1 : u.phase ≠ .pollPre) h2 h3
    obtain ⟨_, _, _, _, _, _, _, _, hd⟩ := decides_frameNext i rx u
    rw [hd] at ht hout hres hcur
    subst ht hu
    refine ⟨rfl, rfl, rfl, rfl, rfl, rfl, rfl, rfl, rfl, rfl, rfl, rfl, rfl, rfl, rfl, hout, fun ⟨h1, h2, h3⟩ => ?_, hres,
      fun a hp _ => flash a hp⟩
    obtain ⟨_, _, _, hk⟩ := hcur h1 h2 h3
    simp only [State.mk.injEq] at hk
    simp [hk]
  · exact ⟨rfl, rfl, rfl, rfl, rfl, rfl, rfl, rfl, rfl, rfl, rfl, rfl, rfl, rfl, rfl, fun _ => rfl,
      fun _ => ⟨rfl, rfl, rfl, rfl, rfl⟩, fun h => absurd rfl h, fun a hp _ => flash a hp⟩

end Sys2Proof.Safety
end

section
/-! SUPPORT. Proof that the step machine follows the pseudocode of every request (40_sequencing_common.md sections 1 and 2): one
lemma for each shape of rule, put together from `Laws/Follow.lean`. -/

namespace Sys2Proof.Safety

open Sys2Proof.Machine

/-! ### Joining the machine's own next decision to the procedure's -/

/-- What a mirrored procedure goes on to may be written otherwise, where it is the same in every state it is reached in. -/
theorem Mirrors.congr {α} {s : State} {f : Flow α} {K L : α → State → State} (h : Mirrors s f K)
    (hK : ∀ v tr an, K v { s with trace := tr, answers := an } = L v { s with trace := tr, answers := an }) :
    Mirrors s f L := by
  intro r b hr
  have hm := h r b hr
  cases r with
  | ok v =>
    show Reaches s (L v _)
    rw [← hK]
    exact hm
  | error e => exact hm

/-- The same of a procedure that is followed. -/
theorem Follows.congr {α} {R : State → Prop} {x : State} {o : Option (Except Result α × BusLine)}
    {K L : α → State → State} (h : Follows R x o K) (hK : ∀ v u, R u → K v u = L v u) : Follows R x o L := by
  intro r b hr
  obtain ⟨u, hu, ht, ha, hre⟩ := h r b hr
  refine ⟨u, hu, ht, ha, ?_⟩
  cases r with
  | ok v =>
    show Reaches x (L v u)
    rw [← hK v u hu]
    exact hre
  | error e => exact hre

/-- A procedure mirrored from `s` on is followed there. -/
theorem Mirrors.follows {α} {s : State} {f : Flow α} {K : α → State → State} (h : Mirrors s f K) :
    Follows (Kin s) s (f ⟨s.trace, s.answers⟩) K :=
  (Follows.of (Like.refl s) h rfl).mono fun _ hu => hu.kin

theorem Kin.reqOp {s u : State} (h : Kin s u) : u.reqOp = s.reqOp := by
  obtain ⟨_, _, _, _, _, _, _, _, _, _, rfl⟩ := h
  rfl

theorem Like.reqOp {s u : State} (h : Like s u) : u.reqOp = s.reqOp := h.kin.reqOp

/-- A command of a request that has only one ends the request (R152, R160). -/
theorem commandDone_single {u : State} {op : ReqOp} (hop : u.reqOp = op) (h1 : op ≠ .write) (h2 : op ≠ .eraseRange) :
    commandDone u = u.finish .nothing := by
  subst hop
  unfold commandDone
  split
  · next h => exact absurd h h1
  · next h => exact absurd h h2
  · rfl

/-- A request of one mutating command: it returns nothing when the command is done. -/
theorem follows_single {x y : State} {f : Flow Unit} {b : BusLine} (h1 : x.reqOp ≠ .write) (h2 : x.reqOp ≠ .eraseRange)
    (h : Follows (Like x) y (f b) (fun _ => commandDone)) :
    Follows (Kin x) y (flowNothing f b) (fun v u => u.finish v) :=
  follows_nothing ((h.congr fun _ _ hu => commandDone_single hu.reqOp h1 h2).mono fun _ hu => hu.kin)

/-- A request at `CHECK`: its step is its check. -/
theorem Follows.checked {x : State} {f : State → State} {o : Option (Except Result Value × BusLine)}
    {K : Value → State → State} (hs : Scripted x) (hp : x.phase = .check) (hf : checkedBy x.running = some f)
    (h : Follows (Kin x) (f x) o K) : Follows (Kin x) x o K :=
  Follows.step ((step_running hs.2 (.inl hp)).trans (exec_running_check hp hf)) h

/-! ### The rules -/

/-- The three status requests (R130 to R132). -/
theorem follows_statusRequest {x : State} (hs : Scripted x) (hp : x.phase = .status) :
    Follows (Kin x) x ((flowThen flowReadStatus fun b => flowReturn (statusValue x.reqOp b)) ⟨x.trace, x.answers⟩)
      (fun v u => u.finish v) := by
  refine (mirrors_map (g := statusValue x.reqOp) (K := fun v u => u.finish v) ?_).follows
  exact (mirrors_status hs (.inl hp)).congr fun b tr an =>
    afterStatusByte_status (u := { x with trace := tr, answers := an }) hp

/-- `enable_write()` (R133). -/
theorem follows_enableWriteRequest {x : State} (hs : Scripted x) (hp : x.phase = .wren) (hop : x.reqOp = .enableWrite) :
    Follows (Kin x) x (flowNothing flowEnableWrite ⟨x.trace, x.answers⟩) (fun v u => u.finish v) := by
  refine follows_nothing (Follows.mono (Follows.congr (follows_enableWrite hs (Like.refl x) hp rfl) ?_) fun _ hu => hu.kin)
  intro _ u hu
  rw [afterHandshake_eq (hu.reqOp.trans hop) rfl]
  rfl

/-- A request that is one frame, which receives nothing (R140, R141). -/
theorem follows_oneFrame {x : State} {i : Instr} {tx : List Byte} (hs : Scripted x) (hn : x.nextFrame = some i)
    (htx : frameTx i = tx) (hrx : frameRx i = 0) (he : exec i x = sendFrame i (fun _ t => afterMode t) x)
    (hop : x.reqOp ≠ .eraseBlock32k) :
    Follows (Kin x) x (flowNothing (flowSend tx) ⟨x.trace, x.answers⟩) (fun v u => u.finish v) := by
  refine follows_nothing ((mirrors_send hs hn htx hrx he).follows.congr ?_)
  intro _ u hu
  rw [afterMode_eq hu.reqOp rfl, if_neg hop]

/-- `read(address, buffer)` from its check on (R145). -/
theorem follows_read {x : State} (hs : Scripted x) (hop : x.reqOp = .read) :
    Follows (Kin x) (checkRead x) ((flowThen (flowRead x.params x.argA.toNat x.argB.toNat) fun bs =>
      flowReturn (.bytes bs)) ⟨x.trace, x.answers⟩) (fun v u => u.finish v) := by
  rw [checkRead_eq]
  unfold flowRead
  by_cases hb : x.argA.toNat + x.argB.toNat > 33554432
  · rw [if_pos hb, if_pos (show capacity < _ from hb)]
    exact Follows.err (Kin.refl x) rfl rfl
  rw [if_neg hb, if_neg (show ¬ capacity < _ from hb)]
  by_cases he : x.argB.toNat = 0 ∧ x.params.emptyXfer = .skip
  · rw [if_pos he, if_pos he]
    exact Follows.ret (Kin.refl x) rfl rfl
  rw [if_neg he, if_neg he]
  have hk : Kin x (x.goto .cmd) := (Like.goto (Like.refl x) .cmd).kin
  have hn : (x.goto .cmd).nextFrame = some (.readData4b x.argA x.argB.toNat) := nextFrame_of_read rfl hop
  have hm : Mirrors (x.goto .cmd) (flowMemRead x.argA.toNat x.argB.toNat)
      (fun rx u => ({ u with dataOut := rx }).finish (.bytes rx)) :=
    (mirrors_xfer (hs.kin hk) hn rfl rfl rfl).congr fun rx tr an => afterReadData_delivers rfl rx
  -- `DATA_OUT` is written before the value is returned
  intro r b hr
  rcases flowThen_some hr with ⟨e, h, rfl⟩ | ⟨rx, b', h, h2⟩
  · exact ⟨_, hk.trans ⟨_, _, _, _, _, _, _, _, _, _, rfl⟩, rfl, rfl, hm _ _ h⟩
  · simp only [flowReturn, Option.some.injEq, Prod.mk.injEq] at h2
    obtain ⟨rfl, rfl⟩ := h2
    exact ⟨_, hk.trans ⟨_, _, _, _, _, _, rx, _, _, _, rfl⟩, rfl, rfl, hm _ _ h⟩

/-- `write_page(address, chunk)` from its check on (R152). -/
theorem follows_writePage {x : State} (hs : Scripted x) (hop : x.reqOp = .writePage) :
    Follows (Kin x) (beginPage x.argA.toNat x.dataIn.length x)
      (flowNothing (flowWritePage x.params x.argA.toNat x.dataIn) ⟨x.trace, x.answers⟩) (fun v u => u.finish v) := by
  refine follows_single (by rw [hop]; decide) (by rw [hop]; decide)
    (follows_page hs (Like.refl x) x.argA x.dataIn (.inr hop) ?_ ?_ ?_ ?_ fun _ _ => hop)
  · simp only [State.commandFrame, hop]
  · simp only [State.regionAddr, hop]
  · simp only [State.regionLen, hop]
  · intro w hw
    have hd : w.dataIn = x.dataIn := by
      obtain ⟨_, _, _, _, _, rfl⟩ := hw
      rfl
    simp only [State.expectedWindow, hw.reqOp, hop, hd]

/-- `reset()`: two frames, one after the other (R185). -/
theorem follows_reset {x : State} (hs : Scripted x) (hp : x.phase = .rst1) :
    Follows (Kin x) x (flowNothing flowReset ⟨x.trace, x.answers⟩) (fun v u => u.finish v) := by
  have first : Follows (Kin x) x (flowSend [0x99] ⟨x.trace, x.answers⟩) (fun _ u => u.goto .rst2) :=
    (mirrors_send hs (i := .resetDevice) (by simp only [State.nextFrame, hp]) rfl rfl rfl).follows
  have second : ∀ u, Kin x u →
      Follows (Kin x) (u.goto .rst2) (flowSend [0x66] ⟨u.trace, u.answers⟩) (fun _ w => w.finish .nothing) := by
    intro u hu
    have hk : Kin x (u.goto .rst2) := hu.trans (Like.goto (Like.refl u) .rst2).kin
    exact (mirrors_send (s := u.goto .rst2) (hs.kin hk) (i := .enableReset) (K := fun w => w.finish .nothing) rfl rfl rfl
      rfl).follows.mono fun _ hw => hk.trans hw
  exact follows_nothing (first.chain fun _ u hu => second u hu)

/-- From its acceptance on every request follows its rule to its `return` or `raise`. -/
theorem follows_request {s : State} {i : Instr} (hi : isRequest i = true) (hs : Scripted s) :
    Follows (Kin (acceptedBy i s)) (acceptedBy i s) (flowRequest s.params i ⟨s.trace, s.answers⟩)
      (fun v u => u.finish v) := by
  have hx : Scripted (acceptedBy i s) := by
    obtain ⟨_, _, _, _, _, _, h⟩ := acceptedBy_writes i s
    rw [h]
    exact hs
  cases i
  case readStatus => exact follows_statusRequest hx rfl
  case busy => exact follows_statusRequest hx rfl
  case writeEnabled => exact follows_statusRequest hx rfl
  case enableWrite => exact follows_enableWriteRequest hx rfl rfl
  case enter4ByteAddressMode => exact follows_oneFrame hx (i := .enter4ByteMode) rfl rfl rfl rfl nofun
  case exit4ByteAddressMode => exact follows_oneFrame hx (i := .exit4ByteMode) rfl rfl rfl rfl nofun
  case read a n => exact Follows.checked hx rfl rfl (follows_read hx rfl)
  case write a d => exact Follows.checked hx rfl rfl (follows_nothing (follows_write hx rfl))
  case writePage a d => exact Follows.checked hx rfl rfl (follows_writePage hx rfl)
  case eraseSector k =>
    exact Follows.checked hx rfl rfl (follows_nothing (follows_index hx 0x21 nSectors sectorSize (by decide) ⟨nofun, nofun⟩
      (.inl rfl) rfl rfl rfl (fun _ => rfl) rfl rfl (by decide)))
  case eraseBlock32k k =>
    exact Follows.checked hx rfl rfl (follows_nothing (follows_index hx 0x52 nBlocks32k block32kSize (by decide)
      ⟨fun _ => rfl, fun _ => rfl⟩
      (.inr (.inl rfl)) rfl rfl rfl (fun _ => rfl) rfl rfl (by decide)))
  case eraseBlock64k k =>
    exact Follows.checked hx rfl rfl (follows_nothing (follows_index hx 0xDC nBlocks64k block64kSize (by decide) ⟨nofun, nofun⟩
      (.inr (.inr rfl)) rfl rfl rfl (fun _ => rfl) rfl rfl (by decide)))
  case eraseChip =>
    exact follows_single nofun nofun (follows_erase hx (Like.refl _) rfl (.inr (.inr (.inr (.inl rfl)))) (need := false)
      ⟨nofun, nofun⟩ (A := 0) (len := capacity) rfl rfl rfl (fun _ => rfl) rfl rfl (by decide))
  case eraseRange a b => exact Follows.checked hx rfl rfl (follows_nothing (follows_range hx rfl))
  case reset => exact follows_reset hx rfl
  all_goals cases hi

/-- A request that has followed its rule to its end gives that end as its response. -/
theorem serves_of_ending {i : Instr} {s u : State} {o : Except Result Value} (hi : isRequest i = true) (h : idle s)
    (hs : Scripted s) (hk : Kin (acceptedBy i s) u)
    (hr : Reaches (acceptedBy i s) (ending (fun v u => u.finish v) u o)) :
    ∃ t, Serves i s t ⟨u.trace, u.answers⟩ (outcomeResult o) := by
  generalize he : ending (fun v (u : State) => u.finish v) u o = e at hr
  have hend : e = { u with result := outcomeResult o, phase := .respond } := by
    rw [← he]
    cases o <;> rfl
  have hx := exec_accepted hi h
  obtain ⟨_, _, _, _, _, _, hacc⟩ := acceptedBy_writes i s
  rw [hacc] at hk hr hx
  obtain ⟨_, _, _, _, _, _, _, _, _, _, rfl⟩ := hk
  subst hend
  exact ⟨_, ⟨_, hx, hr.trans (Reaches.of_step (step_respond hs.2 rfl))⟩, rfl, rfl, rfl, rfl, ⟨rfl, rfl⟩, rfl, ⟨rfl, rfl⟩,
    rfl, rfl⟩

/-- Settles O52: a request that is accepted follows its rule (`follows_request`), then responds; a frame has no rule. -/
theorem followsPseudocode : Obligations.FollowsPseudocode := by
  unfold Obligations.FollowsPseudocode
  intro i s o b h hs hf
  cases hi : isRequest i
  case false => cases i <;> cases hi <;> cases hf
  case true =>
    obtain ⟨u, hk, ht, ha, hr⟩ := follows_request hi hs o b hf
    obtain ⟨t, hS⟩ := serves_of_ending hi h hs hk hr
    rw [ht, ha] at hS
    exact ⟨t, hS⟩

/-! ### Any number of polls -/

/-- A busy answer at a poll is used up, put on the trace, and changes nothing else (R134). -/
theorem step_busy_poll {s : State} {b : Byte} {rest : List Answer} (hs : Scripted s)
    (hp : s.phase = .pollPre ∨ s.phase = .pollPost) (hb : b.getLsbD 0 = true) (ha : s.answers = .ok [b] :: rest) :
    step s = .next { s with answers := rest, trace := s.trace ++ [sr b] } := by
  have hn := nextFrame_of_poll hp
  have ht : s.transfer [0x05] 1 (frameNext .readStatus1) =
      afterStatusByte b { s with answers := rest, trace := s.trace ++ [sr b] } := transfer_ok _ hs.1 ha rfl
  rw [step_frame hs.2 hn, exec_selected hn]
  exact congrArg _ (ht.trans (afterStatusByte_busy hp hb))

/-- Settles O46: `step_busy_poll`, by induction on the busy answers. -/
theorem busyWaitPolls : Obligations.BusyWaitPolls := by
  unfold Obligations.BusyWaitPolls
  intro s busy rest hs hp hb ha
  induction busy generalizing s with
  | nil =>
    rw [List.map_nil, List.append_nil]
    exact congrArg _ (by rw [← show s.answers = rest from ha])
  | cons b bs ih =>
    have hstep : core.step s = .next { s with answers := bs.map (fun b => .ok [b]) ++ rest, trace := s.trace ++ [sr b] } :=
      step_busy_poll hs hp (hb b (List.mem_cons_self ..)) ha
    have hrun := ih { s with answers := bs.map (fun b => .ok [b]) ++ rest, trace := s.trace ++ [sr b] } hs hp
      (fun x hx => hb x (List.mem_cons_of_mem _ hx)) rfl
    rw [List.append_assoc] at hrun
    simp only [List.length_cons, Host.Core.run, hstep]
    exact hrun

end Sys2Proof.Safety
end

section
/-! SUPPORT. Proofs of the statements on whole requests (41_status_handshake.md to 47_reset_cmd.md): the pseudocode is run over the
answers, and `followsPseudocode` carries the outcome to the machine. -/

namespace Sys2Proof.Safety

open Sys2Proof.Machine

/-! ### From the pseudocode to the response -/

section

variable {i : Instr} {s : State} {rest : List Answer} {events : List BusEvent}

/-- A request whose pseudocode returns responds with that value. -/
theorem answers_ok {v : Value} (h : idle s) (hs : Scripted s)
    (hf : flowRequest s.params i ⟨s.trace, s.answers⟩ = some (.ok v, ⟨s.trace ++ events, rest⟩)) :
    Answers i s rest events (.ok v) :=
  followsPseudocode i s _ _ h hs hf

/-- A request whose pseudocode raises responds with that error. -/
theorem answers_error {e : Result} (h : idle s) (hs : Scripted s)
    (hf : flowRequest s.params i ⟨s.trace, s.answers⟩ = some (.error e, ⟨s.trace ++ events, rest⟩)) :
    Answers i s rest events e :=
  followsPseudocode i s _ _ h hs hf

/-- A request that raises before it sends a frame uses no answer. -/
theorem answers_refused {e : Result} (h : idle s) (hs : Scripted s)
    (hf : flowRequest s.params i ⟨s.trace, s.answers⟩ = some (.error e, ⟨s.trace, s.answers⟩)) :
    Answers i s s.answers [] e :=
  answers_error h hs (by rw [hf, List.append_nil])

/-- A request that returns before it sends a frame uses no answer. -/
theorem answers_unsent {v : Value} (h : idle s) (hs : Scripted s)
    (hf : flowRequest s.params i ⟨s.trace, s.answers⟩ = some (.ok v, ⟨s.trace, s.answers⟩)) :
    Answers i s s.answers [] (.ok v) :=
  answers_ok h hs (by rw [hf, List.append_nil])

end

/-! ### Status requests, the handshake, the mode requests and `reset` -/

/-- Settles O42: one status read, answered or failed, under each of the three requests. -/
theorem statusRequestsServed : Obligations.StatusRequestsServed := by
  unfold Obligations.StatusRequestsServed
  refine ⟨fun s b rest h hs ha => ?_, fun s e rest h hs ha => ?_⟩
  · have hr := flowReadStatus_ok s.trace b rest
    rw [← ha] at hr
    exact ⟨answers_ok h hs (flowThen_ok hr), answers_ok h hs (flowThen_ok hr), answers_ok h hs (flowThen_ok hr)⟩
  · have hr := flowReadStatus_fail s.trace e rest
    rw [← ha] at hr
    exact ⟨answers_error h hs (flowThen_error hr), answers_error h hs (flowThen_error hr),
      answers_error h hs (flowThen_error hr)⟩

/-- Settles O43: the handshake over its two answers, and its failures at either frame. -/
theorem enableWriteServed : Obligations.EnableWriteServed := by
  unfold Obligations.EnableWriteServed
  refine ⟨fun s b rest h hs ha => ?_, fun s e rest h hs ha => ?_, fun s e rest h hs ha => ?_⟩
  · have hr := flowEnableWrite_answered s.trace b rest
    rw [← ha] at hr
    split <;> rename_i hb
    · rw [if_pos hb] at hr
      exact answers_ok h hs (flowNothing_ok hr)
    · rw [if_neg hb] at hr
      exact answers_error h hs (flowNothing_error hr)
  · have hr := flowSend_fail [0x06] s.trace e rest
    rw [← ha] at hr
    exact answers_error h hs (flowNothing_error (flowThen_error hr))
  · have h1 := flowSend_ok [0x06] s.trace (.fail e :: rest)
    rw [← ha] at h1
    have h2 := flowReadStatus_fail (s.trace ++ [sent [0x06]]) e rest
    rw [List.append_assoc] at h2
    exact answers_error h hs (flowNothing_error ((flowThen_ok h1).trans (flowThen_error h2)))

/-- Settles O44: one frame for each mode request, two for `reset`, and the failure of each. -/
theorem modeAndResetServed : Obligations.ModeAndResetServed := by
  unfold Obligations.ModeAndResetServed
  refine ⟨fun s rest h hs ha => ?mode, fun s e rest h hs ha => ?modeFailed, fun s rest h hs ha => ?reset,
    fun s e rest h hs ha => ?firstFailed, fun s e rest h hs ha => ?secondFailed⟩
  case mode =>
    have hr := fun tx => flowSend_ok tx s.trace rest
    rw [← ha] at hr
    exact ⟨answers_ok h hs (flowNothing_ok (hr _)), answers_ok h hs (flowNothing_ok (hr _))⟩
  case modeFailed =>
    have hr := fun tx => flowSend_fail tx s.trace e rest
    rw [← ha] at hr
    exact ⟨answers_error h hs (flowNothing_error (hr _)), answers_error h hs (flowNothing_error (hr _))⟩
  case reset =>
    have h1 := flowSend_ok [0x99] s.trace (.ok [] :: rest)
    rw [← ha] at h1
    have h2 := flowSend_ok [0x66] (s.trace ++ [sent [0x99]]) rest
    rw [List.append_assoc] at h2
    exact answers_ok h hs (flowNothing_ok ((flowThen_ok h1).trans h2))
  case firstFailed =>
    have hr := flowSend_fail [0x99] s.trace e rest
    rw [← ha] at hr
    exact answers_error h hs (flowNothing_error (flowThen_error hr))
  case secondFailed =>
    have h1 := flowSend_ok [0x99] s.trace (.fail e :: rest)
    rw [← ha] at h1
    have h2 := flowSend_fail [0x66] (s.trace ++ [sent [0x99]]) e rest
    rw [List.append_assoc] at h2
    exact answers_error h hs (flowNothing_error ((flowThen_ok h1).trans h2))

/-! ### `read` -/

/-- A `read` in bounds that is not skipped is its one frame (R145, R146). -/
theorem flowRead_sends {p : Params} {a n : Nat} (hb : a + n ≤ 33554432) (he : n = 0 → p.emptyXfer = .literal) :
    flowRead p a n = flowMemRead a n := by
  have hskip : ¬ (n = 0 ∧ p.emptyXfer = .skip) := fun ⟨h0, hs⟩ => by rw [he h0] at hs; cases hs
  rw [flowRead, if_neg (show ¬ capacity < a + n from Nat.not_lt.mpr hb), if_neg hskip]

/-- Settles O45: `flowRead` is out of bounds, skipped, or one frame, answered or failed. -/
theorem readServed : Obligations.ReadServed := by
  unfold Obligations.ReadServed
  refine ⟨fun s a n h hs hb => ?bounds, fun s a h hs hb he => ?skipped, fun s a n rx rest h hs hb he hl ha => ?sent,
    fun s a n e rest h hs hb he ha => ?failed⟩
  case bounds =>
    have hr : flowRead s.params a.toNat n.toNat = flowRaise .outOfBounds := if_pos hb
    exact answers_refused h hs (by rw [flowRequest, hr]; rfl)
  case skipped =>
    have hr : flowRead s.params a.toNat (0 : Addr).toNat = flowReturn [] :=
      (if_neg (Nat.not_lt.mpr hb)).trans (if_pos ⟨rfl, he⟩)
    exact answers_unsent h hs (by rw [flowRequest, hr]; rfl)
  case sent =>
    have hr := flowXfer_ok (0x13 :: be32 a.toNat) s.trace rest hl
    rw [← ha] at hr
    exact answers_ok h hs (by rw [flowRequest, flowRead_sends hb he]; exact flowThen_ok hr)
  case failed =>
    have hr := flowXfer_fail (0x13 :: be32 a.toNat) n.toNat s.trace e rest
    rw [← ha] at hr
    exact answers_error h hs (by rw [flowRequest, flowRead_sends hb he]; exact flowThen_error hr)

/-! ### The command of a mutating request -/

theorem flowThen_return {α β : Type} (v : α) (g : α → Flow β) : flowThen (flowReturn v) g = g v := rfl

/-- A mutating command: the handshake, its frame, the trailing wait, and then `k` (R152, R160). -/
def flowCommand (frame : List Byte) (k : Flow Unit) : Flow Unit :=
  flowThen flowEnableWrite fun _ => flowThen (flowSend frame) fun _ => flowThen flowBusyWait fun _ => k

/-- What a command puts on the trace where the latch is set. -/
def commandEvents (frame : List Byte) (latch : Byte) (busy : List Byte) (c : Byte) : List BusEvent :=
  [sent [0x06], sr latch, sent frame] ++ busy.map sr ++ [sr c]

/-- A command runs over a latch that is set and any number of busy answers. -/
theorem flowCommand_answered (frame : List Byte) (k : Flow Unit) (tr : List BusEvent) {latch c : Byte} {busy : List Byte}
    (rest : List Answer) (hl : latch.getLsbD 1 = true) (hb : ∀ x ∈ busy, x.getLsbD 0 = true) (hc : c.getLsbD 0 = false) :
    flowCommand frame k ⟨tr, .ok [] :: .ok [latch] :: .ok [] :: (busy.map (fun x => .ok [x]) ++ .ok [c] :: rest)⟩ =
      k ⟨tr ++ commandEvents frame latch busy c, rest⟩ := by
  have hw := flowEnableWrite_answered tr latch (.ok [] :: (busy.map (fun x => .ok [x]) ++ .ok [c] :: rest))
  rw [if_pos hl] at hw
  rw [flowCommand, flowThen_ok hw, flowThen_ok (flowSend_ok _ _ _), flowThen_ok (flowBusyWait_ends busy _ c rest hb hc)]
  simp only [commandEvents, List.append_assoc, List.cons_append, List.nil_append]

/-- A latch that is clear raises before the command's frame (R133). -/
theorem flowCommand_notLatched (frame : List Byte) (k : Flow Unit) (tr : List BusEvent) {latch : Byte}
    (rest : List Answer) (hl : latch.getLsbD 1 = false) :
    flowCommand frame k ⟨tr, .ok [] :: .ok [latch] :: rest⟩ =
      some (.error .writeEnableFail, ⟨tr ++ [sent [0x06], sr latch], rest⟩) := by
  have hw := flowEnableWrite_answered tr latch rest
  rw [if_neg (by rw [hl]; decide)] at hw
  exact flowThen_error hw

/-! ### `write_page` and `write` -/

/-- A chunk that passes every test is one command (R152). -/
theorem flowWritePage_sends {p : Params} {a : Nat} {d : List Byte} (hs : a % 256 + d.length ≤ 256)
    (hc : p.pageCapCheck = true → a + d.length ≤ 33554432) (he : d = [] → p.emptyXfer = .literal) :
    flowWritePage p a d =
      flowCommand (0x12 :: be32 a ++ d) (if p.verifyEn then flowVerifyData a d else flowReturn ()) := by
  have hcap : ¬ (p.pageCapCheck = true ∧ capacity < a + d.length) := fun ⟨h, hlt⟩ => absurd hlt (Nat.not_lt.mpr (hc h))
  have hskip : ¬ (d.length = 0 ∧ p.emptyXfer = .skip) := fun ⟨h0, hk⟩ => by
    rw [he (List.length_eq_zero_iff.mp h0)] at hk; cases hk
  rw [flowWritePage, if_neg (show ¬ pageSize < a % pageSize + d.length from Nat.not_lt.mpr hs), if_neg hcap, if_neg hskip]
  rfl

/-- Settles O47: `flowWritePage` over the page, over a clear latch, and as one whole command. -/
theorem writePageServed : Obligations.WritePageServed := by
  unfold Obligations.WritePageServed
  refine ⟨fun s a d h hs hb => ?spans, fun s a d latch rest h hs hb hc he hl ha => ?notLatched,
    fun s a d latch c busy rest h hs hv hb hc he hl hbusy hidle ha => ?done⟩
  case spans =>
    have hr : flowWritePage s.params a.toNat d = flowRaise .outOfBounds := if_pos hb
    exact answers_refused h hs (by rw [flowRequest, hr]; rfl)
  case notLatched =>
    refine answers_error h hs (flowNothing_error ?_)
    rw [flowWritePage_sends hb hc he, ha]
    exact flowCommand_notLatched _ _ _ rest hl
  case done =>
    refine answers_ok h hs (flowNothing_ok ?_)
    rw [flowWritePage_sends hb hc he, ha, flowCommand_answered _ _ _ rest hl hbusy hidle, hv]
    rfl

/-- Verification of a region of one window: it is read once and compared (R176). -/
theorem flowVerifyData_oneWindow {a : Nat} {d rx : List Byte} (tr : List BusEvent) (rest : List Answer)
    (h0 : 0 < d.length) (h64 : d.length ≤ 64) (hl : rx.length = d.length) :
    flowVerifyData a d ⟨tr, .ok rx :: rest⟩ =
      some (if rx = d then .ok () else .error .readbackFail, ⟨tr ++ [.frame (0x13 :: be32 a) rx], rest⟩) := by
  obtain ⟨n, hn⟩ : ∃ n, d.length = n + 1 := ⟨d.length - 1, by omega⟩
  have hw : min verifyWindow (d.length - 0) = d.length := by simp only [verifyWindow]; omega
  have hdone : ∀ m, flowWindows a d.length (fun off w => (d.drop off).take w) m d.length = flowReturn () := by
    intro m
    cases m with
    | zero => rfl
    | succ m => exact if_neg (Nat.lt_irrefl _)
  have hread := flowXfer_ok (0x13 :: be32 (a + 0)) tr rest hl
  unfold flowVerifyData
  conv_lhs => rw [hn]
  rw [flowWindows, ← hn, if_pos h0, hw, flowMemRead, flowThen_ok hread, List.drop_zero, List.take_length, Nat.zero_add,
    hdone n]
  split <;> rfl

/-- Settles O48: the command, then one window. -/
theorem writePageVerifies : Obligations.WritePageVerifies := by
  unfold Obligations.WritePageVerifies
  intro s a d rx latch c rest h hs hv hb hc h0 h64 hl hidle hrx ha
  have hf : flowWritePage s.params a.toNat d ⟨s.trace, s.answers⟩ =
      some (if rx = d then .ok () else .error .readbackFail,
        ⟨s.trace ++ [sent [0x06], sr latch, sent (0x12 :: be32 a.toNat ++ d), sr c, .frame (0x13 :: be32 a.toNat) rx], rest⟩) := by
    have hcmd := flowCommand_answered (0x12 :: be32 a.toNat ++ d) (flowVerifyData a.toNat d) s.trace (busy := [])
      (.ok rx :: rest) hl nofun hidle
    rw [flowWritePage_sends hb hc (fun hd => by rw [hd] at h0; cases h0), hv, ha]
    refine hcmd.trans ?_
    rw [flowVerifyData_oneWindow _ rest h0 h64 hrx, List.append_assoc]
    rfl
  split <;> rename_i he
  · rw [if_pos he] at hf
    exact answers_ok h hs (flowNothing_ok hf)
  · rw [if_neg he] at hf
    exact answers_error h hs (flowNothing_error hf)

/-- With no byte left the chunk loop of `write` returns (R150). -/
theorem flowChunks_done (p : Params) {d : List Byte} (rounds cur : Nat) {off : Nat} (h : d.length ≤ off) :
    flowChunks p d rounds cur off = flowReturn () := by
  cases rounds with
  | zero => rfl
  | succ n => exact if_neg (Nat.not_lt.mpr h)

/-- `write` of data that end inside their first page is a leading wait and one page (R150). -/
theorem flowWrite_onePage {p : Params} {a : Nat} {d : List Byte} (hb : a + d.length ≤ 33554432) (h0 : 0 < d.length)
    (hp : d.length ≤ 256 - a % 256) :
    flowWrite p a d = flowThen flowBusyWait fun _ => flowThen (flowWritePage p a d) fun _ => flowReturn () := by
  have hfirst : min (pageSize - a % pageSize) d.length = d.length := by simp only [pageSize]; omega
  unfold flowWrite
  rw [if_neg (show ¬ capacity < a + d.length from Nat.not_lt.mpr hb)]
  dsimp only
  rw [hfirst, if_neg (fun h => absurd h.1 (by omega)), List.take_length]
  simp only [flowChunks_done p _ _ (Nat.le_refl d.length)]

/-- Settles O49: `flowWrite` out of bounds, and as a leading wait and one command. -/
theorem writeServed : Obligations.WriteServed := by
  unfold Obligations.WriteServed
  refine ⟨fun s a d h hs hb => ?bounds, fun s a d before after b c latch rest h hs hv hb h0 hp hx hbb hcb hl ha => ?done⟩
  case bounds =>
    have hr : flowWrite s.params a.toNat d = flowRaise .outOfBounds := if_pos hb
    exact answers_refused h hs (by rw [flowRequest, hr]; rfl)
  case done =>
    have hne : d = [] → s.params.emptyXfer = .literal := fun hd => by rw [hd] at h0; cases h0
    refine answers_ok h hs (flowNothing_ok ?_)
    rw [flowWrite_onePage hb h0 hp, ha,
      flowThen_ok (flowBusyWait_ends before _ b _ (fun x hm => hx x (List.mem_append_left _ hm)) hbb),
      flowWritePage_sends (by omega) (fun _ => hb) hne, hv]
    rw [flowThen_ok (flowCommand_answered _ _ _ rest hl (fun x hm => hx x (List.mem_append_right _ hm)) hcb)]
    simp only [commandEvents, flowReturn, List.append_assoc, List.cons_append, List.nil_append]

/-! ### The erases -/

/-- An erase without verification: a leading wait, `> B7` where it is needed, and one command (R160). -/
theorem flowErase_unverified {p : Params} (frame : List Byte) (a len : Nat) (need4b : Bool) (hv : p.verifyEn = false)
    (hm : need4b = true → p.modeOrder = .beforeHandshake) :
    flowErase p frame a len need4b =
      flowThen flowBusyWait fun _ => flowThen (if need4b = true then flowSend [0xB7] else flowReturn ()) fun _ =>
        flowCommand frame (flowReturn ()) := by
  have hbefore : (need4b = true ∧ p.modeOrder = .beforeHandshake) = (need4b = true) := propext (and_iff_left_of_imp hm)
  have hafter : ¬ (need4b = true ∧ p.modeOrder = .afterHandshake) := fun ⟨h4, h⟩ => by rw [hm h4] at h; cases h
  unfold flowErase flowCommand
  simp only [hbefore, if_neg hafter, hv, Bool.false_eq_true, if_false, flowThen_return]

/-- Settles O50: an index out of range raises at once; else the erase runs over its waits, `> B7` and its command. -/
theorem erasesServed : Obligations.ErasesServed := by
  unfold Obligations.ErasesServed
  refine ⟨fun s k h hs => ?bounds, fun s k before after b c latch rest h hs hv hm hx hbb hcb hl => ⟨fun ha => ?plain, fun ha hk =>
    ?block32k⟩⟩
  case bounds =>
    have out : ∀ op count size need, k.toNat ≥ count →
        flowEraseUnit s.params op k.toNat count size need = flowRaise .outOfBounds := fun _ _ _ _ hk => if_pos hk
    refine ⟨fun hk => ?_, fun hk => ?_, fun hk => ?_⟩ <;> refine answers_refused h hs ?_
    · rw [flowRequest, flowEraseSector, out _ nSectors _ _ hk]
      rfl
    · rw [flowRequest, out _ nBlocks32k _ _ hk]
      rfl
    · rw [flowRequest, out _ nBlocks64k _ _ hk]
      rfl
  case plain =>
    have run : ∀ frame a len, flowErase s.params frame a len false ⟨s.trace, s.answers⟩ = some (.ok (), ⟨s.trace ++
        (before.map sr ++ [sr b, sent [0x06], sr latch, sent frame] ++ after.map sr ++ [sr c]), rest⟩) := by
      intro frame a len
      rw [flowErase_unverified frame a len false hv nofun, ha,
        flowThen_ok (flowBusyWait_ends before _ b _ (fun x hy => hx x (List.mem_append_left _ hy)) hbb)]
      refine (flowCommand_answered _ _ _ rest hl (fun x hy => hx x (List.mem_append_right _ hy)) hcb).trans ?_
      simp only [commandEvents, flowReturn, List.append_assoc, List.cons_append, List.nil_append]
    have unit : ∀ op count size, k.toNat < count →
        flowEraseUnit s.params op k.toNat count size false = flowErase s.params (op :: be32 (k.toNat * size)) (k.toNat * size) size
          false := fun _ _ _ hk => if_neg (Nat.not_le.mpr hk)
    refine ⟨fun hk => ?_, fun hk => ?_, ?_⟩ <;> refine answers_ok h hs (flowNothing_ok ?_)
    · rw [flowEraseSector, unit _ nSectors _ hk]
      exact run _ _ _
    · rw [unit _ nBlocks64k _ hk]
      exact run _ _ _
    · exact run _ _ _
  case block32k =>
    refine answers_ok h hs (flowNothing_ok ?_)
    rw [flowEraseUnit, if_neg (show ¬ nBlocks32k ≤ k.toNat from Nat.not_le.mpr hk), flowErase_unverified _ _ _ true hv (fun _ => hm), ha,
      flowThen_ok (flowBusyWait_ends before _ b _ (fun x hy => hx x (List.mem_append_left _ hy)) hbb), if_pos rfl,
      flowThen_ok (flowSend_ok _ _ _)]
    refine (flowCommand_answered _ _ _ rest hl (fun x hy => hx x (List.mem_append_right _ hy)) hcb).trans ?_
    simp only [commandEvents, flowReturn, List.append_assoc, List.cons_append, List.nil_append]
    rfl

end Sys2Proof.Safety
end

section
/-! SUPPORT. Proofs of the statements on `erase_range` over one sector (45_erase.md) and on the page programs of `write`
(44_write.md). -/

namespace Sys2Proof.Safety

open Sys2Proof.Machine

/-! ### `erase_range` -/

/-- `erase_range` of an aligned range in order is its sector loop (R165). -/
theorem flowEraseRange_aligned (p : Params) {a e : Nat} (ha : a % 4096 = 0) (he : e % 4096 = 0) (hle : a ≤ e) :
    flowEraseRange p a e = flowSectors p (e / 4096) (e / 4096) (a / 4096) := by
  have hal : ¬ (a % sectorSize ≠ 0 ∨ e % sectorSize ≠ 0) := by
    rintro (h | h)
    · exact h ha
    · exact h he
  rw [flowEraseRange, if_neg hal, if_neg (Nat.not_lt.mpr hle)]
  rfl

/-- The sector loop returns where no sector is left. -/
theorem flowSectors_done (p : Params) {stop idx : Nat} (rounds : Nat) (h : stop ≤ idx) :
    flowSectors p stop rounds idx = flowReturn () := by
  cases rounds with
  | zero => rfl
  | succ n => exact if_neg (Nat.not_lt.mpr h)

/-- The sector loop erases the next sector first. -/
theorem flowSectors_next (p : Params) {stop idx : Nat} (h : idx < stop) :
    flowSectors p stop stop idx =
      flowThen (flowEraseSector p idx) fun _ => flowSectors p stop (stop - 1) (idx + 1) := by
  obtain ⟨n, rfl⟩ : ∃ n, stop = n + 1 := ⟨stop - 1, by omega⟩
  exact if_pos h

/-- One sector in range, without verification: a leading wait and its command (R160, R161). -/
theorem flowEraseSector_unverified {p : Params} {k : Nat} (hv : p.verifyEn = false) (hk : k < 8192) :
    flowEraseSector p k =
      flowThen flowBusyWait fun _ => flowCommand (0x21 :: be32 (k * 4096)) (flowReturn ()) := by
  rw [flowEraseSector, flowEraseUnit, if_neg (show ¬ nSectors ≤ k from Nat.not_le.mpr hk),
    flowErase_unverified _ _ _ false hv nofun]
  rfl

/-- Settles O51: `flowEraseRange` at each of its tests, and its loop over no sector and over one. -/
theorem eraseRangeServed : Obligations.EraseRangeServed := by
  unfold Obligations.EraseRangeServed
  refine ⟨fun s a e h hs hm => ?misaligned, fun s a e h hs ha he hgt => ?reversed, fun s a h hs ha => ?empty,
    fun s a e h hs ha he hbig hlt => ?beyond, fun s a e b c latch rest h hs hv ha hone hlt hb hc hl hans => ?oneSector⟩
  case misaligned =>
    have hr : flowEraseRange s.params a.toNat e.toNat = flowRaise .notAligned := if_pos hm
    exact answers_refused h hs (by rw [flowRequest, hr]; rfl)
  case reversed =>
    have hr : flowEraseRange s.params a.toNat e.toNat = flowRaise .outOfBounds :=
      (if_neg (show ¬ (a.toNat % 4096 ≠ 0 ∨ e.toNat % 4096 ≠ 0) by omega)).trans (if_pos hgt)
    exact answers_refused h hs (by rw [flowRequest, hr]; rfl)
  case empty =>
    refine answers_unsent h hs (flowNothing_ok ?_)
    rw [flowEraseRange_aligned s.params ha ha (Nat.le_refl _), flowSectors_done _ _ (Nat.le_refl _)]
    rfl
  case beyond =>
    have hout : flowEraseSector s.params (a.toNat / 4096) = flowRaise .outOfBounds :=
      if_pos (show nSectors ≤ a.toNat / 4096 by simp only [nSectors]; omega)
    refine answers_refused h hs (flowNothing_error ?_)
    rw [flowEraseRange_aligned s.params ha he (Nat.le_of_lt hlt), flowSectors_next _ (by omega), hout]
    rfl
  case oneSector =>
    have hdone : e.toNat / 4096 ≤ a.toNat / 4096 + 1 := by omega
    refine answers_ok h hs (flowNothing_ok ?_)
    rw [flowEraseRange_aligned s.params ha (by omega) (by omega), flowSectors_next _ (by omega),
      flowEraseSector_unverified hv (by omega), Nat.div_mul_cancel (Nat.dvd_of_mod_eq_zero ha), flowSectors_done _ _ hdone, hans]
    have hwait : ∀ rest, flowBusyWait ⟨s.trace, .ok [b] :: rest⟩ = some (.ok (), ⟨s.trace ++ [sr b], rest⟩) := fun rest => by
      simpa only [List.map_nil, List.append_nil, List.nil_append] using flowBusyWait_ends [] s.trace b rest nofun hb
    have hrun : (flowThen flowBusyWait fun _ => flowCommand (0x21 :: be32 a.toNat) (flowReturn ())) _ = _ := (flowThen_ok (hwait _)).trans
      (flowCommand_answered (0x21 :: be32 a.toNat) (flowReturn ()) (s.trace ++ [sr b]) (busy := []) rest hl nofun hc)
    refine (flowThen_ok hrun).trans ?_
    rw [List.append_assoc]
    rfl

/-! ### The page programs of `write` -/

/-- The page programs of a trace are those of its parts, in order. -/
theorem programs_append (es fs : List BusEvent) : programs (es ++ fs) = programs es ++ programs fs := by
  induction es using programs.induct with
  | case1 => rfl
  | case2 _ _ _ _ _ _ rest ih => simp only [List.cons_append, programs, ih]
  | case3 ev rest _ ih => simp only [List.cons_append, programs, ih]

/-- Where `f` returns, the page programs it has put on the trace are `ps`. -/
def Programs {α : Type} (f : Flow α) (ps : List (Nat × List Byte)) : Prop :=
  ∀ b v b', f b = some (.ok v, b') → ∃ events, b'.trace = b.trace ++ events ∧ programs events = ps

section

variable {α β : Type}

theorem programs_return (v : α) : Programs (flowReturn v) [] := by
  intro b w b' h
  simp only [flowReturn, Option.some.injEq, Prod.mk.injEq] at h
  exact ⟨[], by rw [← h.2, List.append_nil], rfl⟩

theorem programs_raise (r : Result) (ps : List (Nat × List Byte)) : Programs (α := α) (flowRaise r) ps := nofun

theorem programs_then {f : Flow α} {g : α → Flow β} {ps qs : List (Nat × List Byte)} (hf : Programs f ps)
    (hg : ∀ v, Programs (g v) qs) : Programs (flowThen f g) (ps ++ qs) := by
  intro b w b' h
  rcases flowThen_some h with ⟨e, _, he⟩ | ⟨v, c, h1, h2⟩
  · cases he
  · obtain ⟨es, hes, hps⟩ := hf b v c h1
    obtain ⟨fs, hfs, hqs⟩ := hg v c w b' h2
    exact ⟨es ++ fs, by rw [hfs, hes, List.append_assoc], by rw [programs_append, hps, hqs]⟩

/-- Two procedures of which neither programs a page. -/
theorem programs_then_nil {f : Flow α} {g : α → Flow β} (hf : Programs f []) (hg : ∀ v, Programs (g v) []) :
    Programs (flowThen f g) [] :=
  programs_then hf hg

end

/-- A transfer programs what its frame programs. -/
theorem programs_xfer {tx : List Byte} {n : Nat} {ps : List (Nat × List Byte)} (h : ∀ rx, programs [.frame tx rx] = ps) :
    Programs (flowXfer tx n) ps := by
  rintro ⟨tr, answers⟩ v b' hx
  match answers, hx with
  | .ok rx :: rest, hx =>
    simp only [flowXfer] at hx
    split at hx
    · cases hx
      exact ⟨_, rfl, h _⟩
    · cases hx

theorem programs_send {tx : List Byte} {ps : List (Nat × List Byte)} (h : ∀ rx, programs [.frame tx rx] = ps) :
    Programs (flowSend tx) ps := by
  have := programs_then (programs_xfer (n := 0) h) fun _ => programs_return ()
  rwa [List.append_nil] at this

theorem programs_readStatus : Programs flowReadStatus [] :=
  programs_then_nil (programs_xfer fun _ => rfl) fun _ => programs_return _

theorem programs_enableWrite : Programs flowEnableWrite [] := by
  refine programs_then_nil (programs_send fun _ => rfl) fun _ => programs_then_nil programs_readStatus fun b => ?_
  split
  · exact programs_return ()
  · exact programs_raise _ _

theorem programs_poll (rounds : Nat) : Programs (flowPoll rounds) [] := by
  induction rounds with
  | zero => exact nofun
  | succ n ih =>
    refine programs_then_nil programs_readStatus fun b => ?_
    split
    · exact ih
    · exact programs_return ()

theorem programs_busyWait : Programs flowBusyWait [] := fun b => programs_poll _ b

theorem programs_windows (a len : Nat) (expected : Nat → Nat → List Byte) (rounds : Nat) :
    ∀ off, Programs (flowWindows a len expected rounds off) [] := by
  induction rounds with
  | zero => exact fun _ => programs_return ()
  | succ n ih =>
    intro off
    rw [flowWindows]
    split
    · refine programs_then_nil (programs_xfer fun _ => rfl) fun rx => ?_
      split
      · exact ih _
      · exact programs_raise _ _
    · exact programs_return ()

/-- The frame `> 12 a d` programs `d` at `a` (R86). -/
theorem programs_pageProgram {a : Nat} (ha : a < 2 ^ 32) (d rx : List Byte) :
    programs [.frame (0x12 :: be32 a ++ d) rx] = [(a, d)] := by
  have hr := congrArg BitVec.toNat (fromBe32_be32 (BitVec.ofNat 32 a))
  rw [BitVec.toNat_ofNat, Nat.mod_eq_of_lt ha] at hr
  exact congrArg (fun x => [(x, d)]) hr

/-- A chunk that is sent is one page program, whatever follows it (R152). -/
theorem programs_writePage (p : Params) {a : Nat} {d : List Byte} (ha : a < 2 ^ 32) (he : ¬ (d.length = 0 ∧ p.emptyXfer = .skip)) :
    Programs (flowWritePage p a d) [(a, d)] := by
  rw [flowWritePage, if_neg he]
  split
  · exact programs_raise _ _
  split
  · exact programs_raise _ _
  refine programs_then programs_enableWrite fun _ => programs_then (ps := [(a, d)]) (qs := [])
    (programs_send (programs_pageProgram ha d)) fun _ => programs_then_nil programs_busyWait fun _ => ?_
  split
  · exact programs_windows _ _ _ _ _
  · exact programs_return ()

/-- Where `f` returns, the page programs it has put on the trace lay `d` down from `a` on. -/
def LaysDown {α : Type} (f : Flow α) (a : Nat) (d : List Byte) : Prop := ∃ ps, Programs f ps ∧ tiles a ps d

/-- A page program of a whole chunk lays it down. -/
theorem tiles_one {a : Nat} {d : List Byte} (h : a % 256 + d.length ≤ 256) : tiles a [(a, d)] d :=
  ⟨rfl, h, .inl rfl, List.take_length, List.drop_length⟩

/-- A page program of the first `n` bytes, up to the page's end, and then the rest. -/
theorem tiles_cons {a n : Nat} {d : List Byte} {ps : List (Nat × List Byte)} (hn : n ≤ d.length) (h : a % 256 + n = 256)
    (ht : tiles (a + n) ps (d.drop n)) : tiles a ((a, d.take n) :: ps) d := by
  have hl : (d.take n).length = n := List.length_take_of_le hn
  refine ⟨rfl, ?_, ?_, ?_, ?_⟩ <;> rw [hl]
  · exact Nat.le_of_eq h
  · exact .inr h
  · exact ht

/-- The chunk loop lays the rest of the data down, from the start of a page on (R150). -/
theorem flowChunks_laysDown (p : Params) (data : List Byte) (rounds : Nat) :
    ∀ cur off, data.length ≤ off + rounds → cur % 256 = 0 → cur + (data.length - off) ≤ 33554432 →
      LaysDown (flowChunks p data rounds cur off) cur (data.drop off) := by
  induction rounds with
  | zero => exact fun cur off hr _ _ => ⟨[], programs_return (), List.drop_eq_nil_of_le hr⟩
  | succ n ih =>
    intro cur off hr hc hb
    by_cases ho : off < data.length
    case neg =>
      rw [flowChunks_done p _ _ (Nat.le_of_not_lt ho)]
      exact ⟨[], programs_return (), List.drop_eq_nil_of_le (Nat.le_of_not_lt ho)⟩
    have hrest : (data.drop off).length = data.length - off := List.length_drop
    rw [flowChunks, if_pos ho]
    by_cases hlast : data.length - off ≤ 256
    · have hm : min pageSize (data.length - off) = data.length - off := Nat.min_eq_right hlast
      rw [hm, ← hrest, List.take_length, hrest, flowChunks_done p _ _ (by omega : data.length ≤ off + (data.length - off))]
      refine ⟨[(cur, data.drop off)] ++ [], programs_then (programs_writePage p (by omega) (fun h => ?_)) fun _ =>
        programs_return (), tiles_one (by omega)⟩
      omega
    · have hm : min pageSize (data.length - off) = 256 := Nat.min_eq_left (by simp only [pageSize]; omega)
      have hl : ((data.drop off).take 256).length = 256 := List.length_take_of_le (by omega)
      obtain ⟨ps, hps, ht⟩ := ih (cur + 256) (off + 256) (by omega) (by omega) (by omega)
      rw [hm]
      refine ⟨[(cur, (data.drop off).take 256)] ++ ps, programs_then (programs_writePage p (by omega) (fun h => ?_)) fun _ => hps,
        tiles_cons (by omega) (by omega) ?_⟩
      · omega
      · rw [List.drop_drop]
        exact ht

/-- `write` lays its data down from its address on: the part in the first page, then the chunk loop (R150, R151). -/
theorem flowWrite_laysDown (p : Params) {a : Nat} {d : List Byte} (hb : a + d.length ≤ 33554432) :
    LaysDown (flowWrite p a d) a d := by
  unfold flowWrite
  rw [if_neg (show ¬ capacity < a + d.length from Nat.not_lt.mpr hb)]
  dsimp only
  by_cases hone : d.length ≤ 256 - a % 256
  · have hm : min (pageSize - a % pageSize) d.length = d.length := Nat.min_eq_right hone
    rw [hm, List.take_length]
    simp only [flowChunks_done p _ _ (Nat.le_refl d.length)]
    by_cases hskip : d.length = 0 ∧ p.emptyXfer = .skip
    · rw [if_pos hskip]
      exact ⟨[], programs_then_nil programs_busyWait fun _ => programs_then_nil (programs_return ()) fun _ => programs_return (),
        List.length_eq_zero_iff.mp hskip.1⟩
    · rw [if_neg hskip]
      exact ⟨[(a, d)], programs_then (ps := []) programs_busyWait fun _ => programs_then (ps := [(a, d)]) (qs := [])
        (programs_writePage p (by omega) hskip) fun _ => programs_return (), tiles_one (by omega)⟩
  · have hm : min (pageSize - a % pageSize) d.length = 256 - a % 256 := Nat.min_eq_left (by simp only [pageSize]; omega)
    have hl : (d.take (256 - a % 256)).length = 256 - a % 256 := List.length_take_of_le (by omega)
    obtain ⟨ps, hps, ht⟩ :=
      flowChunks_laysDown p d d.length (a + (256 - a % 256)) (256 - a % 256) (by omega) (by omega) (by omega)
    rw [hm, if_neg (fun h => absurd h.1 (by omega))]
    refine ⟨[(a, d.take (256 - a % 256))] ++ ps, programs_then (ps := []) programs_busyWait fun _ =>
      programs_then (programs_writePage p (by omega) (fun h => ?_)) fun _ => hps, tiles_cons (by omega) (by omega) ht⟩
    omega

/-- Settles O53: a `write` that returns was in bounds, and then it lays its data down. -/
theorem writeTilesItsData : Obligations.WriteTilesItsData := by
  unfold Obligations.WriteTilesItsData
  intro p a d b b' h
  rcases flowThen_some h with ⟨e, _, he⟩ | ⟨v, c, hw, hret⟩
  · cases he
  have hb : a.toNat + d.length ≤ 33554432 := by
    refine Nat.le_of_not_lt fun hlt => ?_
    have hr : flowWrite p a.toNat d = flowRaise .outOfBounds := if_pos hlt
    rw [hr] at hw
    cases hw
  obtain ⟨ps, hps, ht⟩ := flowWrite_laysDown p hb
  obtain ⟨events, htrace, hprograms⟩ := hps b v c hw
  cases hret
  exact ⟨events, htrace, hprograms ▸ ht⟩

end Sys2Proof.Safety
end

section
/-! SUPPORT. Proofs of the statements on a page program of `write`, on the reference oracle's chip (95_test_vectors.md section 4)
and on the numeric codes. -/

namespace Sys2Proof.Machine

/-! ### Reading and programming a memory -/

theorem Memory.readRange_length (m : Memory) (n : Nat) : ∀ a, (m.readRange a n).length = n := by
  induction n with
  | zero => exact fun _ => rfl
  | succ n ih => exact fun a => congrArg (· + 1) (ih (a + 1))

theorem Chip.readBytes_length (c : Chip) (a n : Nat) : (c.readBytes a n).length = n := by
  unfold Chip.readBytes
  split
  · exact Memory.readRange_length c.mem n a
  · exact List.length_replicate

/-- Fewer than 256 bytes further on the program address is another one (R73). -/
theorem programAddr_ne (a i : Nat) {j : Nat} (h0 : 0 < j) (hj : j < 256) : programAddr a (i + j) ≠ programAddr a i := by
  simp only [programAddr, pageBase, pageSize]
  omega

/-- Programming ANDs each data byte into the byte at its address (R72). -/
theorem Memory.read_program_at {a : Nat} (ha : a < capacity) (d : List Byte) :
    ∀ (m : Memory) (i j : Nat) (hj : j < d.length), m.wf = true → d.length ≤ 256 →
      (m.program a i d).read (programAddr a (i + j)) = m.read (programAddr a (i + j)) &&& d[j] := by
  induction d with
  | nil => exact fun _ _ _ hj => absurd hj (Nat.not_lt_zero _)
  | cons v rest ih =>
    intro m i j hj hm hl
    rw [List.length_cons] at hj hl
    have hm' := Memory.write_wfFrom (m.read (programAddr a i) &&& v) hm (Nat.zero_le _) (programAddr_lt (i := i) ha)
    rw [Memory.program]
    cases j with
    | zero =>
      have hlater : ∀ j, j < rest.length → programAddr a i ≠ programAddr a (i + 1 + j) := fun j hj => by
        rw [Nat.add_assoc]
        exact (programAddr_ne a i (by omega) (by omega)).symm
      exact (Memory.read_program_other (i + 1) (programAddr a i) rest hlater).trans (Memory.read_write_same _ hm)
    | succ j =>
      rw [show i + (j + 1) = i + 1 + j by omega, ih _ (i + 1) j (by omega) hm' (by omega),
        Memory.read_write_other _ (by rw [Nat.add_assoc]; exact programAddr_ne a i (by omega) (by omega))]
      rfl

end Sys2Proof.Machine

namespace Sys2Proof.Safety

open Sys2Proof.Machine

/-! ### The page program of `write` -/

/-- Settles O54: the cursors of a chunk and the bounds test give the place, `nextFrame_wf` the page. -/
theorem writeChunkInPlace : Obligations.WriteChunkInPlace := by
  unfold Obligations.WriteChunkInPlace
  intro s a d hI hop hn
  have hsite : s.phase = .cmd ∧ a = s.cur ∧ d = s.chunk := by
    obtain ⟨hp, ⟨_, ha, hd⟩ | ⟨ho, _, _⟩⟩ := nextFrame_site hn
    · exact ⟨hp, ha, hd⟩
    · rw [hop] at ho; cases ho
  have hpage : a.toNat % 256 + d.length ≤ 256 := by
    have hw := nextFrame_wf hI hn
    simp only [Instr.wf, pageFits, Bool.and_eq_true] at hw
    exact of_decide_eq_true hw.2
  obtain ⟨hp, rfl, rfl⟩ := hsite
  have hin : s.argA.toNat + s.dataIn.length ≤ 33554432 := by
    have hacc := hI.accepted (by rw [hp]; rfl)
    rw [operandsAccepted, hop] at hacc
    exact (exceedsCapacity_eq_false _ _).mp ((Bool.not_eq_true' _).mp hacc)
  have hcur : s.cur.toNat = s.argA.toNat + s.off ∧ s.off ≤ s.dataIn.length := by
    have hc := hI.chunk (by rw [hp]; rfl) hop
    simp only [chunkCursors, Bool.and_eq_true, Bool.or_eq_true, decide_eq_true_eq] at hc
    omega
  have hle := chunkLen_le s
  refine ⟨by omega, ?_, hpage, ?_⟩
  · rw [chunk_length, hcur.1, Nat.add_sub_cancel_left]
    rfl
  · rw [chunk_length]
    omega

/-! ### The reference oracle's chip -/

/-- A chip that is not busy takes a command a busy one ignores. -/
theorem ifIdle_eq (c d : Chip) : c.ifIdle d = if c.busyCnt = 0 then d else c := rfl

/-- A mutating command starts its effect where WEL is set. -/
theorem startEffect_eq (c : Chip) (e : Effect) :
    c.startEffect e = if c.wel = true then { c with pending := some e, busyCnt := c.k } else c := rfl

section

variable {s : State} {i : Instr} (hb : s.busEnd = .reference) (h1 : s.holdPin = .high) (h2 : s.wpPin = .high)

include hb h1 h2

/-- A selected well-formed frame that the chip takes. -/
theorem reference_exec_takes {rx : List Byte} {c : Chip} (hi : isRequest i = false) (hw : i.wf = true)
    (hn : s.nextFrame = some i) (ht : s.chip.take i = some (rx, c)) (hl : rx.length = frameRx i) :
    ∃ t, exec i s = .next t ∧ t.chip = c ∧ t.trace = s.trace ++ [.frame (frameTx i) rx] :=
  reference_exec hb h1 h2 (decodeFrame_frameTx hi hw) hn ht hl

/-- The same of a frame that receives nothing, the chip alone. -/
theorem reference_exec_sent {c : Chip} (hi : isRequest i = false) (hw : i.wf = true) (hn : s.nextFrame = some i)
    (ht : s.chip.take i = some ([], c)) (hl : frameRx i = 0) : ∃ t, exec i s = .next t ∧ t.chip = c := by
  obtain ⟨t, he, hc, _⟩ := reference_exec_takes hb h1 h2 hi hw hn ht hl.symm
  exact ⟨t, he, hc⟩

/-- A mutating command with an address starts its effect on an idle chip with WEL set, where the address is in the device. -/
theorem reference_exec_addressed {a : Nat} {e : Effect} (hi : isRequest i = false) (hw : i.wf = true)
    (hn : s.nextFrame = some i) (ht : s.chip.take i = s.chip.addressed a e) (hl : frameRx i = 0) :
    ∃ t, exec i s = .next t ∧ t.chip = if s.chip.busyCnt = 0 ∧ s.chip.wel = true ∧ a < 33554432 then
      { s.chip with pending := some e, busyCnt := s.chip.k } else s.chip := by
  by_cases hbusy : s.chip.busyCnt = 0
  case neg =>
    rw [if_neg fun h => hbusy h.1]
    exact reference_exec_sent hb h1 h2 hi hw hn (ht.trans (if_neg hbusy)) hl
  by_cases ha : a < 33554432
  case neg =>
    rw [if_neg fun h => ha h.2.2]
    refine reference_exec_none hb hn ?_
    rw [Chip.answer, decodeFrame_frameTx hi hw]
    exact ht.trans ((if_pos hbusy).trans (if_neg ha))
  have hstart := reference_exec_sent hb h1 h2 hi hw hn (ht.trans ((if_pos hbusy).trans (if_pos ha))) hl
  rw [startEffect_eq] at hstart
  simpa only [hbusy, ha, true_and, and_true] using hstart

end

/-- Settles O55: `Chip.take` of each frame. -/
theorem referenceChipAnswers : Obligations.ReferenceChipAnswers := by
  unfold Obligations.ReferenceChipAnswers
  intro s hb h1 h2
  have sent := fun {i : Instr} {c : Chip} => reference_exec_sent (i := i) (c := c) hb h1 h2
  refine ⟨fun hn => ?status, fun hn => sent rfl rfl hn rfl rfl, fun hn => sent rfl rfl hn rfl rfl,
    fun hn => sent rfl rfl hn rfl rfl, fun hn => sent rfl rfl hn rfl rfl, fun hn => sent rfl rfl hn rfl rfl,
    fun a n hn => ?read⟩
  case status =>
    obtain ⟨t, he, hc, ht⟩ := reference_exec_takes hb h1 h2 rfl rfl hn rfl rfl
    refine ⟨t, he, ht, fun h0 => ?_, fun hge => ?_⟩
    · rw [hc, Chip.afterStatus, if_pos h0]
    · rw [hc, Chip.afterStatus, if_neg (by omega), if_neg (by omega)]
  case read =>
    exact reference_exec_takes hb h1 h2 rfl rfl hn rfl (Chip.readBytes_length _ _ _)

/-- Settles O59: each mutating frame is `Chip.addressed` at its address, the 32 KiB erase in the 4-byte mode. -/
theorem referenceChipStarts : Obligations.ReferenceChipStarts := by
  unfold Obligations.ReferenceChipStarts
  intro s hb h1 h2
  refine ⟨fun a d hI hn => reference_exec_addressed hb h1 h2 rfl (nextFrame_wf hI hn) hn rfl rfl,
    fun a hn => reference_exec_addressed hb h1 h2 rfl rfl hn rfl rfl,
    fun a hn => reference_exec_addressed hb h1 h2 rfl rfl hn rfl rfl, fun a hn => ?block32k, fun hn => ?chip⟩
  case block32k =>
    have hanswer : s.chip.answer (0x52 :: be32 a.toNat) 0 = s.chip.take (.blockErase32k a) := by
      rw [Chip.answer, show decodeFrame (0x52 :: be32 a.toNat) 0 = .ok (.blockErase32k a) from
        decodeFrame_frameTx (i := .blockErase32k a) rfl rfl]
    have hnone : s.chip.busyCnt = 0 → s.chip.mode4 = false → s.chip.answer (0x52 :: be32 a.toNat) 0 = none := by
      intro h0 hm
      rw [hanswer]
      exact if_pos (by rw [h0, hm]; rfl)
    by_cases hout : s.chip.busyCnt = 0 ∧ s.chip.mode4 = false
    case pos =>
      obtain ⟨t, he, hc⟩ := reference_exec_none hb hn (hnone hout.1 hout.2)
      refine ⟨t, he, ?_, hnone⟩
      rw [hc, if_neg fun h => by rw [hout.2] at h; cases h.2.1]
    have ht : s.chip.take (.blockErase32k a) = s.chip.addressed a.toNat (eraseUnit a.toNat block32kSize) := by
      refine if_neg fun h => hout ?_
      simpa only [Bool.and_eq_true, decide_eq_true_eq, Bool.not_eq_true'] using h
    obtain ⟨t, he, hc⟩ := reference_exec_addressed hb h1 h2 rfl rfl hn ht rfl
    refine ⟨t, he, hc.trans (if_congr ?_ rfl rfl), hnone⟩
    have hmode : s.chip.busyCnt = 0 → s.chip.mode4 = true := fun h0 => Bool.eq_true_of_not_eq_false fun hm => hout ⟨h0, hm⟩
    exact ⟨fun ⟨h0, h⟩ => ⟨h0, hmode h0, h⟩, fun ⟨h0, _, h⟩ => ⟨h0, h⟩⟩
  case chip =>
    obtain ⟨t, he, hc⟩ := reference_exec_sent hb h1 h2 rfl rfl hn rfl rfl
    refine ⟨t, he, ?_⟩
    rw [hc, ifIdle_eq, startEffect_eq, ← ite_and]
    rfl

theorem applyPending_program {c : Chip} {base : Nat} {d : List Byte} (h : c.pending = some (.program base d)) :
    c.applyPending = c.mem.program base 0 d := by
  rw [Chip.applyPending, h]

theorem applyPending_erase {c : Chip} {base len : Nat} (h : c.pending = some (.erase base len)) :
    c.applyPending = c.mem.erase base len := by
  rw [Chip.applyPending, h]

/-- Settles O56: the last busy read completes, and the effect reads as `Memory.program` or `Memory.erase` does. -/
theorem referenceChipCompletes : Obligations.ReferenceChipCompletes := by
  unfold Obligations.ReferenceChipCompletes
  intro s hb h1 h2 hn hbusy hm
  obtain ⟨t, he, hc, _⟩ := reference_exec_takes hb h1 h2 rfl rfl hn rfl rfl
  have hdone : t.chip = s.chip.complete := by
    rw [hc, Chip.afterStatus, if_neg (by rw [hbusy]; decide), if_pos hbusy]
  have hmem : t.chip.mem = s.chip.applyPending := by rw [hdone]; rfl
  refine ⟨t, he, by rw [hdone]; rfl, by rw [hdone]; rfl, by rw [hdone]; rfl, fun base len hp a => ?erase,
    fun base d hp hbase hl => ⟨fun j hj => ?programmed, fun a ha => ?other⟩⟩
  case erase =>
    rw [hmem, applyPending_erase hp]
    split <;> rename_i hin
    · exact Memory.read_erase_inside hin.1 hin.2
    · exact Memory.read_erase_outside (by omega)
  case programmed =>
    have hat := Memory.read_program_at hbase d s.chip.mem 0 j hj hm hl
    rw [Nat.zero_add] at hat
    rw [hmem, applyPending_program hp]
    exact hat
  case other =>
    rw [hmem, applyPending_program hp]
    refine Memory.read_program_other 0 a d fun j hj => ?_
    rw [Nat.zero_add]
    exact ha j hj

/-! ### The numeric codes -/

/-- Settles O57. -/
theorem resultCodes : Obligations.ResultCodes := by
  unfold Obligations.ResultCodes
  exact fun _ _ _ => ⟨rfl, rfl⟩

end Sys2Proof.Safety
end
